-- ==== Sys2Proof/Word.lean ====
section
/-! DEFINITION. The widths the spec gives (00_scope R9, R10) and the colour triples of R16. -/

namespace Sys2Proof

/-- A register or command word: `XLEN` = 32 bits (R9). -/
abbrev Word := BitVec 32

/-- One byte of memory. -/
abbrev Byte := BitVec 8

/-- A C565 endpoint: a u16 (R16, R130). -/
abbrev C565 := BitVec 16

/-- A 2-bit palette index (R16, R153). -/
abbrev Idx := BitVec 2

/-- The channel index `ch`, ordered R before G before B (R16). -/
inductive Chan where
  | r | g | b
  deriving DecidableEq, Repr

/-- A colour triple (R16); the spec's arithmetic on channels is exact integer arithmetic (R11, R155). -/
structure RGB where
  r : Nat
  g : Nat
  b : Nat
  deriving DecidableEq, Repr, Inhabited

/-- A pixel (R16). -/
structure RGBA where
  r : Nat
  g : Nat
  b : Nat
  a : Nat
  deriving DecidableEq, Repr, Inhabited

/-- A Block16: pixels in block row-major order, pixel k at column `k mod 4` and row `k div 4` (R16). -/
abbrev Block16 := List RGBA

end Sys2Proof
end

