-- ==== Sys2Proof/Syntax.lean ====
section
/-! DEFINITION. The commands of the opcode map (30_encoding R106), one constructor for each row of the table. -/

namespace Sys2Proof

/-- METHOD values (R105), in the order of their codes 0..3. -/
inductive Method where
  | basic | pca | random | cluster
  deriving DecidableEq, Repr

/-- A command (R106). The operands of format P all come from latched registers (R104); format E carries METHOD,
MSE, DITHER and REFINE (R103). -/
inductive Instr where
  | nop
  | decBlock
  | encBlock (method : Method) (mse dither refine : Bool)
  | tileGet
  | tilePut
  | encImage (method : Method) (mse dither refine : Bool)
  | decImage
  | ddsWriteHdr
  | ddsParseHdr
  deriving DecidableEq, Repr

end Sys2Proof
end

