-- ==== Sys2Proof/WellFormed.lean ====
section
/-! DEFINITION. Well-formedness. Every term of `Instr` is well formed: "every value of METHOD, MSE, DITHER and
REFINE is legal with every encode opcode" (R107), and the types hold exactly those values. What can be ill formed
is a command WORD, by R107's three clauses. -/

namespace Sys2Proof

/-- No command carries a field that could hold an illegal value (R107). -/
def Instr.wellFormed : Instr → Bool
  | .nop => true
  | .decBlock => true
  | .encBlock _ _ _ _ => true
  | .tileGet => true
  | .tilePut => true
  | .encImage _ _ _ _ => true
  | .decImage => true
  | .ddsWriteHdr => true
  | .ddsParseHdr => true

/-- R107 (a): an opcode in 0x09-0xFF. -/
def reservedOpcode (w : Word) : Bool := decide (9 ≤ (w.extractLsb' 0 8).toNat)

/-- The opcodes of format E (R103). -/
def opcodeIsE (w : Word) : Bool := w.extractLsb' 0 8 == 2#8 || w.extractLsb' 0 8 == 5#8

/-- R107 (b): a format P opcode with a bit of 31:8 set. -/
def reservedBitsP (w : Word) : Bool := !reservedOpcode w && !opcodeIsE w && w.extractLsb' 8 24 != 0#24

/-- R107 (c): a format E opcode with a bit of 31:13 set. -/
def reservedBitsE (w : Word) : Bool := opcodeIsE w && w.extractLsb' 13 19 != 0#19

/-- A legal command word: none of the clauses of R107 holds ("No other word is illegal"). -/
def wellFormedWord (w : Word) : Bool := !reservedOpcode w && !reservedBitsP w && !reservedBitsE w

end Sys2Proof
end

