-- ==== Sys2Proof/Decode.lean ====
section
/-! DEFINITION. The decoder of command words (30_encoding R100-R109), total, rejecting by name; the encoder, from
the same tables (R102, R103); the disassembler (R113). -/

namespace Sys2Proof

/-- Why a word is illegal (R107). -/
inductive Illegal where
  /-- R107 (a): OPCODE in 0x09-0xFF. -/
  | reservedOpcode
  /-- R107 (b), (c): a reserved bit of the opcode's format is set. -/
  | reservedBits
  deriving DecidableEq, Repr

/-- METHOD from its 2-bit code (R105): "All four values are assigned". -/
def Method.ofCode (c : BitVec 2) : Method :=
  if c = 0#2 then .basic else if c = 1#2 then .pca else if c = 2#2 then .random else .cluster

/-- The code of a METHOD (R105). -/
def Method.code : Method → BitVec 2
  | .basic => 0#2
  | .pca => 1#2
  | .random => 2#2
  | .cluster => 3#2

/-- Format P (R102): bits 31:8 must be 0. -/
def decodeP (w : Word) (i : Instr) : Except Illegal Instr :=
  if w.extractLsb' 8 24 = 0#24 then .ok i else .error .reservedBits

/-- Format E (R103): bits 31:13 must be 0; METHOD 9:8, MSE 10, DITHER 11, REFINE 12. -/
def decodeE (w : Word) (mk : Method → Bool → Bool → Bool → Instr) : Except Illegal Instr :=
  if w.extractLsb' 13 19 = 0#19 then
    .ok (mk (Method.ofCode (w.extractLsb' 8 2)) (w.getLsbD 10) (w.getLsbD 11) (w.getLsbD 12))
  else .error .reservedBits

/-- "Every 32-bit word is either one command of rule R106 with its fields, or illegal by rule R107" (R109). -/
def decode (w : Word) : Except Illegal Instr :=
  match (w.extractLsb' 0 8).toNat with
  | 0 => decodeP w .nop
  | 1 => decodeP w .decBlock
  | 2 => decodeE w .encBlock
  | 3 => decodeP w .tileGet
  | 4 => decodeP w .tilePut
  | 5 => decodeE w .encImage
  | 6 => decodeP w .decImage
  | 7 => decodeP w .ddsWriteHdr
  | 8 => decodeP w .ddsParseHdr
  | _ => .error .reservedOpcode

/-- The instruction the decoder reads from a word given as a number of `nbits` bits; the command word is one 32-bit
word (R100), and bits above `nbits` are 0. -/
def decodeTableWord (nbits w : Nat) : Option Instr :=
  match decode (BitVec.ofNat 32 (w % 2 ^ nbits)) with
  | .ok i => some i
  | .error _ => none

/-- A format P word (R102). -/
def encodeP (opcode : BitVec 8) : Word := 0#24 ++ opcode

/-- A format E word (R103): reserved ‖ REFINE ‖ DITHER ‖ MSE ‖ METHOD ‖ OPCODE. -/
def encodeE (opcode : BitVec 8) (m : Method) (mse dither refine : Bool) : Word :=
  0#19 ++ BitVec.ofBool refine ++ BitVec.ofBool dither ++ BitVec.ofBool mse ++ m.code ++ opcode

/-- The command word of a command (R106). -/
def encode : Instr → Word
  | .nop => encodeP 0x00#8
  | .decBlock => encodeP 0x01#8
  | .encBlock m e d r => encodeE 0x02#8 m e d r
  | .tileGet => encodeP 0x03#8
  | .tilePut => encodeP 0x04#8
  | .encImage m e d r => encodeE 0x05#8 m e d r
  | .decImage => encodeP 0x06#8
  | .ddsWriteHdr => encodeP 0x07#8
  | .ddsParseHdr => encodeP 0x08#8

/-- The method suffix of R113. -/
def Method.text : Method → String
  | .basic => ".basic"
  | .pca => ".pca"
  | .random => ".random"
  | .cluster => ".cluster"

/-- The flag suffixes of R113, in the order mse, dither, refine. -/
def flagsText (mse dither refine : Bool) : String :=
  (if mse then ".mse" else "") ++ (if dither then ".dither" else "") ++ (if refine then ".refine" else "")

/-- The text of a command (R111, R113). -/
def Instr.text : Instr → String
  | .nop => "NOP"
  | .decBlock => "DEC_BLOCK"
  | .encBlock m e d r => "ENC_BLOCK" ++ m.text ++ flagsText e d r
  | .tileGet => "TILE_GET"
  | .tilePut => "TILE_PUT"
  | .encImage m e d r => "ENC_IMAGE" ++ m.text ++ flagsText e d r
  | .decImage => "DEC_IMAGE"
  | .ddsWriteHdr => "DDS_WRITE_HDR"
  | .ddsParseHdr => "DDS_PARSE_HDR"

/-- One hexadecimal digit of R113's `.word 0xXXXXXXXX`. DESIGN CHOICE (log 20): A to F are capitals; R113 gives no
letter case and its examples hold no letter. -/
def hexDigit (n : Nat) : Char :=
  ['0', '1', '2', '3', '4', '5', '6', '7', '8', '9', 'A', 'B', 'C', 'D', 'E', 'F'].getD n '0'

/-- Eight hexadecimal digits of a word. -/
def hexWord (w : Word) : String :=
  String.ofList ([7, 6, 5, 4, 3, 2, 1, 0].map fun i => hexDigit ((w.extractLsb' (4 * i) 4).toNat))

/-- The disassembly of a command word (R113). -/
def disassemble (w : Word) : String :=
  match decode w with
  | .ok i => i.text
  | .error _ => ".word 0x" ++ hexWord w

end Sys2Proof
end

