-- ==== Sys2Proof/Config.lean ====
section
/-! DEFINITION. What an engine's implementation fixes (00_scope R9, 10_state R50) and the free values: constants
without a body for what the spec leaves open, so that no proof can learn what they are. -/

namespace Sys2Proof

/-- `P_QUANT` (R134). -/
inductive Quant where
  | nearest | truncate
  deriving DecidableEq, Repr

/-- `P_DITHER` (R150): the default, or some other function, named by a number. -/
inductive Dither where
  | bayer4
  | other (id : Nat)
  deriving DecidableEq, Repr

/-- The step of `P_RNG` (R221): the default, or some other generator, named by a number. -/
inductive RngStep where
  | xorshift32
  | other (id : Nat)
  deriving DecidableEq, Repr

/-- The parameters of R9, an argument of every meaning. They are not state (R50): every step keeps them. The
defaults are R9's; `regBase` is the platform's choice, and its default here is a DESIGN CHOICE (log 4). -/
structure Params where
  quant        : Quant   := .nearest
  pcaIters     : Nat     := 8
  flatThresh   : Nat     := 0
  refineRounds : Nat     := 4
  kmeansIters  : Nat     := 8
  dither       : Dither  := .bayer4
  rngStep      : RngStep := .xorshift32
  rngMult      : Word    := 0x9E3779B9#32
  regBase      : Word    := 0#32
  deriving DecidableEq, Repr

/-- The legal values of R9: only `P_PCA_ITERS` is limited. -/
def Params.legal (P : Params) : Bool := decide (8 ≤ P.pcaIters ∧ P.pcaIters ≤ 16)

/-- ID_VALUE (R9, R21). -/
def Config.idValue : Word := 0xBC1C0007#32

/-- REG_WINDOW, in bytes (R9). -/
def Config.regWindow : Nat := 4096

/-- FREE VALUE (log 1): the byte an address holds that nothing has written: "the engine assumes no initial value
of any byte" (R61). -/
opaque Config.initByte : Nat → Byte

/-- FREE VALUE (logs 7, 9, 10): the n-th "any value" byte drawn (R86, R343, R371). -/
opaque Config.freeByte : Nat → Byte

/-- FREE VALUE (log 10): the n-th "any value" word drawn (R86). -/
opaque Config.freeWord : Nat → Word

/-- FREE VALUE (log 12): which of two admitted outcomes a read gets (R414, U19). -/
opaque Config.freeBit : Nat → Bool

/-- FREE VALUE (log 5): a value of `P_DITHER` other than BAYER4: "a total function of (p, P) alone with results
in 0..255 per channel" (R150). Arguments: the function's number, the block's colours, the palette, the pixel, the
channel. -/
opaque Config.otherDither : Nat → List RGB → List RGB → Nat → Chan → Byte

/-- FREE VALUE (log 5): the step of a value of `P_RNG` other than xorshift32 (R221). -/
opaque Config.otherRng : Nat → Word → Word

end Sys2Proof
end

