-- ==== Sys2Proof/Machine/State.lean ====
section
/-! DEFINITION. The state of the machine as plain data (10_state R20-R50, 20_memory R60), the reasons a step can
stop, and the state after reset (70_reset_and_hazards R401). -/

namespace Sys2Proof.Machine

open Sys2Proof

/-- Memory, 2^32 bytes (R60): the bytes written since the start, by strictly rising address. An unlisted address
has no entry, so no value: nothing has written it, and what reading it gives is `State.readByte`'s choice, the
free value `Config.initByte` (log 1). -/
abbrev Memory := List Host.Cell

/-- A half-open range of addresses `[base, base + len)` (R73). -/
structure Span where
  base : Nat
  len  : Nat
  deriving DecidableEq, Repr

/-- STATUS (R23), by field; its reserved bits read 0 and cannot be written, so they have no storage. -/
structure Status where
  busy    : Bool := false
  done    : Bool := false
  err     : Bool := false
  ovr     : Bool := false
  errCode : BitVec 8 := 0x00#8
  deriving DecidableEq, Repr

/-- The error codes of R360 that a command can raise. -/
inductive ErrCode where
  | illegalCommand
  | invalidDimensions
  | blockOutOfRange
  | addrOverflow
  | bufferOverlap
  | formatMagic
  | formatFourcc
  | formatTruncated
  | busError
  deriving DecidableEq, Repr

/-- The nine operand registers (R25-R33). -/
structure Operands where
  srcAddr    : Word := 0#32
  dstAddr    : Word := 0#32
  width      : Word := 0#32
  height     : Word := 0#32
  blockX     : Word := 0#32
  blockY     : Word := 0#32
  iterations : Word := 0#32
  rngSeed    : Word := 0#32
  srcLen     : Word := 0#32
  deriving DecidableEq, Repr

/-- The nine result registers (R34-R42). -/
structure Results where
  sse         : Word := 0#32
  colors      : Word := 0#32
  indices     : Word := 0#32
  width       : Word := 0#32
  height      : Word := 0#32
  bw          : Word := 0#32
  bh          : Word := 0#32
  payloadSize : Word := 0#32
  payloadAddr : Word := 0#32
  deriving DecidableEq, Repr

/-- The names of the operand registers. -/
inductive OpReg where
  | srcAddr | dstAddr | width | height | blockX | blockY | iterations | rngSeed | srcLen
  deriving DecidableEq, Repr

/-- The names of the result registers. -/
inductive ResReg where
  | sse | colors | indices | width | height | bw | bh | payloadSize | payloadAddr
  deriving DecidableEq, Repr

/-- The registers of the window (the map of R20). -/
inductive Reg where
  | id | ctrl | status | cmd
  | operand (r : OpReg)
  | result (r : ResReg)
  deriving DecidableEq, Repr

/-- The latched copies L[...] (R44), held only while BUSY = 1 (R49). With no command running they are discarded,
which the model writes as zeros (DESIGN CHOICE, log 16). -/
structure Latches where
  cmd : Word     := 0#32
  ops : Operands := {}
  deriving DecidableEq, Repr

/-- The MODEL's own record of a race on the running command's buffers (R86, log 10): whether the host wrote the
source range, and which destination bytes it wrote, by rising address. -/
structure Race where
  src : Bool     := false
  dst : List Nat := []
  deriving DecidableEq, Repr

/-- The platform around the engine (log 6): the addresses that answer with a bus error (R61, R371) and the
addresses that belong to a device with side effects (R66). -/
structure Platform where
  unbacked : List Span := []
  devices  : List Span := []
  deriving DecidableEq, Repr

/-- One access of the host (R83). Register accesses name the bus address and their size in bytes, so that the
shapes R20 puts outside the interface can be said; memory accesses are byte accesses (R65). -/
inductive HostOp where
  | regRead (addr : Word) (size : Nat)
  | regWrite (addr : Word) (size : Nat) (data : Word)
  | memRead (addr : Word)
  | memWrite (addr : Word) (data : Byte)
  deriving DecidableEq, Repr

/-- Whose atomic step comes next (R415): the engine's, the host's, a host access in the same step as the engine's
completion (R378), or the platform's reset input (R400). -/
inductive Turn where
  | engine
  | host (op : HostOp)
  | together (op : HostOp)
  | powerOn
  deriving DecidableEq, Repr

/-- The machine. `params` is the configuration (fixed, R50); `irqEn` is CTRL.IRQ_EN (R22); `latch` and `race` are
the hidden state of a running command (R49); `turns` holds the pending turns of the agents, oldest first, and when
it is empty the engine moves (log 3); `rdata` is what the last host read returned (log 11); `free` counts the free
values drawn (log 8). -/
structure State where
  params   : Params
  irqEn    : Bool
  status   : Status
  cmd      : Word
  ops      : Operands
  res      : Results
  latch    : Latches
  race     : Race
  mem      : Memory
  platform : Platform
  turns    : List Turn
  rdata    : Word
  free     : Nat
  deriving DecidableEq, Repr

/-- Why the machine stops with a fault. -/
inductive Fault where
  /-- Raised by a host memory access to an address that no storage backs (R61): the platform answers the host
  itself with a bus error, and what the host does then is outside this hardware. Safe: the machine stops. -/
  | unbackedHostAccess (addr : Word)
  deriving DecidableEq, Repr

/-- Why a step is refused. -/
inductive Refusal where
  /-- Raised by exec's arm of an instruction that has no meaning yet; no arm does. Safe. -/
  | notModelled (mnemonic : String)
  /-- Raised by a host register access that is not a naturally aligned 32-bit access (R20: "a model refuses it",
  U1). Safe. -/
  | registerAccessShape
  /-- Raised by a host register access outside the window (R20, log 14). Safe. -/
  | outsideWindow
  /-- Raised by the acceptance of a command one of whose buffers meets a device (R66: "a model refuses such a
  launch", U2). Safe. -/
  | bufferOnDevice
  /-- Raised by a host memory access to a device, whose behaviour the spec does not give (R66, log 17). Safe. -/
  | hostDeviceAccess
  deriving DecidableEq, Repr

/-- What a host access or a command answers. -/
abbrev Out := Host.Outcome State Fault Refusal

/-- The state after reset (R401), in a machine with the default parameters (R9) and no turn pending. Memory lists
nothing; the fields that are not the spec's are at the values of logs 1, 4, 6, 8, 11 and 16. -/
def State.reset : State where
  params   := {}
  irqEn    := false
  status   := {}
  cmd      := 0#32
  ops      := {}
  res      := {}
  latch    := {}
  race     := {}
  mem      := []
  platform := {}
  turns    := []
  rdata    := 0#32
  free     := 0

end Sys2Proof.Machine
end

