-- ==== Sys2Proof/Machine/Flags.lean ====
section
/-! DEFINITION. The STATUS and CTRL registers: every set and clear of a flag (10_state R22, R23, R43, R45), the error
codes (60_exceptions R360) and the interrupt line (R376). -/

namespace Sys2Proof.Machine

open Sys2Proof

/-- The code of an error (R360). -/
def ErrCode.code : ErrCode → BitVec 8
  | .illegalCommand => 0x01#8
  | .invalidDimensions => 0x02#8
  | .blockOutOfRange => 0x03#8
  | .addrOverflow => 0x04#8
  | .bufferOverlap => 0x05#8
  | .formatMagic => 0x06#8
  | .formatFourcc => 0x07#8
  | .formatTruncated => 0x08#8
  | .busError => 0x09#8

/-- The 32 bits of STATUS (R23): 31:16 reserved, ERRCODE, 7:4 reserved, OVR, ERR, DONE, BUSY. -/
def Status.word (f : Status) : Word :=
  0#16 ++ f.errCode ++ 0#4 ++ BitVec.ofBool f.ovr ++ BitVec.ofBool f.err ++ BitVec.ofBool f.done ++ BitVec.ofBool f.busy

/-- A host write of STATUS (R23, R341): DONE, ERR and OVR are write-1-to-clear, clearing ERR clears ERRCODE, BUSY
and ERRCODE are not writable. -/
def Status.hostWrite (f : Status) (w : Word) : Status :=
  { f with
    done := f.done && !w.getLsbD 1
    err := f.err && !w.getLsbD 2
    ovr := f.ovr && !w.getLsbD 3
    errCode := if w.getLsbD 2 then 0x00#8 else f.errCode }

/-- Acceptance (R43): DONE, ERR and ERRCODE cleared, BUSY set, OVR unchanged. -/
def Status.accepted (f : Status) : Status :=
  { f with busy := true, done := false, err := false, errCode := 0x00#8 }

/-- A dropped command (R24): OVR set. -/
def Status.dropped (f : Status) : Status := { f with ovr := true }

/-- Completion without error (R45). -/
def Status.completed (f : Status) : Status := { f with busy := false, done := true }

/-- Completion with an error (R45, R361). -/
def Status.failed (f : Status) (e : ErrCode) : Status :=
  { f with busy := false, done := true, err := true, errCode := e.code }

/-- The 32 bits of CTRL (R22): IRQ_EN in bit 0; SOFT_RESET and the reserved bits read 0. -/
def ctrlWord (irqEn : Bool) : Word := 0#31 ++ BitVec.ofBool irqEn

/-- The interrupt line: "at every step `irq = CTRL.IRQ_EN AND STATUS.DONE`" (R376). -/
def State.irq (s : State) : Bool := s.irqEn && s.status.done

end Sys2Proof.Machine
end

