-- ==== Sys2Proof/Machine/Ops.lean ====
section
/-! DEFINITION. The operations over memory and registers that every command shares: memory bytes and little-endian
fields (00_scope R14), spans (R73), free values (R86, R343, R371), result registers, acceptance (R43, R44),
completion (R45), and raising an error (R361), the engine's one way of taking an exception. -/

namespace Sys2Proof.Machine

open Sys2Proof

/-! ## Memory -/

/-- The entry of an address, if something has written it. -/
def Memory.lookup : Memory → Nat → Option Byte
  | [], _ => none
  | (b, v) :: m, a => if a = b then some v else Memory.lookup m a

/-- Writing one byte, in address order. -/
def Memory.set : Memory → Nat → Byte → Memory
  | [], a, v => [(a, v)]
  | (b, u) :: m, a, v =>
    if a < b then (a, v) :: (b, u) :: m
    else if a = b then (a, v) :: m
    else (b, u) :: Memory.set m a v

/-- Writing bytes one after the other. -/
def Memory.setAll (m : Memory) (cells : List Host.Cell) : Memory :=
  cells.foldl (fun m c => Memory.set m c.1 c.2) m

/-- Addresses strictly rising, all of them at least `lo`. -/
def Memory.risingFrom : Nat → Memory → Bool
  | _, [] => true
  | lo, (a, _) :: m => decide (lo ≤ a) && Memory.risingFrom (a + 1) m

/-- The canonical form: addresses strictly rising, inside the 2^32 bytes of R60. An unlisted address has no value,
so no entry equals what an unlisted address reads as. -/
def Memory.wf (m : Memory) : Bool :=
  Memory.risingFrom 0 m && m.all (fun c => decide (c.1 < 2 ^ 32))

/-- The byte at an address: the one last written, or the free value of that address (R61, log 1). -/
def State.readByte (s : State) (a : Nat) : Byte := (Memory.lookup s.mem a).getD (Config.initByte a)

/-- `MemRead(a, n)` (R14): the n bytes from a, little-endian, as a number. -/
def State.memRead (s : State) (a : Nat) : Nat → Nat
  | 0 => 0
  | n + 1 => (s.readByte a).toNat + 256 * s.memRead (a + 1) n

/-- The bytes of `MemWrite(a, n, v)` (R14): byte `v[8*i+7 : 8*i]` to address a+i for i < n. -/
def cellsLE (a : Nat) : Nat → Nat → List Host.Cell
  | 0, _ => []
  | n + 1, v => (a, BitVec.ofNat 8 v) :: cellsLE (a + 1) n (v / 256)

/-- The memory after a list of byte writes. -/
def State.store (s : State) (cells : List Host.Cell) : State := { s with mem := Memory.setAll s.mem cells }

/-! ## Spans -/

/-- The addresses of a span. -/
def Span.addrs (x : Span) : List Nat := List.range' x.base x.len

/-- The span holds the address. -/
def Span.holds (x : Span) (a : Nat) : Bool := decide (x.base ≤ a ∧ a < x.base + x.len)

/-- The part of a span inside the 2^32 bytes of the address space (R60). -/
def Span.clip (x : Span) : Span := ⟨x.base, min x.len (2 ^ 32 - x.base)⟩

/-- Two half-open ranges share a byte (R367). -/
def Span.meets (x y : Span) : Bool :=
  decide (0 < x.len ∧ 0 < y.len ∧ x.base < y.base + y.len ∧ y.base < x.base + x.len)

/-- Some access of a command falls where the platform answers with a bus error (R371). -/
def Platform.faults (p : Platform) (touched : List Span) : Bool :=
  touched.any fun t => p.unbacked.any fun u => t.meets u

/-- Some span lies on a device (R66). -/
def Platform.onDevice (p : Platform) (spans : List Span) : Bool :=
  spans.any fun t => p.devices.any fun d => t.meets d

/-! ## Free values -/

/-- The i-th of the given addresses gets the free byte number n+i. -/
def anyCells : List Nat → Nat → List Host.Cell
  | [], _ => []
  | a :: as, n => (a, Config.freeByte n) :: anyCells as (n + 1)

/-- "Each byte … is afterwards any value" (R343, R371, R86): every listed address gets a fresh free byte. -/
def State.anyBytes (s : State) (addrs : List Nat) : State :=
  { s with mem := Memory.setAll s.mem (anyCells addrs s.free), free := s.free + addrs.length }

/-! ## Result registers -/

/-- Reading a result register. -/
def Results.get (r : Results) : ResReg → Word
  | .sse => r.sse
  | .colors => r.colors
  | .indices => r.indices
  | .width => r.width
  | .height => r.height
  | .bw => r.bw
  | .bh => r.bh
  | .payloadSize => r.payloadSize
  | .payloadAddr => r.payloadAddr

/-- Writing a result register, which only the engine does (R47). -/
def Results.set (r : Results) (v : Word) : ResReg → Results
  | .sse => { r with sse := v }
  | .colors => { r with colors := v }
  | .indices => { r with indices := v }
  | .width => { r with width := v }
  | .height => { r with height := v }
  | .bw => { r with bw := v }
  | .bh => { r with bh := v }
  | .payloadSize => { r with payloadSize := v }
  | .payloadAddr => { r with payloadAddr := v }

/-- The result registers a command writes, with their values. -/
abbrev ResultWrites := List (ResReg × Word)

/-- Writing several result registers. -/
def Results.setAll (r : Results) (ws : ResultWrites) : Results := ws.foldl (fun r w => r.set w.2 w.1) r

/-- The same registers with free values in place of the values (R86: "the result registers too"). -/
def anyResults : ResultWrites → Nat → ResultWrites
  | [], _ => []
  | (r, _) :: ws, n => (r, Config.freeWord n) :: anyResults ws (n + 1)

/-! ## The life of a command -/

/-- Acceptance of a command word (R43) with the latching of R44. -/
def State.accept (s : State) (w : Word) : State :=
  { s with cmd := w, latch := { cmd := w, ops := s.ops }, race := {}, status := s.status.accepted }

/-- Successful completion (R45): the result registers are written, BUSY falls, DONE rises, and the latches and the
working state are gone (R49). -/
def State.complete (s : State) (ws : ResultWrites) : State :=
  { s with res := s.res.setAll ws, status := s.status.completed, latch := {}, race := {} }

/-- `raise Error(CODE)` (R15, R361): the command ends at once with BUSY = 0, DONE = 1, ERR = 1 and its code in
ERRCODE; no result register is written (R370), no other state records the error, and the host's control flow is
not redirected. There is no return from it (R373): the engine is idle, and the host may clear ERR and ERRCODE by
`Status.hostWrite`. -/
def State.raiseError (s : State) (e : ErrCode) : State :=
  { s with status := s.status.failed e, latch := {}, race := {} }

/-- What a command that has passed its checks does: its destination range (R73), the spans it really accesses, the
final bytes it writes, and the result registers it writes. -/
structure Job where
  dst     : Span
  touched : List Span
  cells   : List Host.Cell
  results : ResultWrites

/-- The end of a command that has passed its checks. A bus error ends it with its destination range any value
(R371). If the host wrote its source range, every destination byte and result register is any value (R86). Else
its bytes are written, the destination bytes the host wrote meanwhile are any value (R86), and it completes (R45). -/
def State.finish (s : State) (j : Job) : State :=
  if s.platform.faults j.touched then
    (s.anyBytes j.dst.addrs).raiseError .busError
  else if s.race.src then
    let t := s.anyBytes j.dst.addrs
    { t with free := t.free + j.results.length }.complete (anyResults j.results t.free)
  else
    ((s.store j.cells).anyBytes s.race.dst).complete j.results

/-- The end of a command by one of its checks, before any memory access of its own (R369, R370). A destination byte
that the host wrote meanwhile is any value (R86). -/
def State.failCheck (s : State) (e : ErrCode) : State := (s.anyBytes s.race.dst).raiseError e

/-- One command: the first check that fails ends it with its error (R369), else it does its job. -/
def State.runCommand (s : State) (check : Option ErrCode) (job : Job) : Out :=
  match check with
  | some e => .next (s.failCheck e)
  | none => .next (s.finish job)

/-- The command word is illegal (R107, R364): the command ends with ILLEGAL_COMMAND before anything else. -/
def State.illegal (s : State) : Out := .next (s.raiseError .illegalCommand)

/-- Two parts of one step, one after the other. -/
def Out.andThen (o : Out) (f : State → Out) : Out :=
  match o with
  | .next s => f s
  | .fault r => .fault r
  | .refused r => .refused r

end Sys2Proof.Machine
end

