-- ==== Sys2Proof/Machine/Operands.lean ====
section
/-! DEFINITION. The operands of a command, from its latched registers (30_encoding R104): the block grid (R260),
the source and destination ranges (20_memory R73), the EncodeConfig (R104), and the checks of 60_exceptions
(R362, R364-R369) that come before any memory access. -/

namespace Sys2Proof.Machine

open Sys2Proof

/-! ## The block grid -/

/-- `ceil(n/4)` as R260 writes it. -/
def blocksOf (n : Nat) : Nat := (n + 3) / 4

/-- W = L[WIDTH], unsigned (R104). -/
def Operands.W (o : Operands) : Nat := o.width.toNat

/-- H = L[HEIGHT], unsigned (R104). -/
def Operands.H (o : Operands) : Nat := o.height.toNat

/-- BW, "blocksWide" (R260). -/
def Operands.BW (o : Operands) : Nat := blocksOf o.W

/-- BH, "blocksHigh" (R260). -/
def Operands.BH (o : Operands) : Nat := blocksOf o.H

/-- The payload byte count `BW*BH*8` (R71). -/
def Operands.payloadSize (o : Operands) : Nat := o.BW * o.BH * 8

/-- The image byte count `W*H*4` (R68). -/
def Operands.imageSize (o : Operands) : Nat := o.W * o.H * 4

/-- SRC = L[SRC_ADDR]. -/
def Operands.src (o : Operands) : Nat := o.srcAddr.toNat

/-- DST = L[DST_ADDR]. -/
def Operands.dst (o : Operands) : Nat := o.dstAddr.toNat

/-! ## The configuration of an encode command -/

/-- The source's EncodeConfig with the seed (R104, R191). -/
structure EncCfg where
  method     : Method
  useMSE     : Bool
  useDither  : Bool
  useRefine  : Bool
  iterations : Nat
  rngSeed    : Word
  deriving DecidableEq, Repr

/-- Operand assembly of format E (R104): the fields of the command word, `iterations = L[ITERATIONS]`, and the
seed `L[RNG_SEED]`. -/
def encCfg (m : Method) (mse dither refine : Bool) (o : Operands) : EncCfg where
  method     := m
  useMSE     := mse
  useDither  := dither
  useRefine  := refine
  iterations := o.iterations.toNat
  rngSeed    := o.rngSeed

/-! ## Ranges (the table of R73) -/

/-- The source range of a command. -/
def srcSpan (i : Instr) (o : Operands) : Span :=
  match i with
  | .nop => ⟨0, 0⟩
  | .decBlock => ⟨o.src, 8⟩
  | .encBlock _ _ _ _ => ⟨o.src, 64⟩
  | .tileGet => ⟨o.src, o.imageSize⟩
  | .tilePut => ⟨o.src, 64⟩
  | .encImage _ _ _ _ => ⟨o.src, o.imageSize⟩
  | .decImage => ⟨o.src, o.payloadSize⟩
  | .ddsWriteHdr => ⟨0, 0⟩
  | .ddsParseHdr => ⟨o.src, 128⟩

/-- The destination range of a command. -/
def dstSpan (i : Instr) (o : Operands) : Span :=
  match i with
  | .nop => ⟨0, 0⟩
  | .decBlock => ⟨o.dst, 64⟩
  | .encBlock _ _ _ _ => ⟨o.dst, 8⟩
  | .tileGet => ⟨o.dst, 64⟩
  | .tilePut => ⟨o.dst, o.imageSize⟩
  | .encImage _ _ _ _ => ⟨o.dst, o.payloadSize⟩
  | .decImage => ⟨o.dst, o.imageSize⟩
  | .ddsWriteHdr => ⟨o.dst, 128⟩
  | .ddsParseHdr => ⟨0, 0⟩

/-! ## Checks -/

/-- One check of a command: whether it fails, and the error it then raises. -/
abbrev Check := Bool × ErrCode

/-- "A command reports exactly one error: the first check that fails in this order" (R369). -/
def firstFailure : List Check → Option ErrCode
  | [] => none
  | (failed, e) :: cs => if failed then some e else firstFailure cs

/-- `check_range(A, n)`: ADDR_OVERFLOW when `A + n > 2^32`, without wrap-around (R366). -/
def checkRange (x : Span) : Check := (decide (x.base + x.len > 2 ^ 32), .addrOverflow)

/-- `check_disjoint(A, n, B, m)`: BUFFER_OVERLAP when the two half-open ranges share a byte (R367). -/
def checkDisjoint (x y : Span) : Check := (x.meets y, .bufferOverlap)

/-- INVALID_DIMENSIONS when a latched dimension is zero (R362). -/
def checkDims (o : Operands) : Check := (decide (o.W = 0 ∨ o.H = 0), .invalidDimensions)

/-- BLOCK_OUT_OF_RANGE when the block is outside the grid (R365). -/
def checkBlock (o : Operands) : Check :=
  (decide (o.blockX.toNat ≥ o.BW ∨ o.blockY.toNat ≥ o.BH), .blockOutOfRange)

/-- INVALID_DIMENSIONS when the payload size does not fit the header's field (R303, R362). -/
def checkPayloadFits (o : Operands) : Check := (decide (o.payloadSize > 0xFFFFFFFF), .invalidDimensions)

/-- FORMAT_TRUNCATED when the host declares fewer than 128 bytes (R310). -/
def checkHeaderLength (o : Operands) : Check := (decide (o.srcLen.toNat < 128), .formatTruncated)

/-- The range checks of a command with a source and a destination: source first, then destination, then overlap
(R366, R367, R369). -/
def rangeChecks (i : Instr) (o : Operands) : List Check :=
  [checkRange (srcSpan i o), checkRange (dstSpan i o), checkDisjoint (srcSpan i o) (dstSpan i o)]

/-- The checks of a command that come before its first memory access, in the order of its pseudocode (R369). -/
def checks (i : Instr) (o : Operands) : List Check :=
  match i with
  | .nop => []
  | .decBlock => rangeChecks i o
  | .encBlock _ _ _ _ => rangeChecks i o
  | .tileGet => checkDims o :: checkBlock o :: rangeChecks i o
  | .tilePut => checkDims o :: checkBlock o :: rangeChecks i o
  | .encImage _ _ _ _ => checkDims o :: rangeChecks i o
  | .decImage => checkDims o :: rangeChecks i o
  | .ddsWriteHdr => [checkDims o, checkPayloadFits o, checkRange (dstSpan i o)]
  | .ddsParseHdr => [checkHeaderLength o, checkRange (srcSpan i o)]

/-- The first error a command raises before its first memory access, if any. -/
def preError (i : Instr) (o : Operands) : Option ErrCode := firstFailure (checks i o)

/-- The source and destination ranges of a command word with these operands (R73), as far as they lie inside the address
space; an illegal word has none. -/
def commandSpans (w : Word) (o : Operands) : Option (Span × Span) :=
  match decode w with
  | .error _ => none
  | .ok i => some ((srcSpan i o).clip, (dstSpan i o).clip)

/-- The source and destination ranges that a command word with these operands accesses: none if it is illegal or
one of its checks fails, because then it accesses no memory (R370, log 15). -/
def accessedSpans (w : Word) (o : Operands) : Option (Span × Span) :=
  match decode w with
  | .error _ => none
  | .ok i => if (preError i o).isNone then some (srcSpan i o, dstSpan i o) else none

end Sys2Proof.Machine
end

