-- ==== Sys2Proof/Machine/Palette.lean ====
section
/-! DEFINITION. Palette math (40_palette_math): the 5:6:5 endpoint, quantization, the palette, the error model,
index selection, dithering, and index packing. -/

namespace Sys2Proof.Machine

open Sys2Proof

/-! ## Smallest arguments (00_scope R12) -/

/-- `argmin` over 0..n: the smallest index at which f is minimal (R12). -/
def argmin (f : Nat → Int) : Nat → Nat
  | 0 => 0
  | n + 1 => if f (n + 1) < f (argmin f n) then n + 1 else argmin f n

/-- `argmax` over 0..n: the smallest index at which f is maximal (R12). -/
def argmax (f : Nat → Int) (n : Nat) : Nat := argmin (fun k => -f k) n

/-- `argmax` over the channels: a tie goes to the lower channel, R before G before B (R12). -/
def argmaxChan (f : Chan → Int) : Chan :=
  if f .r ≥ f .g ∧ f .r ≥ f .b then .r else if f .g ≥ f .b then .g else .b

/-! ## Colours -/

/-- The channel `p.ch` of a colour (R16). -/
def chan (c : RGB) : Chan → Nat
  | .r => c.r
  | .g => c.g
  | .b => c.b

/-- A colour from its channels. -/
def rgbOf (f : Chan → Nat) : RGB := ⟨f .r, f .g, f .b⟩

/-- `rgb(p)` drops alpha (R145). -/
def rgb (p : RGBA) : RGB := ⟨p.r, p.g, p.b⟩

/-- The colours of a block: what the encoder uses of it, alpha never (R152). -/
def colors (p : Block16) : List RGB := p.map rgb

/-- Pixel k of a block's colours. -/
def px (p : List RGB) (k : Nat) : RGB := p.getD k ⟨0, 0, 0⟩

/-! ## The 5:6:5 endpoint (R130-R132) -/

/-- `E5(q) = (q << 3) | (q >> 2)` (R131). -/
def E5 (q : Nat) : Nat := (q <<< 3) ||| (q >>> 2)

/-- `E6(q) = (q << 2) | (q >> 4)` (R131). -/
def E6 (q : Nat) : Nat := (q <<< 2) ||| (q >>> 4)

/-- `expand565to888(c) = (E5(c[15:11]), E6(c[10:5]), E5(c[4:0]))` (R132). -/
def expand565to888 (c : C565) : RGB :=
  ⟨E5 (c.extractLsb' 11 5).toNat, E6 (c.extractLsb' 5 6).toNat, E5 (c.extractLsb' 0 5).toNat⟩

/-! ## Quantization (R134-R137) -/

/-- `abs(a - b)` of two channel values. -/
def absDiff (a b : Nat) : Nat := (a - b) + (b - a)

/-- The nearest code, a tie going to the lower code (R135). -/
def nearestCode (expand : Nat → Nat) (last v : Nat) : Nat := argmin (fun q => (absDiff (expand q) v : Int)) last

/-- The 5-bit quantizer (R135, R136). -/
def Q5 (q : Quant) (v : Nat) : Nat :=
  match q with
  | .nearest => nearestCode E5 31 v
  | .truncate => v >>> 3

/-- The 6-bit quantizer (R135, R136). -/
def Q6 (q : Quant) (v : Nat) : Nat :=
  match q with
  | .nearest => nearestCode E6 63 v
  | .truncate => v >>> 2

/-- `pack565(r, g, b) = (Q5(r) << 11) | (Q6(g) << 5) | Q5(b)` (R137). -/
def pack565 (q : Quant) (c : RGB) : C565 :=
  BitVec.ofNat 16 ((Q5 q c.r <<< 11) ||| (Q6 q c.g <<< 5) ||| Q5 q c.b)

/-! ## The palette (R140) -/

/-- The four entries of a palette. -/
structure Palette where
  p0 : RGB
  p1 : RGB
  p2 : RGB
  p3 : RGB
  deriving DecidableEq, Repr

/-- `P[i]`. -/
def Palette.entry (P : Palette) (i : Idx) : RGB :=
  if i = 0#2 then P.p0 else if i = 1#2 then P.p1 else if i = 2#2 then P.p2 else P.p3

/-- `P[2].ch = (2*P[0].ch + P[1].ch + 1) div 3`: the blend of R140, two parts a to one part b, rounded half up. -/
def blend (a b : RGB) : RGB := rgbOf fun ch => (2 * chan a ch + chan b ch + 1) / 3

/-- `palette(c0, c1)` (R140), the same whatever the order of the endpoints. -/
def palette (c0 c1 : C565) : Palette where
  p0 := expand565to888 c0
  p1 := expand565to888 c1
  p2 := blend (expand565to888 c0) (expand565to888 c1)
  p3 := blend (expand565to888 c1) (expand565to888 c0)

/-! ## Error model and index selection (R143-R149) -/

/-- `d2(s, t)`, the squared distance of two colours (R143). -/
def d2 (s t : RGB) : Nat := absDiff s.r t.r ^ 2 + absDiff s.g t.g ^ 2 + absDiff s.b t.b ^ 2

/-- `nearest(t, P)`: the nearest entry, a tie going to the lowest index (R144). -/
def nearest (t : RGB) (P : Palette) : Idx :=
  BitVec.ofNat 2 (argmin (fun i => (d2 t (P.entry (BitVec.ofNat 2 i)) : Int)) 3)

/-- A candidate (R16). -/
structure Candidate where
  c0  : C565
  c1  : C565
  idx : List Idx
  deriving DecidableEq, Repr

/-- The palette of a candidate. -/
def Candidate.palette (c : Candidate) : Palette := Sys2Proof.Machine.palette c.c0 c.c1

/-- `SSE(p, c0, c1, idx)` (R146), against the undithered pixels. -/
def SSE (p : List RGB) (c : Candidate) : Nat :=
  ((p.zip c.idx).map fun x => d2 x.1 (c.palette.entry x.2)).sum

/-- `range_ch = max_k p[k].ch - min_k p[k].ch` (R147). -/
def rangeOf (p : List RGB) (ch : Chan) : Int :=
  let v := fun k => (chan (px p k) ch : Int)
  v (argmax v 15) - v (argmin v 15)

/-- `axis(p)`, the channel with the greatest range (R147). -/
def axis (p : List RGB) : Chan := argmaxChan (rangeOf p)

/-- `AE(p, c0, c1, idx)`, the squared error on the axis channel (R148). -/
def AE (p : List RGB) (c : Candidate) : Nat :=
  let a := axis p
  ((p.zip c.idx).map fun x => absDiff (chan x.1 a) (chan (c.palette.entry x.2) a) ^ 2).sum

/-- `score(p, cand)`: SSE if useMSE = 1, else AE (R149). -/
def score (useMSE : Bool) (p : List RGB) (c : Candidate) : Nat := if useMSE then SSE p c else AE p c

/-! ## Dithering (R150) -/

/-- `clamp255(v) = min(255, max(0, v))` (R11). -/
def clamp255 (v : Int) : Nat := (min 255 (max 0 v)).toNat

/-- The matrix M of R150, row after row. -/
def bayerM : List Nat := [0, 8, 2, 10, 12, 4, 14, 6, 3, 11, 1, 9, 15, 7, 13, 5]

/-- `BAYER4(p, P)[k].ch = clamp255(p[k].ch + M[k div 4][k mod 4] - 8)` (R150). -/
def bayer4 (p : List RGB) (k : Nat) (ch : Chan) : Nat :=
  clamp255 ((chan (px p k) ch : Int) + (bayerM.getD k 0 : Int) - 8)

/-- `P_DITHER(p, P)`: the 16 target colours (R150). A value of the parameter other than the default is a free
function with results in 0..255 (log 5). -/
def dither (d : Dither) (p : List RGB) (P : Palette) : List RGB :=
  (List.range 16).map fun k => rgbOf fun ch =>
    match d with
    | .bayer4 => bayer4 p k ch
    | .other n => (Config.otherDither n p [P.p0, P.p1, P.p2, P.p3] k ch).toNat

/-- `assign(p, c0, c1, dz)` with its endpoints: a candidate (R145). -/
def assign (d : Dither) (p : List RGB) (c0 c1 : C565) (dz : Bool) : Candidate :=
  let P := palette c0 c1
  let t := if dz then dither d p P else p
  ⟨c0, c1, t.map fun x => nearest x P⟩

/-! ## The index word (R153, R154) -/

/-- `pack_indices(idx)`: pixel k's index at bits `[2k+1 : 2k]` (R153). -/
def packIndices : List Idx → Nat
  | [] => 0
  | i :: is => i.toNat + 4 * packIndices is

/-- `idx[k] = indices[2k+1 : 2k]` (R154). -/
def unpackIndices (w : Word) : List Idx := (List.range 16).map fun k => w.extractLsb' (2 * k) 2

end Sys2Proof.Machine
end

