-- ==== Sys2Proof/Machine/Encoder.lean ====
section
/-! DEFINITION. The block encoder (42_block_encoder): the four strategies, refinement, the guard, the final ordering
and packing. Every function takes the engine's parameters (00_scope R9) and the block's 16 colours. -/

namespace Sys2Proof.Machine

open Sys2Proof

/-! ## Basic (R192, R193) -/

/-- The axis channel of pixel k. -/
def axisVal (p : List RGB) (k : Nat) : Int := (chan (px p k) (axis p) : Int)

/-- `kmin` of R192: the lowest pixel with the least value of the axis channel. -/
def kminBasic (p : List RGB) : Nat := argmin (axisVal p) 15

/-- `kmax` of R192. -/
def kmaxBasic (p : List RGB) : Nat := argmax (axisVal p) 15

/-- The candidate whose endpoints are the quantized colours a and b, its indices assigned (R193, R200, R223,
R235). -/
def candidateOf (P : Params) (cfg : EncCfg) (p : List RGB) (a b : RGB) : Candidate :=
  assign P.dither p (pack565 P.quant a) (pack565 P.quant b) cfg.useDither

/-- `basic(p, cfg)` (R193): c0 from the maximum, c1 from the minimum. -/
def basic (P : Params) (cfg : EncCfg) (p : List RGB) : Candidate :=
  candidateOf P cfg p (px p (kmaxBasic p)) (px p (kminBasic p))

/-! ## PCA (R194-R200) -/

/-- An integer vector over the channels. -/
structure Vec3 where
  r : Int
  g : Int
  b : Int
  deriving DecidableEq, Repr

/-- A component of a vector. -/
def comp (v : Vec3) : Chan → Int
  | .r => v.r
  | .g => v.g
  | .b => v.b

/-- A vector from its components. -/
def vecOf (f : Chan → Int) : Vec3 := ⟨f .r, f .g, f .b⟩

/-- `S[i][j] = 16 * Σ_k p[k].i * p[k].j - (Σ_k p[k].i) * (Σ_k p[k].j)` (R194). -/
def cov (p : List RGB) (i j : Chan) : Int :=
  16 * ((p.map fun c => chan c i * chan c j).sum : Nat)
    - ((p.map fun c => chan c i).sum : Nat) * ((p.map fun c => chan c j).sum : Nat)

/-- The flat test (R195). -/
def isFlat (P : Params) (p : List RGB) : Bool :=
  decide (cov p .r .r + cov p .g .g + cov p .b .b ≤ (P.flatThresh : Int))

/-- `bitlen(m)` for m ≥ 1 (R11). -/
def bitlen (m : Nat) : Nat := Nat.log2 m + 1

/-- The largest absolute component. -/
def maxAbs (x : Vec3) : Nat := max x.r.natAbs (max x.g.natAbs x.b.natAbs)

/-- The normalisation N (R197): `a asr s` is `floor(a / 2^s)` (R11), and Lean's integer division by a positive
number is that floor. -/
def normVec (x : Vec3) : Vec3 :=
  if maxAbs x = 0 then ⟨0, 0, 0⟩
  else
    let sh := bitlen (maxAbs x) - 15
    vecOf fun ch => comp x ch / (2 ^ sh : Int)

/-- The channel of the largest variance, `c*` (R196). -/
def startChan (p : List RGB) : Chan := argmaxChan fun ch => cov p ch ch

/-- The start vector (R196): the normalised column of S of `c*`. -/
def startVec (p : List RGB) : Vec3 := normVec (vecOf fun i => cov p i (startChan p))

/-- One power-iteration step: `w[i] <- Σ_j S[i][j] * v[j]`, then `v <- N(w)` (R198). -/
def powerStep (p : List RGB) (v : Vec3) : Vec3 :=
  normVec (vecOf fun i => cov p i .r * v.r + cov p i .g * v.g + cov p i .b * v.b)

/-- The power iteration, `none` when v becomes the zero vector (R198). -/
def powerIter (p : List RGB) : Nat → Vec3 → Option Vec3
  | 0, v => some v
  | n + 1, v =>
    let w := powerStep p v
    if w = ⟨0, 0, 0⟩ then none else powerIter p n w

/-- The projection `t[k]` (R199). -/
def project (p : List RGB) (v : Vec3) (k : Nat) : Int :=
  v.r * (px p k).r + v.g * (px p k).g + v.b * (px p k).b

/-! ## Refinement (R205, R206) -/

/-- The round-half-up mean of one channel over a non-empty list of colours (R205, R234). -/
def meanChan (cs : List RGB) (ch : Chan) : Nat :=
  (2 * (cs.map fun c => chan c ch).sum + cs.length) / (2 * cs.length)

/-- The round-half-up mean colour. -/
def meanColor (cs : List RGB) : RGB := rgbOf (meanChan cs)

/-- The colours of the pixels whose index is e: the set A_e of R205. -/
def selected (p : List RGB) (idx : List Idx) (e : Idx) : List RGB :=
  ((p.zip idx).filter fun x => x.2 == e).map Prod.fst

/-- The endpoint after a round: the mean of the pixels that select it, or the endpoint itself if none does
(R205). -/
def movedEndpoint (P : Params) (p : List RGB) (idx : List Idx) (e : Idx) (c : C565) : C565 :=
  let cs := selected p idx e
  if cs.isEmpty then c else pack565 P.quant (meanColor cs)

/-- One refinement round (R205). -/
def lloydRound (P : Params) (cfg : EncCfg) (p : List RGB) (c : Candidate) : Candidate :=
  assign P.dither p (movedEndpoint P p c.idx 0#2 c.c0) (movedEndpoint P p c.idx 1#2 c.c1) cfg.useDither

/-- The candidate kept: the new one only when its score is strictly lower (R206, R224). -/
def better (cfg : EncCfg) (p : List RGB) (new best : Candidate) : Candidate :=
  if score cfg.useMSE p new < score cfg.useMSE p best then new else best

/-- The refinement loop with `n` rounds left (R206). -/
def refineLoop (P : Params) (cfg : EncCfg) (p : List RGB) : Nat → Candidate → Candidate → Candidate
  | 0, _, best => best
  | n + 1, cur, best =>
    let new := lloydRound P cfg p cur
    let best' := better cfg p new best
    if new.idx = cur.idx then best' else refineLoop P cfg p n new best'

/-- `refine(p, cand, cfg)` (R206). -/
def refine (P : Params) (cfg : EncCfg) (p : List RGB) (c : Candidate) : Candidate :=
  refineLoop P cfg p P.refineRounds c c

/-- `guard(p, cand, bas)` (R210). -/
def guardBasic (p : List RGB) (cand bas : Candidate) : Candidate := if SSE p bas < SSE p cand then bas else cand

/-- The PCA candidate from its final vector (R199, R200). -/
def pcaFrom (P : Params) (cfg : EncCfg) (p : List RGB) (v : Vec3) : Candidate :=
  let cand := candidateOf P cfg p (px p (argmax (project p v) 15)) (px p (argmin (project p v) 15))
  if cfg.useRefine then guardBasic p (refine P cfg p cand) (basic P cfg p) else cand

/-- `pca(p, cfg)` (R200). -/
def pca (P : Params) (cfg : EncCfg) (p : List RGB) : Candidate :=
  if isFlat P p then basic P cfg p
  else
    match powerIter p P.pcaIters (startVec p) with
    | none => basic P cfg p
    | some v => pcaFrom P cfg p v

/-! ## Random (R220-R225) -/

/-- The 32-bit xorshift step (R221). -/
def xorshift32 (x : Word) : Word :=
  let x := x ^^^ (x <<< 13)
  let x := x ^^^ (x >>> 17)
  x ^^^ (x <<< 5)

/-- The generator of `P_RNG` (R221); one other than the default is a free function (log 5). -/
def rngStep (P : Params) (x : Word) : Word :=
  match P.rngStep with
  | .xorshift32 => xorshift32 x
  | .other n => Config.otherRng n x

/-- `s_k = L[RNG_SEED] XOR ((k * 0x9E3779B9) mod 2^32)`, replaced by 1 if it is 0 (R222). -/
def blockSeed (P : Params) (seed : Word) (k : Nat) : Word :=
  let s := seed ^^^ BitVec.ofNat 32 (k * P.rngMult.toNat)
  if s = 0#32 then 1#32 else s

/-- The candidate of a draw: `i = x[3:0]`, `j = x[7:4]` (R223). -/
def drawnCandidate (P : Params) (cfg : EncCfg) (p : List RGB) (x : Word) : Candidate :=
  candidateOf P cfg p (px p (x.extractLsb' 0 4).toNat) (px p (x.extractLsb' 4 4).toNat)

/-- The rounds of the Random strategy (R224). -/
def randomLoop (P : Params) (cfg : EncCfg) (p : List RGB) : Nat → Word → Candidate → Candidate
  | 0, _, best => best
  | n + 1, x, best =>
    let x' := rngStep P x
    randomLoop P cfg p n x' (better cfg p (drawnCandidate P cfg p x') best)

/-- `random(p, cfg, k)` (R224, R225). -/
def random (P : Params) (cfg : EncCfg) (p : List RGB) (k : Nat) : Candidate :=
  let best := randomLoop P cfg p cfg.iterations (blockSeed P cfg.rngSeed k) (basic P cfg p)
  if cfg.useRefine then refine P cfg p best else best

/-! ## Cluster (R230-R235) -/

/-- The two centres. -/
structure Centres where
  c0 : RGB
  c1 : RGB
  deriving DecidableEq, Repr

/-- `cen[e]`; a label is a Bool, `false` for 0 and `true` for 1. -/
def centre (c : Centres) (e : Bool) : RGB := if e then c.c1 else c.c0

/-- The assignment step (R231): a tie goes to centre 0. -/
def kmeansAssign (p : List RGB) (c : Centres) : List Bool := p.map fun x => decide (d2 x c.c1 < d2 x c.c0)

/-- Empty-cluster handling for label e (R233): `none` when the block is degenerate. -/
def reseed (p : List RGB) (c : Centres) (e : Bool) (lab : List Bool) : Option (List Bool) :=
  if lab.contains e then some lab
  else
    let far := fun k => (d2 (px p k) (centre c (!e)) : Int)
    let f := argmax far 15
    if far f = 0 then none else some (lab.set f e)

/-- The colours labelled e. -/
def labelled (p : List RGB) (lab : List Bool) (e : Bool) : List RGB :=
  ((p.zip lab).filter fun x => x.2 == e).map Prod.fst

/-- The update step (R234). -/
def kmeansUpdate (p : List RGB) (lab : List Bool) : Centres :=
  ⟨meanColor (labelled p lab false), meanColor (labelled p lab true)⟩

/-- The k-means loop with `n` iterations left (R232, R233, R235); `none` falls back to Basic. -/
def kmeansLoop (p : List RGB) : Nat → Centres → Option (List Bool) → Option Centres
  | 0, c, _ => some c
  | n + 1, c, lab =>
    let nl := kmeansAssign p c
    if some nl = lab then some c
    else
      match reseed p c false nl with
      | none => none
      | some l0 =>
        match reseed p c true l0 with
        | none => none
        | some l1 => kmeansLoop p n (kmeansUpdate p l1) (some l1)

/-- `cluster(p, cfg)` (R235), its centres starting at the Basic extremes (R230). -/
def cluster (P : Params) (cfg : EncCfg) (p : List RGB) : Candidate :=
  match kmeansLoop p P.kmeansIters ⟨px p (kminBasic p), px p (kmaxBasic p)⟩ none with
  | none => basic P cfg p
  | some c => guardBasic p (candidateOf P cfg p c.c0 c.c1) (basic P cfg p)

/-! ## Final ordering and packing (R190, R240, R241) -/

/-- `normalize(c0, c1, idx)` (R240). -/
def normalize (c : Candidate) : Candidate :=
  if c.c0 < c.c1 then ⟨c.c1, c.c0, c.idx.map fun i => i ^^^ 1#2⟩
  else if c.c0 = c.c1 then ⟨c.c0, c.c1, c.idx.map fun _ => 0#2⟩
  else c

/-- The strategy selected by METHOD (R190). -/
def strategy (P : Params) (cfg : EncCfg) (p : List RGB) (k : Nat) : Candidate :=
  match cfg.method with
  | .basic => basic P cfg p
  | .pca => pca P cfg p
  | .random => random P cfg p k
  | .cluster => cluster P cfg p

/-- The emitted block: `(c0, c1, indices, err)` of R190. -/
structure Encoded where
  c0      : C565
  c1      : C565
  indices : Word
  err     : Nat
  deriving DecidableEq, Repr

/-- The candidate that is emitted: the strategy's, normalised (R190, R241). -/
def emitted (P : Params) (cfg : EncCfg) (p : List RGB) (k : Nat) : Candidate := normalize (strategy P cfg p k)

/-- `encodeBlock(p, cfg, k)` (R190); alpha is dropped first (R152). -/
def encodeBlock (P : Params) (cfg : EncCfg) (p : Block16) (k : Nat) : Encoded :=
  let c := emitted P cfg (colors p) k
  ⟨c.c0, c.c1, BitVec.ofNat 32 (packIndices c.idx), SSE (colors p) c⟩

end Sys2Proof.Machine
end

