-- ==== Sys2Proof/Machine/Block.lean ====
section
/-! DEFINITION. The single-block commands: DEC_BLOCK (41_block_decoder R170-R173) and ENC_BLOCK (42_block_encoder
R242), with the layouts of Block16 and CompressedBlock (20_memory R69, R70). -/

namespace Sys2Proof.Machine

open Sys2Proof

/-- `decodeBlock(color0, color1, indices)` (R170), alpha always 255 (R173). -/
def decodeBlock (c0 c1 : C565) (indices : Word) : Block16 :=
  (unpackIndices indices).map fun i =>
    let e := (palette c0 c1).entry i
    ⟨e.r, e.g, e.b, 255⟩

/-- The pixel whose four bytes stand at a, in the channel order R, G, B, A (R68, R69). -/
def State.readPixel (s : State) (a : Nat) : RGBA :=
  ⟨s.memRead a 1, s.memRead (a + 1) 1, s.memRead (a + 2) 1, s.memRead (a + 3) 1⟩

/-- The four bytes of a pixel at a (R68). -/
def pixelCells (a : Nat) (q : RGBA) : List Host.Cell :=
  cellsLE a 1 q.r ++ cellsLE (a + 1) 1 q.g ++ cellsLE (a + 2) 1 q.b ++ cellsLE (a + 3) 1 q.a

/-- The Block16 at a (R69). -/
def State.readBlock (s : State) (a : Nat) : Block16 := (List.range 16).map fun k => s.readPixel (a + 4 * k)

/-- The 64 bytes of a Block16 at a (R69). -/
def blockCells (a : Nat) (q : Block16) : List Host.Cell :=
  (List.range 16).flatMap fun k => pixelCells (a + 4 * k) (q.getD k default)

/-- The CompressedBlock at a, decoded (R70, R170). -/
def State.readDecoded (s : State) (a : Nat) : Block16 :=
  decodeBlock (BitVec.ofNat 16 (s.memRead a 2)) (BitVec.ofNat 16 (s.memRead (a + 2) 2))
    (BitVec.ofNat 32 (s.memRead (a + 4) 4))

/-- The 8 bytes of a CompressedBlock at a (R70). -/
def compressedCells (a : Nat) (e : Encoded) : List Host.Cell :=
  cellsLE a 2 e.c0.toNat ++ cellsLE (a + 2) 2 e.c1.toNat ++ cellsLE (a + 4) 4 e.indices.toNat

/-- What DEC_BLOCK does once its checks pass (R171). -/
def jobDecBlock (s : State) : Job :=
  let o := s.latch.ops
  { dst     := dstSpan .decBlock o
    touched := [srcSpan .decBlock o, dstSpan .decBlock o]
    cells   := blockCells o.dst (s.readDecoded o.src)
    results := [] }

/-- DEC_BLOCK (R171). -/
def execDecBlock (s : State) : Out := s.runCommand (preError .decBlock s.latch.ops) (jobDecBlock s)

/-- What ENC_BLOCK does once its checks pass (R242); the block's linear index is 0 (R190). -/
def jobEncBlock (m : Method) (mse dither refine : Bool) (s : State) : Job :=
  let o := s.latch.ops
  let i := Instr.encBlock m mse dither refine
  let e := encodeBlock s.params (encCfg m mse dither refine o) (s.readBlock o.src) 0
  { dst     := dstSpan i o
    touched := [srcSpan i o, dstSpan i o]
    cells   := compressedCells o.dst e
    results := [(.sse, BitVec.ofNat 32 e.err), (.colors, e.c1 ++ e.c0), (.indices, e.indices)] }

/-- ENC_BLOCK (R242). -/
def execEncBlock (m : Method) (mse dither refine : Bool) (s : State) : Out :=
  s.runCommand (preError (.encBlock m mse dither refine) s.latch.ops) (jobEncBlock m mse dither refine s)

end Sys2Proof.Machine
end

