-- ==== Sys2Proof/Machine/Tile.lean ====
section
/-! DEFINITION. The image tiler (43_image_tiler R260-R265): block extraction with padding, placement with cropping,
TILE_GET and TILE_PUT. -/

namespace Sys2Proof.Machine

open Sys2Proof

/-- The column of pixel k of block column bx in the padded image (R260). -/
def pixX (bx k : Nat) : Nat := 4 * bx + k % 4

/-- The row of pixel k of block row by in the padded image (R260). -/
def pixY (by' k : Nat) : Nat := 4 * by' + k / 4

/-- The address of pixel (x, y) of an image of width W at A (R68). -/
def pixelAddr (A W x y : Nat) : Nat := A + 4 * (y * W + x)

/-- The pixels of a block that lie inside the image (R261, R263). -/
def insidePixels (W H bx by' : Nat) : List Nat :=
  (List.range 16).filter fun k => decide (pixX bx k < W ∧ pixY by' k < H)

/-- `extract(A, W, H, bx, by)` (R262): padding pixels are (0, 0, 0, 0) (R261). -/
def State.extract (s : State) (A W H bx by' : Nat) : Block16 :=
  (List.range 16).map fun k =>
    if pixX bx k < W ∧ pixY by' k < H then s.readPixel (pixelAddr A W (pixX bx k) (pixY by' k)) else ⟨0, 0, 0, 0⟩

/-- `place(A, W, H, bx, by, q)` (R263): the bytes it writes; pixels in the padding are dropped. -/
def placeCells (A W H bx by' : Nat) (q : Block16) : List Host.Cell :=
  (insidePixels W H bx by').flatMap fun k =>
    pixelCells (pixelAddr A W (pixX bx k) (pixY by' k)) (q.getD k default)

/-- The image bytes of a block: the only ones of the image a tile command accesses (R73). -/
def insideSpans (A W H bx by' : Nat) : List Span :=
  (insidePixels W H bx by').map fun k => ⟨pixelAddr A W (pixX bx k) (pixY by' k), 4⟩

/-- What TILE_GET does once its checks pass (R264). -/
def jobTileGet (s : State) : Job :=
  let o := s.latch.ops
  { dst     := dstSpan .tileGet o
    touched := insideSpans o.src o.W o.H o.blockX.toNat o.blockY.toNat ++ [dstSpan .tileGet o]
    cells   := blockCells o.dst (s.extract o.src o.W o.H o.blockX.toNat o.blockY.toNat)
    results := [] }

/-- TILE_GET (R264). -/
def execTileGet (s : State) : Out := s.runCommand (preError .tileGet s.latch.ops) (jobTileGet s)

/-- What TILE_PUT does once its checks pass (R265). -/
def jobTilePut (s : State) : Job :=
  let o := s.latch.ops
  { dst     := dstSpan .tilePut o
    touched := srcSpan .tilePut o :: insideSpans o.dst o.W o.H o.blockX.toNat o.blockY.toNat
    cells   := placeCells o.dst o.W o.H o.blockX.toNat o.blockY.toNat (s.readBlock o.src)
    results := [] }

/-- TILE_PUT (R265). -/
def execTilePut (s : State) : Out := s.runCommand (preError .tilePut s.latch.ops) (jobTilePut s)

end Sys2Proof.Machine
end

