-- ==== Sys2Proof/Machine/Image.lean ====
section
/-! DEFINITION. The whole-image commands ENC_IMAGE and DEC_IMAGE (43_image_tiler R270, R271). -/

namespace Sys2Proof.Machine

open Sys2Proof

/-- The linear block indices of an image, in row-major block order (R260). -/
def blockIndices (o : Operands) : List Nat := List.range (o.BW * o.BH)

/-- Block column of linear index `k = by*BW + bx` (R260). -/
def blockCol (o : Operands) (k : Nat) : Nat := k % o.BW

/-- Block row of linear index `k = by*BW + bx` (R260). -/
def blockRow (o : Operands) (k : Nat) : Nat := k / o.BW

/-- The encoding of block k of the image at SRC (R270). -/
def State.encodeImageBlock (s : State) (cfg : EncCfg) (k : Nat) : Encoded :=
  let o := s.latch.ops
  encodeBlock s.params cfg (s.extract o.src o.W o.H (blockCol o k) (blockRow o k)) k

/-- The payload of an encoded image at A: block k at A + 8k (R71, R270). -/
def payloadCells (A : Nat) (es : List Encoded) : List Host.Cell :=
  es.zipIdx.flatMap fun x => compressedCells (A + 8 * x.2) x.1

/-- RES_SSE of an image: the sum of the block errors, saturated (R34, R270). -/
def totalErr (es : List Encoded) : Nat := min (es.map Encoded.err).sum 0xFFFFFFFF

/-- RES_BW, RES_BH and RES_PAYLOAD_SIZE from the latched dimensions (R39-R41). -/
def gridResults (o : Operands) : ResultWrites :=
  [(.bw, BitVec.ofNat 32 o.BW), (.bh, BitVec.ofNat 32 o.BH), (.payloadSize, BitVec.ofNat 32 o.payloadSize)]

/-- What ENC_IMAGE does once its checks pass (R270). -/
def jobEncImage (m : Method) (mse dither refine : Bool) (s : State) : Job :=
  let o := s.latch.ops
  let i := Instr.encImage m mse dither refine
  let es := (blockIndices o).map (s.encodeImageBlock (encCfg m mse dither refine o))
  { dst     := dstSpan i o
    touched := [srcSpan i o, dstSpan i o]
    cells   := payloadCells o.dst es
    results := (.sse, BitVec.ofNat 32 (totalErr es)) :: gridResults o }

/-- ENC_IMAGE (R270). -/
def execEncImage (m : Method) (mse dither refine : Bool) (s : State) : Out :=
  s.runCommand (preError (.encImage m mse dither refine) s.latch.ops) (jobEncImage m mse dither refine s)

/-- The image bytes that block k of the payload decodes to (R271). -/
def State.decodedBlockCells (s : State) (k : Nat) : List Host.Cell :=
  let o := s.latch.ops
  placeCells o.dst o.W o.H (blockCol o k) (blockRow o k) (s.readDecoded (o.src + 8 * k))

/-- What DEC_IMAGE does once its checks pass (R271). -/
def jobDecImage (s : State) : Job :=
  let o := s.latch.ops
  { dst     := dstSpan .decImage o
    touched := [srcSpan .decImage o, dstSpan .decImage o]
    cells   := (blockIndices o).flatMap s.decodedBlockCells
    results := gridResults o }

/-- DEC_IMAGE (R271). -/
def execDecImage (s : State) : Out := s.runCommand (preError .decImage s.latch.ops) (jobDecImage s)

end Sys2Proof.Machine
end

