-- ==== Sys2Proof/Machine/Dds.lean ====
section
/-! DEFINITION. The DDS header commands DDS_WRITE_HDR and DDS_PARSE_HDR (44_dds_container R300-R312). -/

namespace Sys2Proof.Machine

open Sys2Proof

/-- "DDS " (R300). -/
def ddsMagic : Nat := 0x20534444

/-- "DXT1" (R300). -/
def ddsFourcc : Nat := 0x31545844

/-- CAPS | HEIGHT | WIDTH | PIXELFORMAT | LINEARSIZE (R301). -/
def ddsFlags : Nat := 0x1 ||| 0x2 ||| 0x4 ||| 0x1000 ||| 0x80000

/-- The 32 words of the header of a W×H texture (R300); pitchOrLinearSize is computed (R302). -/
def headerWords (o : Operands) : List Nat :=
  [ddsMagic, 124, ddsFlags, o.H, o.W, o.payloadSize, 0, 0,
   0, 0, 0, 0, 0, 0, 0, 0, 0, 0, 0,
   32, 0x00000004, ddsFourcc, 0, 0, 0, 0, 0,
   0x00001000, 0, 0, 0, 0]

/-- The 128 bytes of the header at A (R303). -/
def headerCells (A : Nat) (o : Operands) : List Host.Cell :=
  (headerWords o).zipIdx.flatMap fun x => cellsLE (A + 4 * x.2) 4 x.1

/-- What DDS_WRITE_HDR does once its checks pass (R303). -/
def jobDdsWriteHdr (s : State) : Job :=
  let o := s.latch.ops
  { dst     := dstSpan .ddsWriteHdr o
    touched := [dstSpan .ddsWriteHdr o]
    cells   := headerCells o.dst o
    results := gridResults o }

/-- DDS_WRITE_HDR (R303). -/
def execDdsWriteHdr (s : State) : Out := s.runCommand (preError .ddsWriteHdr s.latch.ops) (jobDdsWriteHdr s)

/-- `MemRead(L[SRC_ADDR] + off, 4)`: a bus error if the platform faults it (R371); a free value if the host wrote
the source range meanwhile (R86). -/
def State.headerWord (s : State) (off : Nat) : Except ErrCode Nat :=
  let a := s.latch.ops.src + off
  if s.platform.faults [⟨a, 4⟩] then .error .busError
  else .ok (if s.race.src then (Config.freeWord (s.free + off)).toNat else s.memRead a 4)

/-- The result registers of a parsed header (R310, R37-R42). -/
def parsedResults (o : Operands) (w h : Nat) : ResultWrites :=
  [(.width, BitVec.ofNat 32 w), (.height, BitVec.ofNat 32 h), (.bw, BitVec.ofNat 32 (blocksOf w)),
   (.bh, BitVec.ofNat 32 (blocksOf h)), (.payloadSize, BitVec.ofNat 32 (blocksOf w * blocksOf h * 8)),
   (.payloadAddr, BitVec.ofNat 32 (o.src + 128))]

/-- The checks on the dimensions a header declares (R310), in order (R311). -/
def dimensionChecks (o : Operands) (w h : Nat) : List Check :=
  let size := blocksOf w * blocksOf h * 8
  [(decide (w = 0 ∨ h = 0), .invalidDimensions),
   (decide (128 + size > o.srcLen.toNat), .formatTruncated),
   checkRange ⟨o.src, 128 + size⟩]

/-- The header after the length and range checks: magic, fourCC, height, width, then the dimension checks, one at
a time (R310, R311), reading only what the checks before need (R370). No other field is looked at (R312). -/
def State.parseHeader (s : State) : Except ErrCode ResultWrites :=
  match s.headerWord 0 with
  | .error e => .error e
  | .ok magic =>
    if magic ≠ ddsMagic then .error .formatMagic
    else
      match s.headerWord 84 with
      | .error e => .error e
      | .ok fourcc =>
        if fourcc ≠ ddsFourcc then .error .formatFourcc
        else
          match s.headerWord 12 with
          | .error e => .error e
          | .ok h =>
            match s.headerWord 16 with
            | .error e => .error e
            | .ok w =>
              match firstFailure (dimensionChecks s.latch.ops w h) with
              | some e => .error e
              | none => .ok (parsedResults s.latch.ops w h)

/-- After a race on its source (R86) the words read were free values, 128 of them set aside. -/
def State.spendHeader (s : State) : State := if s.race.src then { s with free := s.free + 128 } else s

/-- The end of DDS_PARSE_HDR: it writes no memory; after a race on its source the result registers are free values
too (R86). -/
def State.finishParse (s : State) (r : Except ErrCode ResultWrites) : State :=
  match r with
  | .error e => s.spendHeader.raiseError e
  | .ok ws =>
    if s.race.src then
      let t := s.spendHeader
      { t with free := t.free + ws.length }.complete (anyResults ws t.free)
    else s.complete ws

/-- DDS_PARSE_HDR (R310). -/
def execDdsParseHdr (s : State) : Out :=
  match preError .ddsParseHdr s.latch.ops with
  | some e => .next (s.failCheck e)
  | none => .next (s.finishParse s.parseHeader)

end Sys2Proof.Machine
end

