-- ==== Sys2Proof/Machine/Control.lean ====
section
/-! DEFINITION. Control (45_control, 70_reset_and_hazards): the NOP command, the register window with the effect of
every register access (R341), and both resets (R342, R343, R400-R402). -/

namespace Sys2Proof.Machine

open Sys2Proof

/-- NOP (R340): "a command that does nothing but complete". -/
def execNop (s : State) : Out :=
  s.runCommand (preError .nop s.latch.ops) { dst := ⟨0, 0⟩, touched := [], cells := [], results := [] }

/-! ## Reset -/

/-- The addresses of the running command's destination range; none when no command runs (R343, log 9). -/
def State.runningDst (s : State) : List Nat :=
  if s.status.busy then
    match commandSpans s.latch.cmd s.latch.ops with
    | some (_, d) => d.addrs
    | none => []
  else []

/-- Either reset (R400): every register at its value of R401, the latches and the working state discarded (R342),
memory unchanged (R402) but for the running command's destination range, whose bytes are any value (R343). -/
def State.resetEngine (s : State) : State :=
  let t := s.anyBytes s.runningDst
  { t with irqEn := false, status := {}, cmd := 0#32, ops := {}, res := {}, latch := {}, race := {} }

/-! ## The register window (the map of R20) -/

/-- The register at an offset; `none` for a reserved one. -/
def regAt (off : Nat) : Option Reg :=
  match off with
  | 0x000 => some .id
  | 0x004 => some .ctrl
  | 0x008 => some .status
  | 0x00C => some .cmd
  | 0x010 => some (.operand .srcAddr)
  | 0x014 => some (.operand .dstAddr)
  | 0x018 => some (.operand .width)
  | 0x01C => some (.operand .height)
  | 0x020 => some (.operand .blockX)
  | 0x024 => some (.operand .blockY)
  | 0x028 => some (.operand .iterations)
  | 0x02C => some (.operand .rngSeed)
  | 0x030 => some (.operand .srcLen)
  | 0x040 => some (.result .sse)
  | 0x044 => some (.result .colors)
  | 0x048 => some (.result .indices)
  | 0x04C => some (.result .width)
  | 0x050 => some (.result .height)
  | 0x054 => some (.result .bw)
  | 0x058 => some (.result .bh)
  | 0x05C => some (.result .payloadSize)
  | 0x060 => some (.result .payloadAddr)
  | _ => none

/-- The offset of a register (the map of R20). -/
def Reg.offset : Reg → Nat
  | .id => 0x000
  | .ctrl => 0x004
  | .status => 0x008
  | .cmd => 0x00C
  | .operand .srcAddr => 0x010
  | .operand .dstAddr => 0x014
  | .operand .width => 0x018
  | .operand .height => 0x01C
  | .operand .blockX => 0x020
  | .operand .blockY => 0x024
  | .operand .iterations => 0x028
  | .operand .rngSeed => 0x02C
  | .operand .srcLen => 0x030
  | .result .sse => 0x040
  | .result .colors => 0x044
  | .result .indices => 0x048
  | .result .width => 0x04C
  | .result .height => 0x050
  | .result .bw => 0x054
  | .result .bh => 0x058
  | .result .payloadSize => 0x05C
  | .result .payloadAddr => 0x060

/-- Reading an operand register. -/
def Operands.get (o : Operands) : OpReg → Word
  | .srcAddr => o.srcAddr
  | .dstAddr => o.dstAddr
  | .width => o.width
  | .height => o.height
  | .blockX => o.blockX
  | .blockY => o.blockY
  | .iterations => o.iterations
  | .rngSeed => o.rngSeed
  | .srcLen => o.srcLen

/-- Writing an operand register, which only the host does (R47). -/
def Operands.set (o : Operands) (v : Word) : OpReg → Operands
  | .srcAddr => { o with srcAddr := v }
  | .dstAddr => { o with dstAddr := v }
  | .width => { o with width := v }
  | .height => { o with height := v }
  | .blockX => { o with blockX := v }
  | .blockY => { o with blockY := v }
  | .iterations => { o with iterations := v }
  | .rngSeed => { o with rngSeed := v }
  | .srcLen => { o with srcLen := v }

/-- "Returns the current value; no side effect" (R341). -/
def State.readReg (s : State) : Reg → Word
  | .id => Config.idValue
  | .ctrl => ctrlWord s.irqEn
  | .status => s.status.word
  | .cmd => s.cmd
  | .operand r => s.ops.get r
  | .result r => s.res.get r

/-- A host write of CMD (R24, R341): dropped with OVR set while a command runs, else accepted (R43), unless the
command's buffers lie on a device, which R66 has a model refuse. -/
def State.writeCmd (s : State) (w : Word) : Out :=
  if s.status.busy then .next { s with status := s.status.dropped }
  else
    match accessedSpans w s.ops with
    | some (x, y) => if s.platform.onDevice [x, y] then .refused .bufferOnDevice else .next (s.accept w)
    | none => .next (s.accept w)

/-- A host write of CTRL (R22): bit 1 resets the engine, else bit 0 is IRQ_EN. -/
def State.writeCtrl (s : State) (w : Word) : State :=
  if w.getLsbD 1 then s.resetEngine else { s with irqEn := w.getLsbD 0 }

/-- The effect of a host write of a register (R341). -/
def State.writeReg (s : State) (r : Reg) (w : Word) : Out :=
  match r with
  | .id => .next s
  | .ctrl => .next (s.writeCtrl w)
  | .status => .next { s with status := s.status.hostWrite w }
  | .cmd => s.writeCmd w
  | .operand r => .next { s with ops := s.ops.set w r }
  | .result _ => .next s

end Sys2Proof.Machine
end

