-- ==== Sys2Proof/Machine/Dispatch.lean ====
section
/-! DEFINITION. One arm for each command (30_encoding R106). -/

namespace Sys2Proof.Machine

open Sys2Proof

def exec (i : Instr) (s : State) : Host.Outcome State Fault Refusal :=
  match i with
  | .nop => Sys2Proof.Machine.execNop s
  | .decBlock => Sys2Proof.Machine.execDecBlock s
  | .encBlock method mse dither refine => Sys2Proof.Machine.execEncBlock method mse dither refine s
  | .tileGet => Sys2Proof.Machine.execTileGet s
  | .tilePut => Sys2Proof.Machine.execTilePut s
  | .encImage method mse dither refine => Sys2Proof.Machine.execEncImage method mse dither refine s
  | .decImage => Sys2Proof.Machine.execDecImage s
  | .ddsWriteHdr => Sys2Proof.Machine.execDdsWriteHdr s
  | .ddsParseHdr => Sys2Proof.Machine.execDdsParseHdr s

end Sys2Proof.Machine
end

