-- ==== Sys2Proof/Machine/Host.lean ====
section
/-! DEFINITION. The host's accesses (20_memory R83-R86, 45_control R341): register accesses through the window at
`REG_BASE`, memory accesses with the races of R86, and a host access in the same step as a completion
(60_exceptions R378). -/

namespace Sys2Proof.Machine

open Sys2Proof

/-- The byte offset in the window of a host bus address (R20). -/
def regOffset (P : Params) (addr : Word) : Nat := (addr - P.regBase).toNat

/-- Whether a register access is inside the interface (R20): in the window, 32 bits wide and naturally aligned. -/
def regAccessRefusal (P : Params) (addr : Word) (size : Nat) : Option Refusal :=
  if regOffset P addr ≥ Config.regWindow then some .outsideWindow
  else if size ≠ 4 ∨ regOffset P addr % 4 ≠ 0 then some .registerAccessShape
  else none

/-- The value of the register at a host bus address; a reserved offset reads 0 (R20). -/
def State.windowRead (s : State) (addr : Word) : Word :=
  match regAt (regOffset s.params addr) with
  | some r => s.readReg r
  | none => 0#32

/-- A host register read (R341). -/
def State.hostRegRead (s : State) (addr : Word) (size : Nat) : Out :=
  match regAccessRefusal s.params addr size with
  | some r => .refused r
  | none => .next { s with rdata := s.windowRead addr }

/-- A host register write (R341); a reserved offset ignores it (R20). -/
def State.hostRegWrite (s : State) (addr : Word) (size : Nat) (w : Word) : Out :=
  match regAccessRefusal s.params addr size with
  | some r => .refused r
  | none =>
    match regAt (regOffset s.params addr) with
    | some r => s.writeReg r w
    | none => .next s

/-- The address lies in the running command's source range. -/
def State.inRunningSrc (s : State) (a : Nat) : Bool :=
  s.status.busy &&
    match commandSpans s.latch.cmd s.latch.ops with
    | some (x, _) => x.holds a
    | none => false

/-- The address lies in the running command's destination range. -/
def State.inRunningDst (s : State) (a : Nat) : Bool :=
  s.status.busy &&
    match commandSpans s.latch.cmd s.latch.ops with
    | some (_, y) => y.holds a
    | none => false

/-- A set of addresses as a strictly rising list, with one more. -/
def insertAddr (a : Nat) : List Nat → List Nat
  | [] => [a]
  | b :: bs => if a < b then a :: b :: bs else if a = b then b :: bs else b :: insertAddr a bs

/-- Whether the platform lets the host at a memory address (log 17). -/
def State.hostMemStop (s : State) (a : Word) : Option Out :=
  if s.platform.onDevice [⟨a.toNat, 1⟩] then some (.refused .hostDeviceAccess)
  else if s.platform.faults [⟨a.toNat, 1⟩] then some (.fault (.unbackedHostAccess a))
  else none

/-- A host read of a memory byte: "a host read of a destination byte before completion returns any value" (R86),
else the byte (R83). -/
def State.hostMemRead (s : State) (a : Word) : Out :=
  match s.hostMemStop a with
  | some o => o
  | none =>
    if s.inRunningDst a.toNat then
      .next { s with rdata := (Config.freeByte s.free).setWidth 32, free := s.free + 1 }
    else .next { s with rdata := (s.readByte a.toNat).setWidth 32 }

/-- A host write of a memory byte (R83). Inside the running command's ranges it races the engine (R86): a source
byte is written and the command's results will be any value; a destination byte is any value after completion. -/
def State.hostMemWrite (s : State) (a : Word) (v : Byte) : Out :=
  match s.hostMemStop a with
  | some o => o
  | none =>
    if s.inRunningDst a.toNat then
      .next { s with race := { s.race with dst := insertAddr a.toNat s.race.dst } }
    else if s.inRunningSrc a.toNat then
      .next { s.store [(a.toNat, v)] with race := { s.race with src := true } }
    else .next (s.store [(a.toNat, v)])

/-- One access of the host. -/
def hostStep (op : HostOp) (s : State) : Out :=
  match op with
  | .regRead addr size => s.hostRegRead addr size
  | .regWrite addr size w => s.hostRegWrite addr size w
  | .memRead a => s.hostMemRead a
  | .memWrite a v => s.hostMemWrite a v

/-- The value a register read in the same step as a completion returns: the one before or the one after it, as the
two are ordered by the interleaving (R414, U19); a free bit decides (log 12). `t` is the state after both. -/
def State.sameStepRead (t : State) (op : HostOp) : State :=
  match op with
  | .regRead addr _ =>
    { t with rdata := if Config.freeBit t.free then t.windowRead addr else t.rdata, free := t.free + 1 }
  | .regWrite _ _ _ => t
  | .memRead _ => t
  | .memWrite _ _ => t

end Sys2Proof.Machine
end

