-- ==== Sys2Proof/Machine/Step.lean ====
section
/-! DEFINITION. One atomic step of the machine (70_reset_and_hazards R415): the next pending turn, or the engine's
own step when none is pending. -/

namespace Sys2Proof.Machine

open Sys2Proof

/-- The engine's step: the running command, latched as L[CMD], ends (log 3); an illegal word ends with
ILLEGAL_COMMAND (R364); an idle engine waits for a CMD write (R401). -/
def engineStep (s : State) : Host.Outcome State Fault Refusal :=
  if s.status.busy then
    match decode s.latch.cmd with
    | .ok i => exec i s
    | .error _ => s.illegal
  else .next s

/-- A host access and the engine's completion in one step (R378). The access sees BUSY = 1, so a CMD write is
dropped; the engine's sets come after, so they win over a clear; a soft reset leaves the engine idle, so it wins
over the completion. With no command running there is no completion, and the access stands alone. -/
def togetherStep (op : HostOp) (s : State) : Host.Outcome State Fault Refusal :=
  if s.status.busy then
    Out.andThen (hostStep op s) fun s1 => Out.andThen (engineStep s1) fun s2 => .next (s2.sameStepRead op)
  else hostStep op s

/-- One step. -/
def step (s : State) : Host.Outcome State Fault Refusal :=
  match s.turns with
  | [] => engineStep s
  | .engine :: ts => engineStep { s with turns := ts }
  | .host op :: ts => hostStep op { s with turns := ts }
  | .together op :: ts => togetherStep op { s with turns := ts }
  | .powerOn :: ts => .next { s with turns := ts }.resetEngine

/-- s with the command word w accepted and nothing else pending, so that the next step runs it (log 2): L[CMD] is
where the engine takes its command from, and acceptance (R43, R44) is what puts it there. -/
def State.withFetchWord (s : State) (nbits w : Nat) : State :=
  { s.accept (BitVec.ofNat 32 (w % 2 ^ nbits)) with turns := [] }

end Sys2Proof.Machine
end

