-- ==== Sys2Proof/Machine/Program.lean ====
section
/-! DEFINITION. Host programs as lists of turns: the lines of 30_encoding R111 and the expansions of R112. A `wait` is
the engine's turn and then one read of STATUS: under the fairness of R415 the polling loop ends after some turn of
the engine, and the reads before it change nothing. -/

namespace Sys2Proof.Machine

open Sys2Proof

/-- `wr NAME, v` (R111), to the window at `REG_BASE`. -/
def wr (P : Params) (r : Reg) (v : Word) : Turn := .host (.regWrite (P.regBase + BitVec.ofNat 32 r.offset) 4 v)

/-- `rd NAME -> t` (R111); the value comes back in `rdata`. -/
def rd (P : Params) (r : Reg) : Turn := .host (.regRead (P.regBase + BitVec.ofNat 32 r.offset) 4)

/-- `cmd C` = `wr CMD, enc(C)` (R111). -/
def cmdLine (P : Params) (i : Instr) : Turn := wr P .cmd (encode i)

/-- `mem A: b0 b1 ...` (R111). DESIGN CHOICE (log 19): a byte whose address would pass 0xFFFFFFFF goes to that address
modulo 2^32; the spec says nothing of such a line. -/
def memLine (A : Word) (bs : List Byte) : List Turn :=
  bs.zipIdx.map fun x => .host (.memWrite (A + BitVec.ofNat 32 x.2) x.1)

/-- `wait` (R112). -/
def waitLines (P : Params) : List Turn := [.engine, rd P .status]

/-- `run C` = `cmd C` then `wait` (R112). -/
def runLines (P : Params) (i : Instr) : List Turn := cmdLine P i :: waitLines P

/-- `clear` (R112). -/
def clearLine (P : Params) : Turn := wr P .status 0x0000000E#32

/-- `soft_reset` (R112). -/
def softResetLine (P : Params) : Turn := wr P .ctrl 0x00000002#32

/-- `serialize_dds A, img, W, H, C` (R112). DESIGN CHOICE (log 19): when A + 128 reaches 2^32 the value written to
DST_ADDR is A + 128 modulo 2^32; the spec does not say which 32-bit value the host writes. -/
def serializeDds (P : Params) (A img W H : Word) (C : Instr) : List Turn :=
  [wr P (.operand .width) W, wr P (.operand .height) H, wr P (.operand .dstAddr) A] ++ runLines P .ddsWriteHdr ++
  [wr P (.operand .srcAddr) img, wr P (.operand .dstAddr) (A + 128#32)] ++ runLines P C

/-- The first part of `parse_decode F, out` (R112): up to the test of STATUS.ERR. -/
def parseDds (P : Params) (F n : Word) : List Turn :=
  [wr P (.operand .srcAddr) F, wr P (.operand .srcLen) n] ++ runLines P .ddsParseHdr

/-- The second part of `parse_decode F, out` (R112), when ERR = 0: the host has the three values it reads. -/
def decodeParsed (P : Params) (w h p out : Word) : List Turn :=
  [rd P (.result .width), rd P (.result .height), rd P (.result .payloadAddr),
   wr P (.operand .width) w, wr P (.operand .height) h, wr P (.operand .srcAddr) p, wr P (.operand .dstAddr) out] ++
  runLines P .decImage

end Sys2Proof.Machine
end

