-- ==== Sys2Proof/Safety.lean ====
section
/-! DEFINITION. What counts as a good state and a good run, in the terms the statements use: the invariant that
every step keeps, the host's duties (20_memory R84), and a run in which nothing was left open. -/

namespace Sys2Proof.Machine

open Sys2Proof

/-- STATUS as the rules leave it: a running command shows no completion (R43); ERRCODE is 0 unless ERR is set, and
then one of the codes of R360 (R23: "0x00 = none or cleared"; U16). -/
def Status.legal (f : Status) : Bool :=
  (!f.busy || (!f.done && !f.err)) &&
  (if f.err then decide (1 ≤ f.errCode.toNat ∧ f.errCode.toNat ≤ 9) else f.errCode == 0x00#8)

/-- The latches and the race record exist only while BUSY = 1 (R49); a running command's latched word is the one
CMD shows, since no other word was accepted (R24, R44). -/
def State.hiddenLegal (s : State) : Bool :=
  if s.status.busy then s.latch.cmd == s.cmd else s.latch == {} && s.race == {}

/-- The destination bytes the race record lists lie in the running command's destination range (R86). -/
def State.raceLegal (s : State) : Bool := s.race.dst.all s.inRunningDst

/-- The invariant: memory in its canonical form, STATUS legal, hidden state only while a command runs. -/
def State.Inv (s : State) : Bool :=
  Memory.wf s.mem && s.status.legal && s.hiddenLegal && s.raceLegal

/-- The host has kept the duties of R84 so far: it raced nothing. -/
def State.dutiesKept (s : State) : Bool := s.race == {}

/-! ## The terms of the statements -/

/-- The platform backs a byte address with storage (R61). -/
def State.backed (s : State) (a : Nat) : Bool := !s.platform.unbacked.any fun u => u.holds a

/-- Every byte of a range is backed. -/
def State.backedSpan (s : State) (x : Span) : Prop := ∀ a, x.holds a = true → s.backed a = true

/-- Two ranges inside the address space that share no byte (R366, R367). -/
def rangesOk (x y : Span) : Prop :=
  x.base + x.len ≤ 2 ^ 32 ∧ y.base + y.len ≤ 2 ^ 32 ∧ (x.base + x.len ≤ y.base ∨ y.base + y.len ≤ x.base)

/-- The commands that place or cut one block of an image (R264, R265). -/
def isTile (i : Instr) : Prop := i = .tileGet ∨ i = .tilePut

/-- The commands that take the dimensions of an image from WIDTH and HEIGHT (R362). -/
def takesDims (i : Instr) : Prop :=
  isTile i ∨ (∃ m e d r, i = .encImage m e d r) ∨ i = .decImage ∨ i = .ddsWriteHdr

/-- INVALID_DIMENSIONS is due (R362): a zero dimension, or a payload size that the DDS header's field cannot hold. -/
def badDims (i : Instr) (o : Operands) : Prop :=
  (takesDims i ∧ (o.W = 0 ∨ o.H = 0)) ∨ (i = .ddsWriteHdr ∧ (o.W + 3) / 4 * ((o.H + 3) / 4) * 8 > 0xFFFFFFFF)

/-- BLOCK_OUT_OF_RANGE is due (R365). -/
def badBlock (i : Instr) (o : Operands) : Prop :=
  isTile i ∧ (o.blockX.toNat ≥ (o.W + 3) / 4 ∨ o.blockY.toNat ≥ (o.H + 3) / 4)

/-- ADDR_OVERFLOW is due (R366): a range passes 2^32, computed without wrap. -/
def tooFar (x y : Span) : Prop := x.base + x.len > 2 ^ 32 ∨ y.base + y.len > 2 ^ 32

/-- BUFFER_OVERLAP is due (R367): the ranges share a byte. -/
def shareByte (x y : Span) : Prop := ∃ a, x.holds a = true ∧ y.holds a = true

/-- What no command writes: the configuration and the platform, CTRL, CMD, the operand registers, STATUS.OVR, the
pending turns and the host's last read. -/
def sameHostSide (s t : State) : Prop :=
  t.params = s.params ∧ t.platform = s.platform ∧ t.irqEn = s.irqEn ∧ t.cmd = s.cmd ∧ t.ops = s.ops ∧
  t.status.ovr = s.status.ovr ∧ t.turns = s.turns ∧ t.rdata = s.rdata

/-- A command ended successfully (R45): BUSY low, DONE high, ERR and ERRCODE as acceptance left them, the latches
and the working state gone. -/
def succeeded (s t : State) : Prop :=
  sameHostSide s t ∧ t.status.busy = false ∧ t.status.done = true ∧ t.status.err = s.status.err ∧
  t.status.errCode = s.status.errCode ∧ t.latch = {} ∧ t.race = {}

/-- A command ended with an error before its first write (R361, R370): BUSY low, DONE and ERR high, the code in
ERRCODE, no result register and no memory byte written. -/
def failedWith (o : Out) (s : State) (code : BitVec 8) : Prop :=
  ∃ t, o = .next t ∧ sameHostSide s t ∧ t.status.busy = false ∧ t.status.done = true ∧ t.status.err = true ∧
    t.status.errCode = code ∧ t.latch = {} ∧ t.race = {} ∧ t.res = s.res ∧ t.mem = s.mem

/-- Every byte outside a range reads as before. -/
def unchangedOutside (x : Span) (s t : State) : Prop := ∀ a, x.holds a = false → t.readByte a = s.readByte a

/-- The value is a free byte drawn between the two states. -/
def isFreeByte (s t : State) (v : Byte) : Prop := ∃ n, s.free ≤ n ∧ n < t.free ∧ v = Config.freeByte n

/-- The value is a free word drawn between the two states. -/
def isFreeWord (s t : State) (v : Word) : Prop := ∃ n, s.free ≤ n ∧ n < t.free ∧ v = Config.freeWord n

/-- The result registers a command writes when it succeeds (R34-R42). -/
def resultRegs (i : Instr) : List ResReg :=
  match i with
  | .nop => []
  | .decBlock => []
  | .encBlock _ _ _ _ => [.sse, .colors, .indices]
  | .tileGet => []
  | .tilePut => []
  | .encImage _ _ _ _ => [.sse, .bw, .bh, .payloadSize]
  | .decImage => [.bw, .bh, .payloadSize]
  | .ddsWriteHdr => [.bw, .bh, .payloadSize]
  | .ddsParseHdr => [.width, .height, .bw, .bh, .payloadSize, .payloadAddr]

/-- The byte is one a command must access: TILE_GET and TILE_PUT access their 64-byte buffer and, of the image, only the
block's pixels inside it; DDS_PARSE_HDR reads word by word and is not meant here; the others access their whole
ranges (R73, log 7). -/
def mustAccess (i : Instr) (o : Operands) (a : Nat) : Prop :=
  let image := fun A => ∃ x ∈ insideSpans A o.W o.H o.blockX.toNat o.blockY.toNat, x.holds a = true
  match i with
  | .nop => False
  | .decBlock => (srcSpan i o).holds a = true ∨ (dstSpan i o).holds a = true
  | .encBlock _ _ _ _ => (srcSpan i o).holds a = true ∨ (dstSpan i o).holds a = true
  | .tileGet => image o.src ∨ Span.holds ⟨o.dst, 64⟩ a = true
  | .tilePut => Span.holds ⟨o.src, 64⟩ a = true ∨ image o.dst
  | .encImage _ _ _ _ => (srcSpan i o).holds a = true ∨ (dstSpan i o).holds a = true
  | .decImage => (srcSpan i o).holds a = true ∨ (dstSpan i o).holds a = true
  | .ddsWriteHdr => (dstSpan i o).holds a = true
  | .ddsParseHdr => False

/-- The command that a word of the window's CMD selects while it runs (R43). -/
def State.running (s : State) (i : Instr) : Prop := s.status.busy = true ∧ decode s.latch.cmd = .ok i

/-- A host write of a register of the window. -/
def State.wrReg (s : State) (r : Reg) (w : Word) : Out :=
  hostStep (.regWrite (s.params.regBase + BitVec.ofNat 32 r.offset) 4 w) s

/-- The pending turn is a host write of w at an offset of the window, alone or in the engine's step. -/
def State.hostWrites (s : State) (off : Nat) (w : Word) : Prop :=
  ∃ addr ts, regOffset s.params addr = off ∧
    (s.turns = .host (.regWrite addr 4 w) :: ts ∨ s.turns = .together (.regWrite addr 4 w) :: ts)

/-- The pending turn is a reset: the reset input, or a host write of CTRL with bit 1 set (R22, R400). -/
def State.turnResets (s : State) : Prop :=
  (∃ ts, s.turns = .powerOn :: ts) ∨ ∃ w : Word, s.hostWrites 0x004 w ∧ w.getLsbD 1 = true

/-- A command ends in the step from s to t. -/
def endsBetween (s t : State) : Prop := s.status.busy = true ∧ t.status.busy = false

/-- A host read of a register of the window. -/
def State.rdReg (s : State) (r : Reg) : Out :=
  hostStep (.regRead (s.params.regBase + BitVec.ofNat 32 r.offset) 4) s

end Sys2Proof.Machine
end

