-- ==== Sys2Proof/Certificates/Slice0/Obligations.lean ====
section
/-! DEFINITION. The statements about the machine, one `def Obligations.<Name> : Prop` each. Rules R<n> are the spec's. -/

open Sys2Proof Sys2Proof.Machine

/-! ## Encoding -/

/-- R110's examples, word by word, legal and illegal. -/
def Obligations.SpecExampleWordsDecode : Prop :=
  decode 0x00000002#32 = .ok (.encBlock .basic false false false) ∧
  decode 0x00000102#32 = .ok (.encBlock .pca false false false) ∧
  decode 0x00001102#32 = .ok (.encBlock .pca false false true) ∧
  decode 0x00001502#32 = .ok (.encBlock .pca true false true) ∧
  decode 0x00000602#32 = .ok (.encBlock .random true false false) ∧
  decode 0x00000302#32 = .ok (.encBlock .cluster false false false) ∧
  decode 0x00000805#32 = .ok (.encImage .basic false true false) ∧
  decode 0x00000001#32 = .ok .decBlock ∧
  decode 0x00000008#32 = .ok .ddsParseHdr ∧
  decode 0x00000009#32 = .error .reservedOpcode ∧
  decode 0x00000101#32 = .error .reservedBits ∧
  decode 0x00002002#32 = .error .reservedBits

/-- Decoding and encoding are inverse on every 32-bit word: a word decodes to a command exactly when it is that
command's encoding, so no bit of a legal word is dropped and no illegal word is taken for a command (R102-R109). -/
def Obligations.DecodeExactlyInvertsEncode : Prop :=
  ∀ (w : Word) (i : Instr), decode w = .ok i ↔ w = encode i

/-- R107 and R364: the illegal words are exactly those of clauses (a), (b) and (c), and a running command whose word
is illegal ends with ILLEGAL_COMMAND with no memory access and no result; every other word runs as a command. -/
def Obligations.IllegalWordsEndWithIllegalCommand : Prop :=
  ∀ s : State, s.status.busy = true →
    let w := s.latch.cmd.toNat
    let opcode := w % 256
    let bad := 9 ≤ opcode ∨ (opcode ≠ 2 ∧ opcode ≠ 5 ∧ w / 256 ≠ 0) ∨ ((opcode = 2 ∨ opcode = 5) ∧ w / 8192 ≠ 0)
    (bad → failedWith (engineStep s) s 0x01#8) ∧
    (¬bad → ∃ i, decode s.latch.cmd = .ok i ∧ engineStep s = exec i s)

/-! ## Steps -/

/-- A step runs the latched command (R43, R44): when the engine's turn comes and L[CMD] decodes to i, the step is
exec of i on that state, less the turn that was used. That this one step is the whole of the command, and that the
engine moves when no turn is pending, is the model's (DEDUCED, log 3). -/
def Obligations.StepRunsTheLatchedCommand : Prop :=
  ∀ (s : State) (i : Instr), s.running i →
    (s.turns = [] → step s = exec i s) ∧
    (∀ ts, s.turns = .engine :: ts → step s = exec i { s with turns := ts })

/-- A step takes the oldest pending turn: the host's access, the same with the engine's step, the reset input, or the
engine's step; with none pending an idle engine changes nothing (R401, R415; the turns are the model's own, log 3). -/
def Obligations.StepTakesTheOldestTurn : Prop :=
  ∀ (s : State) (ts : List Turn),
    (∀ op, s.turns = .host op :: ts → step s = hostStep op { s with turns := ts }) ∧
    (∀ op, s.turns = .together op :: ts → step s = togetherStep op { s with turns := ts }) ∧
    (s.turns = .powerOn :: ts → step s = .next { s with turns := ts }.resetEngine) ∧
    (s.turns = .engine :: ts → step s = engineStep { s with turns := ts }) ∧
    (s.turns = [] → s.status.busy = false → step s = .next s)

/-- Every command completes (R45, R361): in every state, exec of every command answers a next state in which BUSY is
low, DONE is high, irq follows IRQ_EN (R376), the hidden state is gone, and nothing the host owns has changed. -/
def Obligations.EveryCommandEndsIdleAndDone : Prop :=
  ∀ (i : Instr) (s : State), ∃ t, exec i s = .next t ∧ sameHostSide s t ∧ t.status.busy = false ∧
    t.status.done = true ∧ t.irq = s.irqEn ∧ t.latch = {} ∧ t.race = {}

/-- Progress, in the model: whatever turns are pending, once they have been taken and the engine has moved once, no
command is running, unless a fault or a refusal stopped the run. That one engine step ends a command is the model's
(DEDUCED, log 3); R415 and U18 say a finite number of engine steps that the spec does not give. -/
def Obligations.PendingTurnsThenIdle : Prop :=
  ∀ s t : State, Host.Core.run Sys2Proof.core (s.turns.length + 1) s = .next t →
    t.status.busy = false ∧ t.turns = []

/-- Memory in its canonical form (the model's own, log 1), STATUS legal, hidden state only while a command runs (that
the latches of an idle engine are zeros is the model's, log 16; so is the race record, log 10): every step keeps this. -/
def Obligations.StepKeepsTheInvariant : Prop :=
  ∀ s t : State, s.Inv = true → step s = .next t → t.Inv = true

/-- The invariant holds at reset. -/
def Obligations.ResetMeetsTheInvariant : Prop := State.reset.Inv = true

/-- R22-R24, R47, R50: no step changes the parameters; an operand register changes only to what the host writes to it, or
by a reset; a result register only when a command ends or by a reset; IRQ_EN only by a CTRL write or a reset; CMD only by
an accepted CMD write or a reset; STATUS only when a command ends, by a write of STATUS or CMD, or by a reset. That no
step changes the platform, the backed and the device addresses, is the model's choice (DESIGN CHOICE, log 6). -/
def Obligations.EachRegisterChangesOnlyByItsWriters : Prop :=
  ∀ s t : State, step s = .next t →
    t.params = s.params ∧ t.platform = s.platform ∧
    (∀ r : OpReg, t.ops.get r ≠ s.ops.get r → s.turnResets ∨ s.hostWrites (Reg.operand r).offset (t.ops.get r)) ∧
    (t.res ≠ s.res → endsBetween s t ∨ s.turnResets) ∧
    (t.irqEn ≠ s.irqEn → s.turnResets ∨ ∃ w : Word, s.hostWrites 0x004 w ∧ t.irqEn = w.getLsbD 0) ∧
    (t.cmd ≠ s.cmd → s.turnResets ∨ (s.status.busy = false ∧ s.hostWrites 0x00C t.cmd)) ∧
    (t.status ≠ s.status → endsBetween s t ∨ s.turnResets ∨ ∃ w, s.hostWrites 0x008 w ∨ s.hostWrites 0x00C w)

/-- R375: OVR stays 1 until a host write of STATUS with bit 3 set, or a reset, clears it. -/
def Obligations.OverrunStaysUntilTheHostClearsIt : Prop :=
  ∀ s t : State, step s = .next t → s.status.ovr = true → t.status.ovr = false →
    ∃ ts, s.turns = .powerOn :: ts ∨
      ∃ addr w, (s.turns = .host (.regWrite addr 4 w) :: ts ∨ s.turns = .together (.regWrite addr 4 w) :: ts) ∧
        ((regOffset s.params addr = 0x008 ∧ w.getLsbD 3 = true) ∨ (regOffset s.params addr = 0x004 ∧ w.getLsbD 1 = true))

/-! ## Reset -/

/-- R401: after either reset (the model's reset state, the reset input, a write of CTRL with bit 1 set whatever its other
bits) every register of the window reads its reset value, irq is low, no command runs and the latches are discarded. -/
def Obligations.EitherResetGivesTheResetValues : Prop :=
  ∀ (s t : State), (t = State.reset ∨ t = s.resetEngine ∨ ∃ w : Word, w.getLsbD 1 = true ∧ s.wrReg .ctrl w = .next t) →
    (∀ r : Reg, t.readReg r = if r = .id then 0xBC1C0007#32 else 0x00000000#32) ∧
    t.irq = false ∧ t.status.busy = false ∧ t.latch = {} ∧ t.race = {}

/-- R402, R342, R343: either reset leaves memory unchanged when no command runs; during a command it leaves every byte
unchanged but those of the running command's destination range (as far as it lies inside the address space, log 9),
which are free values. -/
def Obligations.ResetTouchesOnlyTheRunningDestination : Prop :=
  ∀ (s : State) (o : Out),
    (o = .next s.resetEngine ∨ ∃ w : Word, w.getLsbD 1 = true ∧ o = s.wrReg .ctrl w) →
    ∃ t, o = .next t ∧ t.params = s.params ∧ t.platform = s.platform ∧ t.turns = s.turns ∧
      (s.status.busy = false → t.mem = s.mem) ∧
      (∀ a, s.inRunningDst a = false → t.readByte a = s.readByte a) ∧
      (∀ a, s.inRunningDst a = true → isFreeByte s t (t.readByte a))

/-! ## Register accesses -/

/-- R43, R44: a CMD write while idle is accepted, unless a buffer lies on a device (R66): the word, the latches, the
flags; OVR, the other registers and memory unchanged; irq is low (R376); the engine then runs the word on the latched
operands. -/
def Obligations.AcceptanceLatchesTheCommand : Prop :=
  ∀ (s : State) (w : Word), s.status.busy = false →
    (∀ x y, accessedSpans w s.ops = some (x, y) → s.platform.onDevice [x, y] = false) →
    ∃ t, s.wrReg .cmd w = .next t ∧ t.cmd = w ∧ t.latch.cmd = w ∧ t.latch.ops = s.ops ∧
      t.status = { busy := true, done := false, err := false, ovr := s.status.ovr, errCode := 0x00#8 } ∧
      t.ops = s.ops ∧ t.res = s.res ∧ t.irqEn = s.irqEn ∧ t.irq = false ∧ t.mem = s.mem ∧
      (∀ i, decode w = .ok i → engineStep t = exec i t)

/-- R24, R375: a CMD write while BUSY is dropped: CMD and the running command are unaffected, OVR is set, the
interrupt line does not move. -/
def Obligations.BusyCommandWriteIsDropped : Prop :=
  ∀ (s : State) (w : Word), s.status.busy = true →
    ∃ t, s.wrReg .cmd w = .next t ∧ t = { s with status := { s.status with ovr := true } } ∧ t.irq = s.irq

/-- R341, R20: reading a register returns its current value and changes nothing but the value returned; an offset of
no register reads 0. -/
def Obligations.RegisterReadHasNoSideEffect : Prop :=
  ∀ s : State,
    (∀ r : Reg, s.rdReg r = .next { s with rdata := s.readReg r }) ∧
    (∀ off : Nat, off < 4096 → off % 4 = 0 → (∀ r : Reg, r.offset ≠ off) →
      hostStep (.regRead (s.params.regBase + BitVec.ofNat 32 off) 4) s = .next { s with rdata := 0x00000000#32 })

/-- R20 and U1: a register access that is not 32 bits wide or not aligned is refused, read or write. -/
def Obligations.MalformedRegisterAccessIsRefused : Prop :=
  ∀ (s : State) (addr : Word) (size : Nat) (w : Word), regOffset s.params addr < 4096 →
    (size ≠ 4 ∨ regOffset s.params addr % 4 ≠ 0) →
    hostStep (.regRead addr size) s = .refused .registerAccessShape ∧
    hostStep (.regWrite addr size w) s = .refused .registerAccessShape

/-- R341, R411, R47: a write of ID, of a result register or of a reserved offset is ignored; an operand register takes
the value written, at any time, and nothing else changes. -/
def Obligations.ReadOnlyAndOperandRegisterWrites : Prop :=
  ∀ (s : State) (w : Word),
    s.wrReg .id w = .next s ∧ (∀ r : ResReg, s.wrReg (.result r) w = .next s) ∧
    (∀ off : Nat, off < 4096 → off % 4 = 0 → (∀ r : Reg, r.offset ≠ off) →
      hostStep (.regWrite (s.params.regBase + BitVec.ofNat 32 off) 4 w) s = .next s) ∧
    ∀ r : OpReg, ∃ t, s.wrReg (.operand r) w = .next t ∧ t = { s with ops := t.ops } ∧
      ∀ q : OpReg, t.ops.get q = if q = r then w else s.ops.get q

/-- R23, R341: a STATUS write clears DONE, ERR and OVR where its bits are 1 and leaves them where they are 0; clearing
ERR clears ERRCODE; BUSY, the reserved bits and everything else are unaffected. Said of the 32 bits a read returns. irq
is low when DONE is cleared, and else as before (R376). -/
def Obligations.StatusWriteClearsTheNamedBits : Prop :=
  ∀ (s : State) (w : Word), ∃ t, s.wrReg .status w = .next t ∧ t = { s with status := t.status } ∧
    t.status.word.toNat =
      (s.status.word &&& ~~~(w &&& 0x0000000E#32) &&& ~~~(if w.getLsbD 2 then 0x0000FF00#32 else 0#32)).toNat ∧
    t.irq = (s.irq && !w.getLsbD 1)

/-- R22: a CTRL write with bit 1 clear sets IRQ_EN to bit 0 and changes nothing else; one with bit 1 set resets the
engine and leaves IRQ_EN 0 whatever bit 0 is; CTRL reads IRQ_EN in bit 0 and 0 in every other bit; IRQ_EN is 0 at reset.
IRQ_EN enables the interrupt line: irq is IRQ_EN and DONE (R376), so after a CTRL write it is high exactly when that
write set IRQ_EN and DONE is 1. -/
def Obligations.ControlRegister : Prop :=
  State.reset.irqEn = false ∧ ∀ (s : State) (w : Word),
    (s.readReg .ctrl = if s.irqEn then 0x00000001#32 else 0x00000000#32) ∧
    (w.getLsbD 1 = false → ∃ t, s.wrReg .ctrl w = .next t ∧ t = { s with irqEn := w.getLsbD 0 } ∧
      t.irq = (w.getLsbD 0 && s.status.done)) ∧
    (w.getLsbD 1 = true → s.wrReg .ctrl w = .next s.resetEngine ∧ s.resetEngine.irqEn = false ∧
      s.resetEngine.irq = false) ∧
    (s.irq = true ↔ s.irqEn = true ∧ s.status.done = true)

/-- R378: in the step of a completion, of a command whose word is legal or not, the engine's sets win over a STATUS write's
clears, a CMD write is dropped with OVR set, and a soft reset wins over the completion. -/
def Obligations.SameStepEventsFollowTheirPriority : Prop :=
  ∀ (s : State) (w : Word), s.status.busy = true →
    (∃ t u, togetherStep (.regWrite (s.params.regBase + 0x008#32) 4 w) s = .next t ∧ engineStep s = .next u ∧
      t.status.busy = false ∧ t.status.done = true ∧ (u.status.err = true → s.status.err = false →
        t.status.err = true ∧ t.status.errCode = u.status.errCode)) ∧
    (∃ t, togetherStep (.regWrite (s.params.regBase + 0x00C#32) 4 w) s = .next t ∧ t.cmd = s.cmd ∧
      t.status.busy = false ∧ t.status.done = true ∧ t.status.ovr = true) ∧
    (w.getLsbD 1 = true → togetherStep (.regWrite (s.params.regBase + 0x004#32) 4 w) s = .next s.resetEngine)

/-- R66, U2: a launch one of whose buffers meets a device is refused. -/
def Obligations.LaunchOnADeviceIsRefused : Prop :=
  ∀ (s : State) (w : Word) (i : Instr) (d : Span) (a : Nat), s.status.busy = false → decode w = .ok i →
    preError i s.ops = none → d ∈ s.platform.devices → d.holds a = true →
    ((srcSpan i s.ops).holds a = true ∨ (dstSpan i s.ops).holds a = true) →
    s.wrReg .cmd w = .refused .bufferOnDevice

/-! ## What any command can and cannot do -/

/-- R44: a running command reads only its latches; changing the operand registers changes nothing in what it does. -/
def Obligations.CommandsReadOnlyTheirLatches : Prop :=
  ∀ (i : Instr) (s t : State) (o : Operands), exec i s = .next t →
    exec i { s with ops := o } = .next { t with ops := o }

/-- R73: each command writes only its destination range, in every state, whether it succeeds, fails, meets a bus error
or was raced, so long as the bytes the race record lists are in that range. -/
def Obligations.CommandsWriteOnlyTheirDestination : Prop :=
  ∀ (i : Instr) (s t : State), (∀ a ∈ s.race.dst, (dstSpan i s.latch.ops).holds a = true) → exec i s = .next t →
    unchangedOutside (dstSpan i s.latch.ops) s t

/-- R73, R18: each command reads only its source range. Two memories that agree on it give the same STATUS, the same
result registers, and every byte either the same in both or untouched in both. -/
def Obligations.CommandsReadOnlyTheirSource : Prop :=
  ∀ (i : Instr) (s t : State) (m : Memory), s.race = {} →
    (∀ a, (srcSpan i s.latch.ops).holds a = true → { s with mem := m }.readByte a = s.readByte a) →
    exec i s = .next t →
    ∃ u, exec i { s with mem := m } = .next u ∧ u.res = t.res ∧ u.status = t.status ∧
      ∀ a, u.readByte a = t.readByte a ∨
        (t.readByte a = s.readByte a ∧ u.readByte a = { s with mem := m }.readByte a)

/-- R369, R362, R365-R367: the errors that come before the first memory access, in their order, for every command but
DDS_PARSE_HDR: dimensions (zero, or a payload size that does not fit the DDS header's field), the block outside the grid,
a range past 2^32 (the products computed without wrap), ranges that share a byte. -/
def Obligations.CheckErrorsFollowTheirPriority : Prop :=
  ∀ (i : Instr) (s : State), i ≠ .ddsParseHdr → s.race.dst = [] →
    let o := s.latch.ops
    let x := srcSpan i o
    let y := dstSpan i o
    (badDims i o → failedWith (exec i s) s 0x02#8) ∧
    (¬badDims i o → badBlock i o → failedWith (exec i s) s 0x03#8) ∧
    (¬badDims i o → ¬badBlock i o → tooFar x y → failedWith (exec i s) s 0x04#8) ∧
    (¬badDims i o → ¬badBlock i o → ¬tooFar x y → shareByte x y → failedWith (exec i s) s 0x05#8)

/-- R371, R264, R265: a command that passes its checks ends with BUS_ERROR when a byte that it must access is not backed;
no result register is written, and bytes outside its destination range are unchanged; each byte of that range, for
TILE_PUT the whole image, is a free value. Which bytes must be accessed is the model's reading (DEDUCED, log 7), and
so is that fixed unbacked addresses decide it (DESIGN CHOICE, log 6). -/
def Obligations.BusErrorEndsTheCommand : Prop :=
  ∀ (i : Instr) (s : State) (a : Nat),
    preError i s.latch.ops = none → s.backed a = false → mustAccess i s.latch.ops a →
    ∃ t, exec i s = .next t ∧ sameHostSide s t ∧ t.status.busy = false ∧ t.status.done = true ∧
      t.status.err = true ∧ t.status.errCode = 0x09#8 ∧ t.res = s.res ∧
      unchangedOutside (dstSpan i s.latch.ops) s t ∧
      ∀ b, (dstSpan i s.latch.ops).holds b = true → isFreeByte s t (t.readByte b)

/-- R86: after a race, a destination byte the host wrote is a free value, however the command ends; so is every
destination byte if the host wrote the source range of a command whose checks pass, and so is every result register
the command writes (R34-R42) if it then ends without an error; if it ends with one (R370), and of the other result
registers, none changes. The race record, and how far a race on the source reaches, are the model's reading (DEDUCED,
log 10). -/
def Obligations.RacedBytesAreFreeValues : Prop :=
  ∀ (i : Instr) (s t : State), exec i s = .next t →
    (∀ a, (dstSpan i s.latch.ops).holds a = true →
      (a ∈ s.race.dst ∨ s.race.src = true ∧ preError i s.latch.ops = none) → isFreeByte s t (t.readByte a)) ∧
    (s.race.src = true → preError i s.latch.ops = none → s.status.err = false →
      (t.status.err = true → t.res = s.res) ∧
      (t.status.err = false → ∀ r : ResReg,
        (r ∈ resultRegs i → isFreeWord s t (t.res.get r)) ∧ (r ∉ resultRegs i → t.res.get r = s.res.get r)))

/-- R83, R86: while a command runs, the host's read of a byte of its destination range returns a free value; a read
elsewhere returns the byte; neither changes memory. The host's write of a byte of the running destination range is
recorded as a race on that byte, and memory is left to the command's completion; its write of a byte of the running
source range is done and recorded as a race on the source; any other write is an ordinary write of that byte. The
record of races is the model's own (log 10). -/
def Obligations.HostMemoryAccesses : Prop :=
  ∀ (s : State) (a : Word), s.backed a.toNat = true → s.platform.devices = [] →
    (s.inRunningDst a.toNat = true →
      ∃ t v, hostStep (.memRead a) s = .next t ∧ t.rdata.toNat = BitVec.toNat v ∧ isFreeByte s t v ∧ t.mem = s.mem) ∧
    (s.inRunningDst a.toNat = false →
      ∃ t, hostStep (.memRead a) s = .next t ∧ t.rdata.toNat = (s.readByte a.toNat).toNat ∧ t.mem = s.mem) ∧
    (s.inRunningDst a.toNat = true → ∀ v : Byte,
      ∃ t, hostStep (.memWrite a v) s = .next t ∧ t = { s with race := t.race } ∧ t.race.src = s.race.src ∧
        ∀ b, b ∈ t.race.dst ↔ b = a.toNat ∨ b ∈ s.race.dst) ∧
    (s.inRunningDst a.toNat = false → s.inRunningSrc a.toNat = true → ∀ v : Byte,
      ∃ t, hostStep (.memWrite a v) s = .next t ∧ t = { s with mem := t.mem, race := t.race } ∧
        t.race = { s.race with src := true } ∧ t.readByte a.toNat = v ∧
        ∀ b, b ≠ a.toNat → t.readByte b = s.readByte b) ∧
    (s.inRunningDst a.toNat = false → s.inRunningSrc a.toNat = false → ∀ v : Byte,
      ∃ t, hostStep (.memWrite a v) s = .next t ∧ t = { s with mem := t.mem } ∧ t.readByte a.toNat = v ∧
        ∀ b, b ≠ a.toNat → t.readByte b = s.readByte b)

/-! ## NOP and the block commands -/

/-- R340: NOP completes and does nothing else, in every state: no result register and no memory byte is written. -/
def Obligations.NopOnlyCompletes : Prop :=
  ∀ s : State, s.race.dst = [] →
    ∃ t, exec .nop s = .next t ∧ succeeded s t ∧ t.res = s.res ∧ ∀ a, t.readByte a = s.readByte a

/-- R170, R171, R173: DEC_BLOCK writes, for each pixel, the palette entry its index selects and alpha 255, and writes
no result register and no other byte. -/
def Obligations.DecBlockWritesPaletteEntries : Prop :=
  ∀ s : State,
    let o := s.latch.ops
    rangesOk ⟨o.src, 8⟩ ⟨o.dst, 64⟩ → s.backedSpan ⟨o.src, 8⟩ → s.backedSpan ⟨o.dst, 64⟩ → s.race = {} →
    ∃ t, exec .decBlock s = .next t ∧ succeeded s t ∧ t.res = s.res ∧ unchangedOutside ⟨o.dst, 64⟩ s t ∧
      ∀ k < 16,
        let P := palette (BitVec.ofNat 16 (s.memRead o.src 2)) (BitVec.ofNat 16 (s.memRead (o.src + 2) 2))
        let c := P.entry (BitVec.ofNat 2 (s.memRead (o.src + 4) 4 / 4 ^ k))
        (t.readByte (o.dst + 4 * k)).toNat = c.r ∧ (t.readByte (o.dst + 4 * k + 1)).toNat = c.g ∧
        (t.readByte (o.dst + 4 * k + 2)).toNat = c.b ∧ t.readByte (o.dst + 4 * k + 3) = 255#8

/-- R242: ENC_BLOCK writes the encoding of the block at SRC, little-endian, and reports its error, endpoints and
indices; it writes no other result register and no other byte. -/
def Obligations.EncBlockWritesTheEncodedBlock : Prop :=
  ∀ (m : Method) (mse dither refine : Bool) (s : State),
    let o := s.latch.ops
    rangesOk ⟨o.src, 64⟩ ⟨o.dst, 8⟩ → s.backedSpan ⟨o.src, 64⟩ → s.backedSpan ⟨o.dst, 8⟩ → s.race = {} →
    let p : Block16 := (List.range 16).map fun k =>
      ⟨(s.readByte (o.src + 4 * k)).toNat, (s.readByte (o.src + 4 * k + 1)).toNat,
       (s.readByte (o.src + 4 * k + 2)).toNat, (s.readByte (o.src + 4 * k + 3)).toNat⟩
    let e := encodeBlock s.params (encCfg m mse dither refine o) p 0
    ∃ t, exec (.encBlock m mse dither refine) s = .next t ∧ succeeded s t ∧ unchangedOutside ⟨o.dst, 8⟩ s t ∧
      t.memRead o.dst 2 = e.c0.toNat ∧ t.memRead (o.dst + 2) 2 = e.c1.toNat ∧
      t.memRead (o.dst + 4) 4 = e.indices.toNat ∧
      t.res.sse.toNat = e.err ∧ t.res.colors.toNat = e.c0.toNat + 65536 * e.c1.toNat ∧
      t.res.indices = e.indices ∧
      ∀ r : ResReg, r ≠ .sse → r ≠ .colors → r ≠ .indices → t.res.get r = s.res.get r

/-! ## The tiler and the image commands -/

/-- R261, R262, R264: TILE_GET copies each pixel of the block that lies inside the image, and (0,0,0,0) for each that
does not; it writes no result register and no other byte. Only the image bytes it reads need be backed. -/
def Obligations.TileGetCopiesThePaddedBlock : Prop :=
  ∀ s : State,
    let o := s.latch.ops
    let bx := o.blockX.toNat
    let row := o.blockY.toNat
    0 < o.W → 0 < o.H → bx < (o.W + 3) / 4 → row < (o.H + 3) / 4 →
    rangesOk ⟨o.src, o.W * o.H * 4⟩ ⟨o.dst, 64⟩ → s.backedSpan ⟨o.dst, 64⟩ →
    (∀ k < 16, 4 * bx + k % 4 < o.W → 4 * row + k / 4 < o.H →
      s.backedSpan ⟨o.src + 4 * ((4 * row + k / 4) * o.W + (4 * bx + k % 4)), 4⟩) →
    s.race = {} →
    ∃ t, exec .tileGet s = .next t ∧ succeeded s t ∧ t.res = s.res ∧ unchangedOutside ⟨o.dst, 64⟩ s t ∧
      ∀ k < 16, ∀ c < 4, t.readByte (o.dst + 4 * k + c) =
        if 4 * bx + k % 4 < o.W ∧ 4 * row + k / 4 < o.H
        then s.readByte (o.src + 4 * ((4 * row + k / 4) * o.W + (4 * bx + k % 4)) + c) else 0#8

/-- R263, R265: TILE_PUT copies the pixels of the source block that fall inside the image to their places, drops the
others, and writes no result register and no other byte. Only the image bytes it writes need be backed. -/
def Obligations.TilePutPlacesTheCroppedBlock : Prop :=
  ∀ s : State,
    let o := s.latch.ops
    let bx := o.blockX.toNat
    let row := o.blockY.toNat
    let at_ := fun k => o.dst + 4 * ((4 * row + k / 4) * o.W + (4 * bx + k % 4))
    let inside := fun k => k < 16 ∧ 4 * bx + k % 4 < o.W ∧ 4 * row + k / 4 < o.H
    0 < o.W → 0 < o.H → bx < (o.W + 3) / 4 → row < (o.H + 3) / 4 →
    rangesOk ⟨o.src, 64⟩ ⟨o.dst, o.W * o.H * 4⟩ → s.backedSpan ⟨o.src, 64⟩ →
    (∀ k, inside k → s.backedSpan ⟨at_ k, 4⟩) → s.race = {} →
    ∃ t, exec .tilePut s = .next t ∧ succeeded s t ∧ t.res = s.res ∧
      (∀ k, inside k → ∀ c < 4, t.readByte (at_ k + c) = s.readByte (o.src + 4 * k + c)) ∧
      ∀ a, (∀ k, inside k → ¬(at_ k ≤ a ∧ a < at_ k + 4)) → t.readByte a = s.readByte a

/-- R270, R34, R39-R41: ENC_IMAGE writes at DST + 8k the encoding of block k, and reports the saturated sum of the
block errors, the grid and the payload size; no other result register and no other byte is written. -/
def Obligations.EncImageWritesEveryBlock : Prop :=
  ∀ (m : Method) (mse dither refine : Bool) (s : State),
    let o := s.latch.ops
    let BW := (o.W + 3) / 4
    let BH := (o.H + 3) / 4
    0 < o.W → 0 < o.H → rangesOk ⟨o.src, o.W * o.H * 4⟩ ⟨o.dst, BW * BH * 8⟩ →
    s.backedSpan ⟨o.src, o.W * o.H * 4⟩ → s.backedSpan ⟨o.dst, BW * BH * 8⟩ → s.race = {} →
    let e := fun k => encodeBlock s.params (encCfg m mse dither refine o) (s.extract o.src o.W o.H (k % BW) (k / BW)) k
    ∃ t, exec (.encImage m mse dither refine) s = .next t ∧ succeeded s t ∧
      unchangedOutside ⟨o.dst, BW * BH * 8⟩ s t ∧
      (∀ k < BW * BH, t.memRead (o.dst + 8 * k) 2 = (e k).c0.toNat ∧ t.memRead (o.dst + 8 * k + 2) 2 = (e k).c1.toNat ∧
        t.memRead (o.dst + 8 * k + 4) 4 = (e k).indices.toNat) ∧
      t.res.sse.toNat = min (((List.range (BW * BH)).map fun k => (e k).err).sum) 0xFFFFFFFF ∧
      t.res.bw.toNat = BW ∧ t.res.bh.toNat = BH ∧ t.res.payloadSize.toNat = BW * BH * 8 ∧
      ∀ r : ResReg, r ≠ .sse → r ≠ .bw → r ≠ .bh → r ≠ .payloadSize → t.res.get r = s.res.get r

/-- R271, R263: DEC_IMAGE writes every pixel (x, y) of the image: the palette entry that its index in the block
(x div 4, y div 4) selects, alpha 255; it reports the grid and the payload size; no other result register and no other
byte is written. -/
def Obligations.DecImageWritesEveryPixel : Prop :=
  ∀ s : State,
    let o := s.latch.ops
    let BW := (o.W + 3) / 4
    let BH := (o.H + 3) / 4
    0 < o.W → 0 < o.H → rangesOk ⟨o.src, BW * BH * 8⟩ ⟨o.dst, o.W * o.H * 4⟩ →
    s.backedSpan ⟨o.src, BW * BH * 8⟩ → s.backedSpan ⟨o.dst, o.W * o.H * 4⟩ → s.race = {} →
    ∃ t, exec .decImage s = .next t ∧ succeeded s t ∧ unchangedOutside ⟨o.dst, o.W * o.H * 4⟩ s t ∧
      (∀ x < o.W, ∀ y < o.H,
        let b := o.src + 8 * (y / 4 * BW + x / 4)
        let P := palette (BitVec.ofNat 16 (s.memRead b 2)) (BitVec.ofNat 16 (s.memRead (b + 2) 2))
        let c := P.entry (BitVec.ofNat 2 (s.memRead (b + 4) 4 / 4 ^ (4 * (y % 4) + x % 4)))
        let a := o.dst + 4 * (y * o.W + x)
        (t.readByte a).toNat = c.r ∧ (t.readByte (a + 1)).toNat = c.g ∧ (t.readByte (a + 2)).toNat = c.b ∧
        t.readByte (a + 3) = 255#8) ∧
      t.res.bw.toNat = BW ∧ t.res.bh.toNat = BH ∧ t.res.payloadSize.toNat = BW * BH * 8 ∧
      ∀ r : ResReg, r ≠ .bw → r ≠ .bh → r ≠ .payloadSize → t.res.get r = s.res.get r

/-- R282: TILE_GET of a block to a scratch buffer, then TILE_PUT of the same block into a second image of the same
size, copies exactly the image pixels of that block. -/
def Obligations.TileRoundTripCopiesTheBlock : Prop :=
  ∀ (s t u : State) (B : Word),
    let o := s.latch.ops
    let bx := o.blockX.toNat
    let row := o.blockY.toNat
    let pix := fun k => 4 * ((4 * row + k / 4) * o.W + (4 * bx + k % 4))
    let inside := fun k => k < 16 ∧ 4 * bx + k % 4 < o.W ∧ 4 * row + k / 4 < o.H
    0 < o.W → 0 < o.H → bx < (o.W + 3) / 4 → row < (o.H + 3) / 4 →
    rangesOk ⟨o.src, o.W * o.H * 4⟩ ⟨o.dst, 64⟩ → rangesOk ⟨o.dst, 64⟩ ⟨B.toNat, o.W * o.H * 4⟩ →
    s.platform.unbacked = [] → s.race = {} → exec .tileGet s = .next t →
    exec .tilePut { t with latch := { cmd := encode .tilePut, ops := { o with srcAddr := o.dstAddr, dstAddr := B } } } =
      .next u →
    u.status.err = s.status.err ∧
    (∀ k, inside k → ∀ c < 4, u.readByte (B.toNat + pix k + c) = s.readByte (o.src + pix k + c)) ∧
    ∀ a, (∀ k, inside k → ¬(B.toNat + pix k ≤ a ∧ a < B.toNat + pix k + 4)) → u.readByte a = t.readByte a

/-- R281: the compression ratio is 8 for dimensions that are multiples of 4, and below 8 otherwise. -/
def Obligations.CompressionRatio : Prop :=
  ∀ W H : Nat, 0 < W → 0 < H →
    let payload := blocksOf W * blocksOf H * 8
    (W % 4 = 0 → H % 4 = 0 → 2 * payload = W * H ∧ W * H * 4 = 8 * payload) ∧
    (W % 4 ≠ 0 ∨ H % 4 ≠ 0 → W * H * 4 < 8 * payload)

/-! ## The DDS header -/

/-- R300-R303: DDS_WRITE_HDR writes the 32 words of the header, field by field, and reports the grid and the payload
size; no other result register and no other byte is written. -/
def Obligations.DdsWriteHdrWritesTheHeader : Prop :=
  ∀ s : State,
    let o := s.latch.ops
    let BW := (o.W + 3) / 4
    let BH := (o.H + 3) / 4
    0 < o.W → 0 < o.H → BW * BH * 8 ≤ 0xFFFFFFFF → o.dst + 128 ≤ 2 ^ 32 → s.backedSpan ⟨o.dst, 128⟩ → s.race = {} →
    ∃ t, exec .ddsWriteHdr s = .next t ∧ succeeded s t ∧ unchangedOutside ⟨o.dst, 128⟩ s t ∧
      (∀ i < 32, t.memRead (o.dst + 4 * i) 4 =
        if i = 0 then 0x20534444 else if i = 1 then 124 else if i = 2 then 0x00081007 else if i = 3 then o.H
        else if i = 4 then o.W else if i = 5 then BW * BH * 8 else if i = 19 then 32 else if i = 20 then 4
        else if i = 21 then 0x31545844 else if i = 27 then 0x1000 else 0) ∧
      t.res.bw.toNat = BW ∧ t.res.bh.toNat = BH ∧ t.res.payloadSize.toNat = BW * BH * 8 ∧
      ∀ r : ResReg, r ≠ .bw → r ≠ .bh → r ≠ .payloadSize → t.res.get r = s.res.get r

/-- R310, R312: DDS_PARSE_HDR reports the dimensions, the grid, the payload size and address of a file whose length,
magic, fourCC and dimensions pass, whatever the other header fields hold; it writes no memory and no other result
register. -/
def Obligations.DdsParseHdrReportsTheHeader : Prop :=
  ∀ s : State,
    let o := s.latch.ops
    let word := fun off => s.memRead (o.src + off) 4
    let w := word 16
    let h := word 12
    let size := (w + 3) / 4 * ((h + 3) / 4) * 8
    word 0 = 0x20534444 → word 84 = 0x31545844 → 0 < w → 0 < h → 128 + size ≤ o.srcLen.toNat →
    o.src + (128 + size) ≤ 2 ^ 32 → (∀ off, off = 0 ∨ off = 12 ∨ off = 16 ∨ off = 84 → s.backedSpan ⟨o.src + off, 4⟩) →
    s.race = {} →
    ∃ t, exec .ddsParseHdr s = .next t ∧ succeeded s t ∧ t.mem = s.mem ∧
      t.res.width.toNat = w ∧ t.res.height.toNat = h ∧ t.res.bw.toNat = (w + 3) / 4 ∧ t.res.bh.toNat = (h + 3) / 4 ∧
      t.res.payloadSize.toNat = size ∧ t.res.payloadAddr.toNat = o.src + 128 ∧
      t.res.sse = s.res.sse ∧ t.res.colors = s.res.colors ∧ t.res.indices = s.res.indices

/-- R310, R311: the errors of DDS_PARSE_HDR, one check at a time: length, header range, magic, fourCC, dimensions,
payload length, file range; a word that is not backed ends it with BUS_ERROR when it is read, and the words are read as
the checks reach them (DEDUCED, log 7). -/
def Obligations.DdsParseHdrErrorsInOrder : Prop :=
  ∀ s : State,
    let o := s.latch.ops
    let n := o.srcLen.toNat
    let word := fun off => s.memRead (o.src + off) 4
    let size := (word 16 + 3) / 4 * ((word 12 + 3) / 4) * 8
    let ok := fun off => s.backedSpan ⟨o.src + off, 4⟩
    let fails := failedWith (exec .ddsParseHdr s) s
    s.race = {} →
    (n < 128 → fails 0x08#8) ∧
    (128 ≤ n → o.src + 128 > 2 ^ 32 → fails 0x04#8) ∧
    (128 ≤ n → o.src + 128 ≤ 2 ^ 32 →
      (¬ok 0 → fails 0x09#8) ∧
      (ok 0 → word 0 ≠ 0x20534444 → fails 0x06#8) ∧
      (ok 0 → word 0 = 0x20534444 →
        (¬ok 84 → fails 0x09#8) ∧
        (ok 84 → word 84 ≠ 0x31545844 → fails 0x07#8) ∧
        (ok 84 → word 84 = 0x31545844 →
          (¬ok 12 ∨ ¬ok 16 → fails 0x09#8) ∧
          (ok 12 → ok 16 →
            (word 16 = 0 ∨ word 12 = 0 → fails 0x02#8) ∧
            (0 < word 16 → 0 < word 12 → 128 + size > n → fails 0x08#8) ∧
            (0 < word 16 → 0 < word 12 → 128 + size ≤ n → o.src + (128 + size) > 2 ^ 32 → fails 0x04#8)))))

/-- R313: a header written by DDS_WRITE_HDR, with its payload after it, is parsed by DDS_PARSE_HDR to the dimensions it
was written for, and the payload bytes are unchanged. -/
def Obligations.DdsHeaderRoundTrip : Prop :=
  ∀ (s t : State),
    let o := s.latch.ops
    let size := (o.W + 3) / 4 * ((o.H + 3) / 4) * 8
    0 < o.W → 0 < o.H → size ≤ 0xFFFFFFFF - 128 → o.dst + 128 + size ≤ 2 ^ 32 →
    s.platform.unbacked = [] → s.race = {} → exec .ddsWriteHdr s = .next t →
    ∃ u, exec .ddsParseHdr { t with latch := { cmd := encode .ddsParseHdr, ops := { o with srcAddr := o.dstAddr, srcLen := BitVec.ofNat 32 (128 + size) } } } =
        .next u ∧
      u.status.err = s.status.err ∧ u.status.done = true ∧
      u.res.width = o.width ∧ u.res.height = o.height ∧ u.res.bw.toNat = (o.W + 3) / 4 ∧ u.res.bh.toNat = (o.H + 3) / 4 ∧
      u.res.payloadSize.toNat = size ∧ u.res.payloadAddr.toNat = o.dst + 128 ∧
      ∀ a, o.dst + 128 ≤ a → a < o.dst + 128 + size → u.readByte a = s.readByte a

/-! ## Palette math -/

/-- R133: bit replication is strictly increasing, from 0 to 255, so expansion is monotonic in each field. -/
def Obligations.ExpansionIsMonotonic : Prop :=
  (∀ p q, p < q → q ≤ 31 → E5 p < E5 q) ∧ (∀ p q, p < q → q ≤ 63 → E6 p < E6 q) ∧
  E5 0 = 0 ∧ E6 0 = 0 ∧ E5 31 = 255 ∧ E6 63 = 255 ∧
  ∀ c d : C565,
    (c.extractLsb' 11 5 ≤ d.extractLsb' 11 5 → (expand565to888 c).r ≤ (expand565to888 d).r) ∧
    (c.extractLsb' 5 6 ≤ d.extractLsb' 5 6 → (expand565to888 c).g ≤ (expand565to888 d).g) ∧
    (c.extractLsb' 0 5 ≤ d.extractLsb' 0 5 → (expand565to888 c).b ≤ (expand565to888 d).b)

/-- R135, R136, R138: for NEAREST no code of 0..31 (0..63) expands nearer to v than the one chosen, and every lower code is
strictly farther; TRUNCATE drops the low 3 (2) bits; for both, quantization undoes expansion, code by code and for every
endpoint. -/
def Obligations.QuantizationFollowsItsRuleAndUndoesExpansion : Prop :=
  (∀ v ≤ 255,
    (Q5 .nearest v ≤ 31 ∧
      (∀ n ≤ 31, ((E5 (Q5 .nearest v) : Int) - v).natAbs ≤ ((E5 n : Int) - v).natAbs) ∧
      ∀ n < Q5 .nearest v, ((E5 (Q5 .nearest v) : Int) - v).natAbs < ((E5 n : Int) - v).natAbs) ∧
    (Q6 .nearest v ≤ 63 ∧
      (∀ n ≤ 63, ((E6 (Q6 .nearest v) : Int) - v).natAbs ≤ ((E6 n : Int) - v).natAbs) ∧
      ∀ n < Q6 .nearest v, ((E6 (Q6 .nearest v) : Int) - v).natAbs < ((E6 n : Int) - v).natAbs) ∧
    Q5 .truncate v = v / 8 ∧ Q6 .truncate v = v / 4) ∧
  ∀ q : Quant, (∀ n ≤ 31, Q5 q (E5 n) = n) ∧ (∀ n ≤ 63, Q6 q (E6 n) = n) ∧
    ∀ c : C565, pack565 q (expand565to888 c) = c

/-- R142: exchanging the endpoints exchanges entries 0 and 1 and entries 2 and 3, so exchanging them and replacing
every index i by i XOR 1 leaves every decoded pixel unchanged. -/
def Obligations.PaletteSwapSymmetry : Prop :=
  ∀ (c0 c1 : C565), (∀ i : Idx, (palette c1 c0).entry i = (palette c0 c1).entry (i ^^^ 1#2)) ∧
    ∀ w : Word, decodeBlock c1 c0 (w ^^^ 0x55555555#32) = decodeBlock c0 c1 w

/-- R144: `nearest` picks an entry at the least distance, and the lowest index among those; with equal endpoints it is
0 for every colour. -/
def Obligations.NearestIsTheLowestMinimum : Prop :=
  ∀ (t : RGB) (P : Palette),
    (∀ i : Idx, d2 t (P.entry (nearest t P)) ≤ d2 t (P.entry i)) ∧
    (∀ i : Idx, i < nearest t P → d2 t (P.entry (nearest t P)) < d2 t (P.entry i)) ∧
    ∀ c : C565, nearest t (palette c c) = 0#2

/-- R154: unpacking takes bits 2k+1..2k for pixel k, and packing and unpacking are inverse bijections. -/
def Obligations.IndexPackingIsABijection : Prop :=
  (∀ idx : List Idx, idx.length = 16 →
    packIndices idx < 2 ^ 32 ∧ unpackIndices (BitVec.ofNat 32 (packIndices idx)) = idx) ∧
  ∀ w : Word, (unpackIndices w).length = 16 ∧ BitVec.ofNat 32 (packIndices (unpackIndices w)) = w ∧
    ∀ k < 16, ((unpackIndices w).getD k 0#2).toNat = w.toNat / 4 ^ k % 4

/-- R140, R141: entries 0 and 1 are the expanded endpoints, and each channel of entries 2 and 3 is the third of 2a + b, or
a + 2b, rounded half up: the e with e ≤ n/3 + 1/2 < e + 1, which is (n + 1) div 3. Palette entries are bytes, and the
error of a block of 16 byte-valued pixels is at most 3,121,200 (R143, R146). -/
def Obligations.PaletteBlendsAndBlockErrorBound : Prop :=
  (∀ (c0 c1 : C565) (ch : Chan),
    let e := fun i : Idx => chan ((palette c0 c1).entry i) ch
    (palette c0 c1).entry 0#2 = expand565to888 c0 ∧ (palette c0 c1).entry 1#2 = expand565to888 c1 ∧
    (6 * e 2#2 ≤ 2 * (2 * e 0#2 + e 1#2) + 3 ∧ 2 * (2 * e 0#2 + e 1#2) + 3 < 6 * (e 2#2 + 1)) ∧
    (6 * e 3#2 ≤ 2 * (e 0#2 + 2 * e 1#2) + 3 ∧ 2 * (e 0#2 + 2 * e 1#2) + 3 < 6 * (e 3#2 + 1)) ∧
    e 2#2 = (2 * e 0#2 + e 1#2 + 1) / 3 ∧ e 3#2 = (e 0#2 + 2 * e 1#2 + 1) / 3) ∧
  ∀ (p : List RGB) (c : Candidate), p.length = 16 → (∀ x ∈ p, x.r ≤ 255 ∧ x.g ≤ 255 ∧ x.b ≤ 255) →
    (∀ i : Idx, (c.palette.entry i).r ≤ 255 ∧ (c.palette.entry i).g ≤ 255 ∧ (c.palette.entry i).b ≤ 255) ∧
    SSE p c ≤ 3121200

/-! ## The encoder -/

/-- R240: normalisation exchanges the endpoints and XORs the indices with 1 when c0 < c1, zeroes the indices when they
are equal, and else does nothing; it changes no decoded pixel and no error; every emitted block has color0 ≥ color1, with
color0 = color1 only with all indices 0. -/
def Obligations.EmittedEndpointsAreOrdered : Prop :=
  (∀ (p : List RGB) (c : Candidate),
    (c.c0.toNat < c.c1.toNat → Machine.normalize c = ⟨c.c1, c.c0, c.idx.map fun i => i ^^^ 1#2⟩) ∧
    (c.c0 = c.c1 → Machine.normalize c = ⟨c.c0, c.c1, List.replicate c.idx.length 0#2⟩) ∧
    (c.c1.toNat < c.c0.toNat → Machine.normalize c = c) ∧ SSE p (Machine.normalize c) = SSE p c ∧
    (Machine.normalize c).idx.map (Machine.normalize c).palette.entry = c.idx.map c.palette.entry) ∧
  ∀ (P : Params) (cfg : EncCfg) (p : Block16) (k : Nat),
    let e := encodeBlock P cfg p k
    e.c1 ≤ e.c0 ∧ (e.c0 = e.c1 → e.indices = 0#32)

/-- R174: the error the encoder records is the error of the 16 source pixels against the decoding of the emitted
block. -/
def Obligations.RecordedErrorIsTheDecodedError : Prop :=
  ∀ (P : Params) (cfg : EncCfg) (p : Block16) (k : Nat), p.length = 16 →
    let e := encodeBlock P cfg p k
    e.err = ((p.zip (decodeBlock e.c0 e.c1 e.indices)).map fun x => d2 (rgb x.1) (rgb x.2)).sum

/-- R244: PCA with refinement, and Cluster always, emit a block whose error is at most Basic's on the same block and
configuration. -/
def Obligations.GuardKeepsErrorAtMostBasic : Prop :=
  ∀ (P : Params) (cfg : EncCfg) (p : Block16) (k : Nat),
    (cfg.method = .pca ∧ cfg.useRefine = true ∨ cfg.method = .cluster) →
    (encodeBlock P cfg p k).err ≤ SSE (colors p) (basic P cfg (colors p))

/-- R243: a block of 16 pixels of one colour C encodes, under every method, configuration and parameter, to
pack565(C) twice with indices 0, decodes to expand565to888(pack565(C)) everywhere, and its error is zero exactly when C
is representable. -/
def Obligations.UniformBlocksEncodeToTheirColour : Prop :=
  ∀ (P : Params) (cfg : EncCfg) (p : Block16) (k : Nat) (C : RGB), p.length = 16 → (∀ x ∈ p, rgb x = C) →
    C.r ≤ 255 → C.g ≤ 255 → C.b ≤ 255 →
    let e := encodeBlock P cfg p k
    let c := pack565 P.quant C
    e.c0 = c ∧ e.c1 = c ∧ e.indices = 0#32 ∧ (∀ q ∈ decodeBlock e.c0 e.c1 e.indices, rgb q = expand565to888 c) ∧
    (e.err = 0 ↔ ∃ d : C565, C = expand565to888 d)

/-- R206, R224, R225: refinement never raises the score of its candidate, and Random's result never scores above
Basic's. -/
def Obligations.SearchNeverWorsensTheScore : Prop :=
  ∀ (P : Params) (cfg : EncCfg) (p : List RGB) (c : Candidate) (k : Nat),
    score cfg.useMSE p (refine P cfg p c) ≤ score cfg.useMSE p c ∧
    score cfg.useMSE p (random P cfg p k) ≤ score cfg.useMSE p (basic P cfg p)

/-- R191: a configuration field that a method does not consult has no effect, and only Random depends on the block's
position (R280); alpha has no effect on any method (R152). -/
def Obligations.UnconsultedFieldsHaveNoEffect : Prop :=
  ∀ (P : Params) (a b : EncCfg) (p q : Block16) (j k : Nat), a.method = b.method → a.useDither = b.useDither →
    colors p = colors q →
    (a.method = .basic ∨ a.method = .cluster ∨
      (a.method = .pca ∧ a.useRefine = b.useRefine ∧ (a.useRefine = true → a.useMSE = b.useMSE)) ∨
      (a.method = .random ∧ a = b ∧ j = k)) →
    encodeBlock P a p j = encodeBlock P b q k

/-- R245: the red and blue checkerboard, whatever its alpha, is emitted as red, blue and indices 0x11441144 with error
0 by every method, every flag combination, every iteration count, seed and block position, under the default
parameters. -/
def Obligations.CheckerboardIsEncodedExactly : Prop :=
  ∀ (cfg : EncCfg) (k : Nat) (alpha : Nat → Nat),
    encodeBlock {} cfg
      ((List.range 16).map fun j => if (j % 4 + j / 4) % 2 = 0 then ⟨255, 0, 0, alpha j⟩ else ⟨0, 0, 255, alpha j⟩) k =
    ⟨0xF800#16, 0x001F#16, 0x11441144#32, 0⟩

/-- R194, R195: the covariance matrix is symmetric with the bounds the rule states, and with the default threshold the
flat blocks are exactly those whose 16 pixels share one colour. -/
def Obligations.CovarianceBoundsAndFlatness : Prop :=
  ∀ p : List RGB, p.length = 16 → (∀ x ∈ p, x.r ≤ 255 ∧ x.g ≤ 255 ∧ x.b ≤ 255) →
    (∀ i j : Chan, cov p i j = cov p j i ∧ (cov p i j).natAbs ≤ 4161600) ∧ (∀ i : Chan, 0 ≤ cov p i i) ∧
    (isFlat {} p = true ↔ ∀ x ∈ p, ∀ y ∈ p, x = y)

/-- R197: normalisation gives the zero vector for the zero vector, keeps a vector whose components have at most 15
bits, and always gives components in -32768..32767. -/
def Obligations.NormalisedVectorsFitSixteenBits : Prop :=
  ∀ x : Vec3,
    (maxAbs x = 0 → normVec x = ⟨0, 0, 0⟩) ∧ (maxAbs x < 2 ^ 15 → normVec x = x) ∧
    ∀ ch : Chan, -32768 ≤ comp (normVec x) ch ∧ comp (normVec x) ch ≤ 32767

/-- R221, R222: the generator maps every nonzero word to a nonzero word, and no block's seed is 0. -/
def Obligations.GeneratorNeverReachesZero : Prop :=
  (∀ x : Word, x ≠ 0#32 → xorshift32 x ≠ 0#32) ∧ ∀ (P : Params) (seed : Word) (k : Nat), blockSeed P seed k ≠ 0#32

/-! ## Memory -/

/-- R14, R62: a field written little-endian reads back as the value modulo its width, and no other byte changes. -/
def Obligations.FieldReadsBackAsWritten : Prop :=
  ∀ (s : State) (a n v : Nat),
    (s.store (cellsLE a n v)).memRead a n = v % 256 ^ n ∧ unchangedOutside ⟨a, n⟩ s (s.store (cellsLE a n v))

/-- Two memories in canonical form with the same entry at every address are the same data. The form is the model's own
(DESIGN CHOICE, log 1). -/
def Obligations.CanonicalMemoriesAreEqualData : Prop :=
  ∀ m n : Memory, Memory.wf m = true → Memory.wf n = true → (∀ a, Memory.lookup m a = Memory.lookup n a) → m = n
end

