-- ==== Sys2Proof/Laws/Codec.lean ====
section
/-! SUPPORT. What the codec's small functions compute: the smallest arguments of 00_scope R12 and the shape of a
candidate. -/

namespace Sys2Proof.Machine

open Sys2Proof

/-- `argmin` stays in its range. -/
theorem argmin_le (f : Nat → Int) (n : Nat) : argmin f n ≤ n := by
  induction n with
  | zero => exact le_refl _
  | succ n ih => simp only [argmin]; split <;> omega

/-- `argmin` is a minimum. -/
theorem argmin_min (f : Nat → Int) (n k : Nat) (hk : k ≤ n) : f (argmin f n) ≤ f k := by
  induction n with
  | zero => simp_all [argmin]
  | succ n ih =>
    simp only [argmin]
    by_cases h : k = n + 1
    · subst h; split <;> omega
    · have := ih (by omega)
      split <;> omega

/-- `argmin` is the smallest minimum (R12). -/
theorem argmin_first (f : Nat → Int) (n k : Nat) (hk : k < argmin f n) : f (argmin f n) < f k := by
  induction n with
  | zero => simp [argmin] at hk
  | succ n ih =>
    simp only [argmin] at hk ⊢
    split
    · next h =>
      rw [if_pos h] at hk
      have := argmin_min f n k (by omega)
      omega
    · next h =>
      rw [if_neg h] at hk
      exact ih hk

/-- `argmin` depends on the values alone. -/
theorem argmin_congr {f g : Nat → Int} (n : Nat) (h : ∀ k ≤ n, f k = g k) : argmin f n = argmin g n := by
  induction n with
  | zero => rfl
  | succ n ih =>
    have ih := ih fun k hk => h k (by omega)
    simp only [argmin, ih, h (n + 1) (le_refl _), h (argmin g n) (by have := argmin_le g n; omega)]

/-- An assigned candidate keeps its endpoints: indices never move them (R145, R151). -/
@[simp] theorem assign_c0 (d : Dither) (p : List RGB) (c0 c1 : C565) (dz : Bool) : (assign d p c0 c1 dz).c0 = c0 := rfl

/-- An assigned candidate keeps its endpoints: indices never move them (R145, R151). -/
@[simp] theorem assign_c1 (d : Dither) (p : List RGB) (c0 c1 : C565) (dz : Bool) : (assign d p c0 c1 dz).c1 = c1 := rfl

/-- A block of 16 pixels gets 16 indices. -/
theorem assign_length (d : Dither) (p : List RGB) (c0 c1 : C565) (dz : Bool) (h : p.length = 16) :
    (assign d p c0 c1 dz).idx.length = 16 := by
  cases dz <;> simp [assign, dither, h]

/-- The candidate kept is one of the two. -/
theorem better_cases (cfg : EncCfg) (p : List RGB) (a b : Candidate) :
    better cfg p a b = a ∨ better cfg p a b = b := by
  unfold better; split <;> simp

end Sys2Proof.Machine
end

