-- ==== Sys2Proof/Laws/State.lean ====
section
/-! SUPPORT. What every update of the state does to every field, so that no later proof unfolds a record update. -/

namespace Sys2Proof.Machine

open Sys2Proof

variable (s : State)

/-! ### State.accept -/

@[simp] theorem accept_params (w : Word) : (s.accept w).params = s.params := rfl
@[simp] theorem accept_irqEn (w : Word) : (s.accept w).irqEn = s.irqEn := rfl
@[simp] theorem accept_status (w : Word) : (s.accept w).status = s.status.accepted := rfl
@[simp] theorem accept_cmd (w : Word) : (s.accept w).cmd = w := rfl
@[simp] theorem accept_ops (w : Word) : (s.accept w).ops = s.ops := rfl
@[simp] theorem accept_res (w : Word) : (s.accept w).res = s.res := rfl
@[simp] theorem accept_latch (w : Word) : (s.accept w).latch = { cmd := w, ops := s.ops } := rfl
@[simp] theorem accept_race (w : Word) : (s.accept w).race = {} := rfl
@[simp] theorem accept_mem (w : Word) : (s.accept w).mem = s.mem := rfl
@[simp] theorem accept_platform (w : Word) : (s.accept w).platform = s.platform := rfl
@[simp] theorem accept_turns (w : Word) : (s.accept w).turns = s.turns := rfl
@[simp] theorem accept_rdata (w : Word) : (s.accept w).rdata = s.rdata := rfl
@[simp] theorem accept_free (w : Word) : (s.accept w).free = s.free := rfl

/-! ### State.complete -/

@[simp] theorem complete_params (ws : ResultWrites) : (s.complete ws).params = s.params := rfl
@[simp] theorem complete_irqEn (ws : ResultWrites) : (s.complete ws).irqEn = s.irqEn := rfl
@[simp] theorem complete_status (ws : ResultWrites) : (s.complete ws).status = s.status.completed := rfl
@[simp] theorem complete_cmd (ws : ResultWrites) : (s.complete ws).cmd = s.cmd := rfl
@[simp] theorem complete_ops (ws : ResultWrites) : (s.complete ws).ops = s.ops := rfl
@[simp] theorem complete_res (ws : ResultWrites) : (s.complete ws).res = s.res.setAll ws := rfl
@[simp] theorem complete_latch (ws : ResultWrites) : (s.complete ws).latch = {} := rfl
@[simp] theorem complete_race (ws : ResultWrites) : (s.complete ws).race = {} := rfl
@[simp] theorem complete_mem (ws : ResultWrites) : (s.complete ws).mem = s.mem := rfl
@[simp] theorem complete_platform (ws : ResultWrites) : (s.complete ws).platform = s.platform := rfl
@[simp] theorem complete_turns (ws : ResultWrites) : (s.complete ws).turns = s.turns := rfl
@[simp] theorem complete_rdata (ws : ResultWrites) : (s.complete ws).rdata = s.rdata := rfl
@[simp] theorem complete_free (ws : ResultWrites) : (s.complete ws).free = s.free := rfl

/-! ### State.raiseError -/

@[simp] theorem raiseError_params (e : ErrCode) : (s.raiseError e).params = s.params := rfl
@[simp] theorem raiseError_irqEn (e : ErrCode) : (s.raiseError e).irqEn = s.irqEn := rfl
@[simp] theorem raiseError_status (e : ErrCode) : (s.raiseError e).status = s.status.failed e := rfl
@[simp] theorem raiseError_cmd (e : ErrCode) : (s.raiseError e).cmd = s.cmd := rfl
@[simp] theorem raiseError_ops (e : ErrCode) : (s.raiseError e).ops = s.ops := rfl
@[simp] theorem raiseError_res (e : ErrCode) : (s.raiseError e).res = s.res := rfl
@[simp] theorem raiseError_latch (e : ErrCode) : (s.raiseError e).latch = {} := rfl
@[simp] theorem raiseError_race (e : ErrCode) : (s.raiseError e).race = {} := rfl
@[simp] theorem raiseError_mem (e : ErrCode) : (s.raiseError e).mem = s.mem := rfl
@[simp] theorem raiseError_platform (e : ErrCode) : (s.raiseError e).platform = s.platform := rfl
@[simp] theorem raiseError_turns (e : ErrCode) : (s.raiseError e).turns = s.turns := rfl
@[simp] theorem raiseError_rdata (e : ErrCode) : (s.raiseError e).rdata = s.rdata := rfl
@[simp] theorem raiseError_free (e : ErrCode) : (s.raiseError e).free = s.free := rfl

/-! ### State.store -/

@[simp] theorem store_params (cs : List Host.Cell) : (s.store cs).params = s.params := rfl
@[simp] theorem store_irqEn (cs : List Host.Cell) : (s.store cs).irqEn = s.irqEn := rfl
@[simp] theorem store_status (cs : List Host.Cell) : (s.store cs).status = s.status := rfl
@[simp] theorem store_cmd (cs : List Host.Cell) : (s.store cs).cmd = s.cmd := rfl
@[simp] theorem store_ops (cs : List Host.Cell) : (s.store cs).ops = s.ops := rfl
@[simp] theorem store_res (cs : List Host.Cell) : (s.store cs).res = s.res := rfl
@[simp] theorem store_latch (cs : List Host.Cell) : (s.store cs).latch = s.latch := rfl
@[simp] theorem store_race (cs : List Host.Cell) : (s.store cs).race = s.race := rfl
@[simp] theorem store_mem (cs : List Host.Cell) : (s.store cs).mem = Memory.setAll s.mem cs := rfl
@[simp] theorem store_platform (cs : List Host.Cell) : (s.store cs).platform = s.platform := rfl
@[simp] theorem store_turns (cs : List Host.Cell) : (s.store cs).turns = s.turns := rfl
@[simp] theorem store_rdata (cs : List Host.Cell) : (s.store cs).rdata = s.rdata := rfl
@[simp] theorem store_free (cs : List Host.Cell) : (s.store cs).free = s.free := rfl

/-! ### State.anyBytes -/

@[simp] theorem anyBytes_params (as : List Nat) : (s.anyBytes as).params = s.params := rfl
@[simp] theorem anyBytes_irqEn (as : List Nat) : (s.anyBytes as).irqEn = s.irqEn := rfl
@[simp] theorem anyBytes_status (as : List Nat) : (s.anyBytes as).status = s.status := rfl
@[simp] theorem anyBytes_cmd (as : List Nat) : (s.anyBytes as).cmd = s.cmd := rfl
@[simp] theorem anyBytes_ops (as : List Nat) : (s.anyBytes as).ops = s.ops := rfl
@[simp] theorem anyBytes_res (as : List Nat) : (s.anyBytes as).res = s.res := rfl
@[simp] theorem anyBytes_latch (as : List Nat) : (s.anyBytes as).latch = s.latch := rfl
@[simp] theorem anyBytes_race (as : List Nat) : (s.anyBytes as).race = s.race := rfl
@[simp] theorem anyBytes_mem (as : List Nat) : (s.anyBytes as).mem = Memory.setAll s.mem (anyCells as s.free) := rfl
@[simp] theorem anyBytes_platform (as : List Nat) : (s.anyBytes as).platform = s.platform := rfl
@[simp] theorem anyBytes_turns (as : List Nat) : (s.anyBytes as).turns = s.turns := rfl
@[simp] theorem anyBytes_rdata (as : List Nat) : (s.anyBytes as).rdata = s.rdata := rfl
@[simp] theorem anyBytes_free (as : List Nat) : (s.anyBytes as).free = s.free + as.length := rfl

/-! ### State.failCheck -/

@[simp] theorem failCheck_params (e : ErrCode) : (s.failCheck e).params = s.params := rfl
@[simp] theorem failCheck_irqEn (e : ErrCode) : (s.failCheck e).irqEn = s.irqEn := rfl
@[simp] theorem failCheck_status (e : ErrCode) : (s.failCheck e).status = s.status.failed e := rfl
@[simp] theorem failCheck_cmd (e : ErrCode) : (s.failCheck e).cmd = s.cmd := rfl
@[simp] theorem failCheck_ops (e : ErrCode) : (s.failCheck e).ops = s.ops := rfl
@[simp] theorem failCheck_res (e : ErrCode) : (s.failCheck e).res = s.res := rfl
@[simp] theorem failCheck_latch (e : ErrCode) : (s.failCheck e).latch = {} := rfl
@[simp] theorem failCheck_race (e : ErrCode) : (s.failCheck e).race = {} := rfl
@[simp] theorem failCheck_mem (e : ErrCode) :
    (s.failCheck e).mem = Memory.setAll s.mem (anyCells s.race.dst s.free) := rfl
@[simp] theorem failCheck_platform (e : ErrCode) : (s.failCheck e).platform = s.platform := rfl
@[simp] theorem failCheck_turns (e : ErrCode) : (s.failCheck e).turns = s.turns := rfl
@[simp] theorem failCheck_rdata (e : ErrCode) : (s.failCheck e).rdata = s.rdata := rfl
@[simp] theorem failCheck_free (e : ErrCode) : (s.failCheck e).free = s.free + s.race.dst.length := rfl

/-- Without a raced destination byte, a failed check changes memory in nothing. -/
theorem failCheck_quiet (e : ErrCode) (h : s.race.dst = []) : s.failCheck e = s.raiseError e := by
  simp [State.failCheck, State.anyBytes, h, anyCells, Memory.setAll]

/-! ### State.resetEngine -/

@[simp] theorem resetEngine_params : s.resetEngine.params = s.params := rfl
@[simp] theorem resetEngine_irqEn : s.resetEngine.irqEn = false := rfl
@[simp] theorem resetEngine_status : s.resetEngine.status = {} := rfl
@[simp] theorem resetEngine_cmd : s.resetEngine.cmd = 0#32 := rfl
@[simp] theorem resetEngine_ops : s.resetEngine.ops = {} := rfl
@[simp] theorem resetEngine_res : s.resetEngine.res = {} := rfl
@[simp] theorem resetEngine_latch : s.resetEngine.latch = {} := rfl
@[simp] theorem resetEngine_race : s.resetEngine.race = {} := rfl
@[simp] theorem resetEngine_mem : s.resetEngine.mem = Memory.setAll s.mem (anyCells s.runningDst s.free) := rfl
@[simp] theorem resetEngine_platform : s.resetEngine.platform = s.platform := rfl
@[simp] theorem resetEngine_turns : s.resetEngine.turns = s.turns := rfl
@[simp] theorem resetEngine_rdata : s.resetEngine.rdata = s.rdata := rfl
@[simp] theorem resetEngine_free : s.resetEngine.free = s.free + s.runningDst.length := rfl

/-! ### Status -/

variable (f : Status)

@[simp] theorem accepted_busy : f.accepted.busy = true := rfl
@[simp] theorem accepted_done : f.accepted.done = false := rfl
@[simp] theorem accepted_err : f.accepted.err = false := rfl
@[simp] theorem accepted_ovr : f.accepted.ovr = f.ovr := rfl
@[simp] theorem accepted_errCode : f.accepted.errCode = 0x00#8 := rfl
@[simp] theorem dropped_busy : f.dropped.busy = f.busy := rfl
@[simp] theorem dropped_done : f.dropped.done = f.done := rfl
@[simp] theorem dropped_err : f.dropped.err = f.err := rfl
@[simp] theorem dropped_ovr : f.dropped.ovr = true := rfl
@[simp] theorem dropped_errCode : f.dropped.errCode = f.errCode := rfl
@[simp] theorem completed_busy : f.completed.busy = false := rfl
@[simp] theorem completed_done : f.completed.done = true := rfl
@[simp] theorem completed_err : f.completed.err = f.err := rfl
@[simp] theorem completed_ovr : f.completed.ovr = f.ovr := rfl
@[simp] theorem completed_errCode : f.completed.errCode = f.errCode := rfl
@[simp] theorem failed_busy (e : ErrCode) : (f.failed e).busy = false := rfl
@[simp] theorem failed_done (e : ErrCode) : (f.failed e).done = true := rfl
@[simp] theorem failed_err (e : ErrCode) : (f.failed e).err = true := rfl
@[simp] theorem failed_ovr (e : ErrCode) : (f.failed e).ovr = f.ovr := rfl
@[simp] theorem failed_errCode (e : ErrCode) : (f.failed e).errCode = e.code := rfl
@[simp] theorem hostWrite_busy (w : Word) : (f.hostWrite w).busy = f.busy := rfl
@[simp] theorem hostWrite_done (w : Word) : (f.hostWrite w).done = (f.done && !w.getLsbD 1) := rfl
@[simp] theorem hostWrite_err (w : Word) : (f.hostWrite w).err = (f.err && !w.getLsbD 2) := rfl
@[simp] theorem hostWrite_ovr (w : Word) : (f.hostWrite w).ovr = (f.ovr && !w.getLsbD 3) := rfl
@[simp] theorem hostWrite_errCode (w : Word) :
    (f.hostWrite w).errCode = if w.getLsbD 2 then 0x00#8 else f.errCode := rfl

/-! ### Result and operand registers -/

/-- A result register reads as last written; the others keep their values. -/
theorem results_get_set (r : Results) (v : Word) (a b : ResReg) :
    (r.set v a).get b = if b = a then v else r.get b := by
  cases a <;> cases b <;> rfl

/-- An operand register reads as last written; the others keep their values. -/
theorem operands_get_set (o : Operands) (v : Word) (a b : OpReg) :
    (o.set v a).get b = if b = a then v else o.get b := by
  cases a <;> cases b <;> rfl

/-- A result register that a list of writes does not name keeps its value. -/
theorem results_get_setAll_of_not_mem (ws : ResultWrites) (a : ResReg) :
    ∀ r : Results, a ∉ ws.map Prod.fst → (r.setAll ws).get a = r.get a := by
  induction ws with
  | nil => intro r _; rfl
  | cons w ws ih =>
    intro r h
    simp only [List.map_cons, List.mem_cons, not_or] at h
    have := ih (r.set w.2 w.1) h.2
    simpa [Results.setAll, results_get_set, h.1] using this

end Sys2Proof.Machine
end

