-- ==== Sys2Proof/Laws/Memory.lean ====
section
/-! SUPPORT. The memory laws: a read after a write, the frame of a list of writes, little-endian fields, and the
canonical form, which every memory operation keeps. -/

namespace Sys2Proof.Machine

open Sys2Proof

/-! ## One byte -/

/-- A byte reads as last written, and a write leaves every other byte alone. -/
theorem lookup_set (m : Memory) (a b : Nat) (v : Byte) :
    Memory.lookup (Memory.set m a v) b = if b = a then some v else Memory.lookup m b := by
  induction m with
  | nil => simp [Memory.set, Memory.lookup]
  | cons c m ih =>
    obtain ⟨x, u⟩ := c
    simp only [Memory.set]
    split
    · simp [Memory.lookup]
    · split
      · subst_vars; simp only [Memory.lookup]; split <;> simp_all
      · simp only [Memory.lookup, ih]; split <;> simp_all
        omega

/-! ## A list of bytes -/

/-- The last value a list of writes gives an address. -/
def lastCell (cs : List Host.Cell) (a : Nat) : Option Byte :=
  match cs with
  | [] => none
  | c :: cs => (lastCell cs a).or (if c.1 = a then some c.2 else none)

/-- What a list of writes leaves at an address: the last value it gives it, else the old entry. -/
theorem lookup_setAll (cs : List Host.Cell) (a : Nat) :
    ∀ m : Memory, Memory.lookup (Memory.setAll m cs) a = (lastCell cs a).or (Memory.lookup m a) := by
  induction cs with
  | nil => intro m; simp [Memory.setAll, lastCell]
  | cons c cs ih =>
    intro m
    have h := ih (Memory.set m c.1 c.2)
    simp only [Memory.setAll, List.foldl_cons] at h ⊢
    rw [h, lookup_set]
    simp only [lastCell]
    cases lastCell cs a <;> by_cases hc : c.1 = a <;> simp_all [eq_comm]

/-- An address that no write names has no last value. -/
theorem lastCell_eq_none {cs : List Host.Cell} {a : Nat} (h : a ∉ cs.map Prod.fst) : lastCell cs a = none := by
  induction cs with
  | nil => rfl
  | cons c cs ih =>
    simp only [List.map_cons, List.mem_cons, not_or] at h
    simp [lastCell, ih h.2, Ne.symm h.1]

/-- An address that some write names has a last value, and a write that gives it. -/
theorem lastCell_mem {cs : List Host.Cell} {a : Nat} (h : a ∈ cs.map Prod.fst) :
    ∃ v, lastCell cs a = some v ∧ (a, v) ∈ cs := by
  induction cs with
  | nil => simp at h
  | cons c cs ih =>
    by_cases hm : a ∈ cs.map Prod.fst
    · obtain ⟨v, hv, hin⟩ := ih hm
      exact ⟨v, by simp [lastCell, hv], List.mem_cons_of_mem _ hin⟩
    · have hc : c.1 = a := by
        simp only [List.map_cons, List.mem_cons] at h
        rcases h with h | h
        · exact h.symm
        · exact absurd h hm
      refine ⟨c.2, by simp [lastCell, lastCell_eq_none hm, hc], ?_⟩
      subst hc
      exact List.mem_cons_self

/-- The last value of two lists of writes in a row. -/
theorem lastCell_append (xs ys : List Host.Cell) (a : Nat) :
    lastCell (xs ++ ys) a = (lastCell ys a).or (lastCell xs a) := by
  induction xs with
  | nil => simp [lastCell]
  | cons c xs ih => simp [lastCell, ih, Option.or_assoc]

/-- The byte at an address after a list of writes. -/
theorem readByte_store (s : State) (cs : List Host.Cell) (a : Nat) :
    (s.store cs).readByte a = (lastCell cs a).getD (s.readByte a) := by
  simp only [State.readByte, store_mem, lookup_setAll]
  cases lastCell cs a <;> simp

/-- A list of writes leaves every byte it does not name alone. -/
theorem readByte_store_of_not_mem (s : State) (cs : List Host.Cell) (a : Nat) (h : a ∉ cs.map Prod.fst) :
    (s.store cs).readByte a = s.readByte a := by
  simp [readByte_store, lastCell_eq_none h]

/-- Two states with the same memory read the same bytes. -/
theorem readByte_congr {s t : State} (h : s.mem = t.mem) (a : Nat) : s.readByte a = t.readByte a := by
  simp [State.readByte, h]

/-! ## Free bytes -/

/-- The addresses that get free bytes. -/
@[simp] theorem anyCells_fst (as : List Nat) : ∀ n, (anyCells as n).map Prod.fst = as := by
  induction as with
  | nil => intro n; rfl
  | cons a as ih => intro n; simp [anyCells, ih]

/-- Every value written is a free byte of the numbers set aside. -/
theorem anyCells_value (as : List Nat) :
    ∀ n c, c ∈ anyCells as n → ∃ m, n ≤ m ∧ m < n + as.length ∧ c.2 = Config.freeByte m := by
  induction as with
  | nil => intro n c h; simp [anyCells] at h
  | cons a as ih =>
    intro n c h
    simp only [anyCells, List.mem_cons] at h
    rcases h with rfl | h
    · exact ⟨n, le_refl _, by simp, rfl⟩
    · obtain ⟨m, h1, h2, h3⟩ := ih (n + 1) c h
      exact ⟨m, by omega, by simp only [List.length_cons]; omega, h3⟩

/-- "Any value" bytes leave every other byte alone. -/
theorem readByte_anyBytes_of_not_mem (s : State) (as : List Nat) (a : Nat) (h : a ∉ as) :
    (s.anyBytes as).readByte a = s.readByte a := by
  have := readByte_store_of_not_mem s (anyCells as s.free) a (by simpa using h)
  simpa [State.readByte, State.store] using this

/-- The addresses of a span. -/
theorem mem_addrs (x : Span) (a : Nat) : a ∈ x.addrs ↔ x.holds a = true := by
  simp [Span.addrs, Span.holds, List.mem_range'_1]

/-! ## Little-endian fields -/

/-- The addresses a field's bytes go to. -/
theorem cellsLE_fst (n : Nat) : ∀ a v, (cellsLE a n v).map Prod.fst = List.range' a n := by
  induction n with
  | zero => intro a v; rfl
  | succ n ih => intro a v; simp [cellsLE, ih, List.range'_succ]

/-- The byte a field's writes leave at each of its addresses. -/
theorem lastCell_cellsLE (n : Nat) :
    ∀ a v i, i < n → lastCell (cellsLE a n v) (a + i) = some (BitVec.ofNat 8 (v / 256 ^ i)) := by
  induction n with
  | zero => intro a v i h; omega
  | succ n ih =>
    intro a v i h
    rcases i with _ | i
    · have : a ∉ (cellsLE (a + 1) n (v / 256)).map Prod.fst := by
        rw [cellsLE_fst]; simp [List.mem_range'_1]
      simp [cellsLE, lastCell, lastCell_eq_none this]
    · have := ih (a + 1) (v / 256) i (by omega)
      rw [show a + 1 + i = a + (i + 1) by omega, Nat.div_div_eq_div_mul, ← pow_succ'] at this
      simp [cellsLE, lastCell, this]

/-! ## The canonical form -/

/-- A lower bound of the addresses can be lowered. -/
theorem risingFrom_mono (m : Memory) {lo lo' : Nat} (h : lo' ≤ lo) (hm : Memory.risingFrom lo m = true) :
    Memory.risingFrom lo' m = true := by
  cases m with
  | nil => rfl
  | cons c m =>
    simp only [Memory.risingFrom, Bool.and_eq_true, decide_eq_true_eq] at hm ⊢
    exact ⟨by omega, hm.2⟩

/-- A write keeps the addresses strictly rising. -/
theorem risingFrom_set (m : Memory) :
    ∀ lo a v, lo ≤ a → Memory.risingFrom lo m = true → Memory.risingFrom lo (Memory.set m a v) = true := by
  induction m with
  | nil => intro lo a v h _; simp [Memory.set, Memory.risingFrom, h]
  | cons c m ih =>
    intro lo a v h hm
    obtain ⟨x, u⟩ := c
    simp only [Memory.risingFrom, Bool.and_eq_true, decide_eq_true_eq] at hm
    simp only [Memory.set]
    split
    · simp only [Memory.risingFrom, Bool.and_eq_true, decide_eq_true_eq]
      exact ⟨h, by omega, hm.2⟩
    · split
      · subst_vars
        simp only [Memory.risingFrom, Bool.and_eq_true, decide_eq_true_eq]
        exact ⟨h, hm.2⟩
      · simp only [Memory.risingFrom, Bool.and_eq_true, decide_eq_true_eq]
        exact ⟨hm.1, ih (x + 1) a v (by omega) hm.2⟩

/-- A write adds no entry but its own. -/
theorem mem_set (m : Memory) (a : Nat) (v : Byte) (c : Host.Cell) (h : c ∈ Memory.set m a v) :
    c = (a, v) ∨ c ∈ m := by
  induction m with
  | nil => simpa [Memory.set] using h
  | cons d m ih =>
    obtain ⟨x, u⟩ := d
    simp only [Memory.set] at h
    split at h
    · simpa using h
    · split at h
      · simp only [List.mem_cons] at h ⊢
        rcases h with h | h
        · exact .inl h
        · exact .inr (.inr h)
      · simp only [List.mem_cons] at h ⊢
        rcases h with h | h
        · exact .inr (.inl h)
        · rcases ih h with h | h
          · exact .inl h
          · exact .inr (.inr h)

/-- A write inside the address space keeps the canonical form. -/
theorem wf_set (m : Memory) (a : Nat) (v : Byte) (ha : a < 2 ^ 32) (h : Memory.wf m = true) :
    Memory.wf (Memory.set m a v) = true := by
  simp only [Memory.wf, Bool.and_eq_true, List.all_eq_true, decide_eq_true_eq] at h ⊢
  refine ⟨risingFrom_set m 0 a v (Nat.zero_le _) h.1, fun c hc => ?_⟩
  rcases mem_set m a v c hc with rfl | hc
  · exact ha
  · exact h.2 c hc

/-- A list of writes inside the address space keeps the canonical form. -/
theorem wf_setAll (cs : List Host.Cell) :
    ∀ m : Memory, (∀ c ∈ cs, c.1 < 2 ^ 32) → Memory.wf m = true → Memory.wf (Memory.setAll m cs) = true := by
  induction cs with
  | nil => intro m _ h; exact h
  | cons c cs ih =>
    intro m hcs h
    exact ih _ (fun d hd => hcs d (List.mem_cons_of_mem _ hd))
      (wf_set m c.1 c.2 (hcs c List.mem_cons_self) h)

/-- Storing bytes inside the address space keeps the canonical form. -/
theorem wf_store (s : State) (cs : List Host.Cell) (hcs : ∀ c ∈ cs, c.1 < 2 ^ 32) (h : Memory.wf s.mem = true) :
    Memory.wf (s.store cs).mem = true := wf_setAll cs s.mem hcs h

/-- "Any value" bytes inside the address space keep the canonical form. -/
theorem wf_anyBytes (s : State) (as : List Nat) (has : ∀ a ∈ as, a < 2 ^ 32) (h : Memory.wf s.mem = true) :
    Memory.wf (s.anyBytes as).mem = true := by
  refine wf_setAll _ s.mem (fun c hc => has c.1 ?_) h
  have : c.1 ∈ (anyCells as s.free).map Prod.fst := List.mem_map_of_mem hc
  simpa using this

/-- Memory after reset is in its canonical form. -/
theorem wf_reset : Memory.wf State.reset.mem = true := rfl

end Sys2Proof.Machine
end

