-- ==== Sys2Proof/Laws/Ops.lean ====
section
/-! SUPPORT. What each shared operation of the engine and the host can do, said once. -/

namespace Sys2Proof.Machine

open Sys2Proof

/-! ## Checks -/

/-- The first failing check is one of the checks. -/
theorem firstFailure_eq_some {cs : List Check} {e : ErrCode} (h : firstFailure cs = some e) : (true, e) ∈ cs := by
  induction cs with
  | nil => simp [firstFailure] at h
  | cons c cs ih =>
    obtain ⟨f, e'⟩ := c
    cases f
    · simp only [firstFailure, Bool.false_eq_true, if_false] at h
      exact List.mem_cons_of_mem _ (ih h)
    · simp only [firstFailure, if_true, Option.some.injEq] at h
      subst h
      exact List.mem_cons_self

/-- No check fails exactly when each of them passes. -/
theorem firstFailure_eq_none {cs : List Check} : firstFailure cs = none ↔ ∀ c ∈ cs, c.1 = false := by
  induction cs with
  | nil => simp [firstFailure]
  | cons c cs ih =>
    obtain ⟨f, e⟩ := c
    cases f <;> simp [firstFailure, ih]

/-! ## The end of a command -/

/-- A command either fails a check or is finished. -/
theorem runCommand_cases {s t : State} {c : Option ErrCode} {j : Job} (h : s.runCommand c j = .next t) :
    (∃ e, c = some e ∧ t = s.failCheck e) ∨ (c = none ∧ t = s.finish j) := by
  cases c with
  | none => right; simpa [State.runCommand, eq_comm] using h
  | some e => left; exact ⟨e, rfl, by simpa [State.runCommand, eq_comm] using h⟩

/-- A command that passes its checks ends in a bus error, as a race on its source, or as its pseudocode says. -/
theorem finish_cases (s : State) (j : Job) :
    (s.platform.faults j.touched = true ∧ s.finish j = (s.anyBytes j.dst.addrs).raiseError .busError) ∨
    (s.platform.faults j.touched = false ∧ s.race.src = true ∧
      ∃ n, s.finish j = { s.anyBytes j.dst.addrs with free := n }.complete
        (anyResults j.results (s.anyBytes j.dst.addrs).free)) ∨
    (s.platform.faults j.touched = false ∧ s.race.src = false ∧
      s.finish j = ((s.store j.cells).anyBytes s.race.dst).complete j.results) := by
  unfold State.finish
  cases hf : s.platform.faults j.touched
  · cases hr : s.race.src
    · exact .inr (.inr ⟨rfl, rfl, by simp⟩)
    · exact .inr (.inl ⟨rfl, rfl, _, by simp; rfl⟩)
  · exact .inl ⟨rfl, by simp⟩

/-- Without a bus error and without a race, a command ends as its pseudocode says. -/
theorem finish_quiet (s : State) (j : Job) (hf : s.platform.faults j.touched = false) (hr : s.race = {}) :
    s.finish j = ({ s with mem := Memory.setAll s.mem j.cells }).complete j.results := by
  simp [State.finish, hf, hr, State.anyBytes, State.store, anyCells, Memory.setAll]

/-- What the end of a command leaves alone. -/
theorem finish_frame (s : State) (j : Job) :
    (s.finish j).params = s.params ∧ (s.finish j).irqEn = s.irqEn ∧ (s.finish j).cmd = s.cmd ∧
    (s.finish j).ops = s.ops ∧ (s.finish j).platform = s.platform ∧ (s.finish j).turns = s.turns ∧
    (s.finish j).rdata = s.rdata := by
  rcases finish_cases s j with ⟨_, h⟩ | ⟨_, _, n, h⟩ | ⟨_, _, h⟩ <;> rw [h] <;> simp

/-- The end of a command: the engine is idle, DONE is set, OVR is as it was, the hidden state is gone. -/
theorem finish_status (s : State) (j : Job) :
    (s.finish j).status.busy = false ∧ (s.finish j).status.done = true ∧
    (s.finish j).status.ovr = s.status.ovr ∧ (s.finish j).latch = {} ∧ (s.finish j).race = {} := by
  rcases finish_cases s j with ⟨_, h⟩ | ⟨_, _, n, h⟩ | ⟨_, _, h⟩ <;> rw [h] <;> simp

/-- Free values are given to the registers that the writes name. -/
@[simp] theorem anyResults_fst (ws : ResultWrites) (n : Nat) : (anyResults ws n).map Prod.fst = ws.map Prod.fst := by
  induction ws generalizing n with
  | nil => rfl
  | cons w ws ih => simp [anyResults, ih]

/-- After a race on the source, a register that the writes name holds one of the free words drawn for them. -/
theorem results_get_setAll_anyResults {a : ResReg} (ws : ResultWrites) (r : Results) (n : Nat)
    (h : a ∈ ws.map Prod.fst) :
    ∃ m, n ≤ m ∧ m < n + ws.length ∧ (r.setAll (anyResults ws n)).get a = Config.freeWord m := by
  induction ws generalizing r n with
  | nil => simp at h
  | cons w ws ih =>
    obtain ⟨b, v⟩ := w
    have e : r.setAll (anyResults ((b, v) :: ws) n) = (r.set (Config.freeWord n) b).setAll (anyResults ws (n + 1)) := rfl
    rw [e, List.length_cons]
    by_cases hm : a ∈ ws.map Prod.fst
    · obtain ⟨m, h1, h2, h3⟩ := ih (r.set (Config.freeWord n) b) (n + 1) hm
      exact ⟨m, by omega, by omega, h3⟩
    · refine ⟨n, Nat.le_refl n, by omega, ?_⟩
      have hb : a = b := by simpa [hm] using h
      rw [results_get_setAll_of_not_mem _ _ _ (by simpa using hm), results_get_set, if_pos hb]

/-- The header command leaves memory alone, whatever it answers. -/
theorem finishParse_mem (s : State) (r : Except ErrCode ResultWrites) : (s.finishParse r).mem = s.mem := by
  cases r <;> simp only [State.finishParse, State.spendHeader] <;> split <;> simp

/-! ## The host's accesses -/

/-- A host register access is refused exactly when its shape or its address is outside the interface. -/
theorem regAccessRefusal_eq_none (P : Params) (addr : Word) (size : Nat) :
    regAccessRefusal P addr size = none ↔
      regOffset P addr < Config.regWindow ∧ size = 4 ∧ regOffset P addr % 4 = 0 := by
  unfold regAccessRefusal
  by_cases h1 : regOffset P addr ≥ Config.regWindow
  · simp [h1]
  · by_cases h2 : size ≠ 4 ∨ regOffset P addr % 4 ≠ 0
    · simp only [h1, h2, if_true, if_false]
      constructor
      · intro h; cases h
      · rintro ⟨_, h3, h4⟩; rcases h2 with h2 | h2 <;> contradiction
    · simp only [h1, h2, if_false, true_iff]
      push Not at h1 h2
      exact ⟨h1, h2.1, h2.2⟩

/-- A host write of CMD is dropped, accepted, or refused because a buffer lies on a device. -/
theorem writeCmd_cases {s t : State} {w : Word} (h : s.writeCmd w = .next t) :
    (s.status.busy = true ∧ t = { s with status := s.status.dropped }) ∨ (s.status.busy = false ∧ t = s.accept w) := by
  unfold State.writeCmd at h
  cases hb : s.status.busy
  · right
    simp only [hb, Bool.false_eq_true, if_false] at h
    split at h
    · split at h
      · cases h
      · exact ⟨rfl, by simpa [eq_comm] using h⟩
    · exact ⟨rfl, by simpa [eq_comm] using h⟩
  · left
    simp only [hb, if_true] at h
    exact ⟨rfl, by simpa [eq_comm] using h⟩

/-- A host register write: what each register does with it. -/
theorem writeReg_cases {s t : State} {r : Reg} {w : Word} (h : s.writeReg r w = .next t) :
    t = s ∨ t = s.resetEngine ∨ t = { s with irqEn := w.getLsbD 0 } ∨
    t = { s with status := s.status.hostWrite w } ∨ (s.status.busy = true ∧ t = { s with status := s.status.dropped }) ∨
    (s.status.busy = false ∧ t = s.accept w) ∨ ∃ a, t = { s with ops := s.ops.set w a } := by
  cases r with
  | id => left; simpa [State.writeReg, eq_comm] using h
  | ctrl =>
    simp only [State.writeReg, State.writeCtrl] at h
    split at h
    · exact .inr (.inl (by simpa [eq_comm] using h))
    · exact .inr (.inr (.inl (by simpa [eq_comm] using h)))
  | status => exact .inr (.inr (.inr (.inl (by simpa [State.writeReg, eq_comm] using h))))
  | cmd =>
    rcases writeCmd_cases (show s.writeCmd w = .next t from h) with h | h
    · exact .inr (.inr (.inr (.inr (.inl h))))
    · exact .inr (.inr (.inr (.inr (.inr (.inl h)))))
  | operand a =>
    exact .inr (.inr (.inr (.inr (.inr (.inr ⟨a, by simpa [State.writeReg, eq_comm] using h⟩)))))
  | result a => left; simpa [State.writeReg, eq_comm] using h

/-- A host memory access: a fault, a refusal, or one of the four outcomes of R83 and R86. -/
theorem hostMemWrite_cases {s t : State} {a : Word} {v : Byte} (h : s.hostMemWrite a v = .next t) :
    (s.inRunningDst a.toNat = true ∧ t = { s with race := { s.race with dst := insertAddr a.toNat s.race.dst } }) ∨
    (s.inRunningDst a.toNat = false ∧ s.inRunningSrc a.toNat = true ∧
      t = { s.store [(a.toNat, v)] with race := { s.race with src := true } }) ∨
    (s.inRunningDst a.toNat = false ∧ s.inRunningSrc a.toNat = false ∧ t = s.store [(a.toNat, v)]) := by
  unfold State.hostMemWrite at h
  split at h
  · next o ho =>
    simp only [State.hostMemStop] at ho
    split at ho
    · cases ho; cases h
    · split at ho
      · cases ho; cases h
      · cases ho
  · cases hd : s.inRunningDst a.toNat
    · cases hs : s.inRunningSrc a.toNat
      · exact .inr (.inr ⟨rfl, rfl, by simpa [hd, hs, eq_comm] using h⟩)
      · exact .inr (.inl ⟨rfl, rfl, by simpa [hd, hs, eq_comm] using h⟩)
    · exact .inl ⟨rfl, by simpa [hd, eq_comm] using h⟩

/-- The set of raced addresses after one more. -/
theorem mem_insertAddr (a b : Nat) (l : List Nat) : b ∈ insertAddr a l ↔ b = a ∨ b ∈ l := by
  induction l with
  | nil => simp [insertAddr]
  | cons c l ih =>
    simp only [insertAddr]
    split
    · simp
    · split
      · subst_vars; simp
      · simp only [List.mem_cons, ih]; tauto

end Sys2Proof.Machine
end

