-- ==== Sys2Proof/Laws/PerInstr.lean ====
section
/-! SUPPORT. Families of statements about every instruction as syntax, one lemma for each constructor. -/

namespace Sys2Proof.Laws

open Sys2Proof

/-- The OPCODE of a command (30_encoding R106). -/
def opcodeOf : Instr → Nat
  | .nop => 0x00
  | .decBlock => 0x01
  | .encBlock _ _ _ _ => 0x02
  | .tileGet => 0x03
  | .tilePut => 0x04
  | .encImage _ _ _ _ => 0x05
  | .decImage => 0x06
  | .ddsWriteHdr => 0x07
  | .ddsParseHdr => 0x08

/-- A command's word carries its OPCODE in bits 7:0 (R101) and is legal (R107). -/
def EncodedWord.Statement (i : Instr) : Prop :=
  (encode i).extractLsb' 0 8 = BitVec.ofNat 8 (opcodeOf i) ∧ wellFormedWord (encode i) = true

theorem EncodedWord.nop : EncodedWord.Statement .nop := by unfold EncodedWord.Statement; decide
theorem EncodedWord.decBlock : EncodedWord.Statement .decBlock := by unfold EncodedWord.Statement; decide
theorem EncodedWord.encBlock (m : Method) (e d r : Bool) : EncodedWord.Statement (.encBlock m e d r) := by
  unfold EncodedWord.Statement; cases m <;> cases e <;> cases d <;> cases r <;> decide
theorem EncodedWord.tileGet : EncodedWord.Statement .tileGet := by unfold EncodedWord.Statement; decide
theorem EncodedWord.tilePut : EncodedWord.Statement .tilePut := by unfold EncodedWord.Statement; decide
theorem EncodedWord.encImage (m : Method) (e d r : Bool) : EncodedWord.Statement (.encImage m e d r) := by
  unfold EncodedWord.Statement; cases m <;> cases e <;> cases d <;> cases r <;> decide
theorem EncodedWord.decImage : EncodedWord.Statement .decImage := by unfold EncodedWord.Statement; decide
theorem EncodedWord.ddsWriteHdr : EncodedWord.Statement .ddsWriteHdr := by unfold EncodedWord.Statement; decide
theorem EncodedWord.ddsParseHdr : EncodedWord.Statement .ddsParseHdr := by unfold EncodedWord.Statement; decide

end Sys2Proof.Laws
end

