-- ==== Sys2Proof/Laws/Step.lean ====
section
/-! SUPPORT. What a command, the engine and a host access can do, said once: the inversion lemmas of `exec`,
`engineStep` and the register accesses. -/

namespace Sys2Proof.Machine

open Sys2Proof

/-! ## Commands -/

/-- The job of a command; DDS_PARSE_HDR, which is not ended by `State.finish`, has the empty one. -/
def jobOf (i : Instr) (s : State) : Job :=
  match i with
  | .nop => ⟨⟨0, 0⟩, [], [], []⟩
  | .decBlock => jobDecBlock s
  | .encBlock m e d r => jobEncBlock m e d r s
  | .tileGet => jobTileGet s
  | .tilePut => jobTilePut s
  | .encImage m e d r => jobEncImage m e d r s
  | .decImage => jobDecImage s
  | .ddsWriteHdr => jobDdsWriteHdr s
  | .ddsParseHdr => ⟨⟨0, 0⟩, [], [], []⟩

/-- Every command but DDS_PARSE_HDR is its checks and then its job. -/
theorem exec_eq_runCommand (i : Instr) (s : State) (h : i ≠ .ddsParseHdr) :
    exec i s = s.runCommand (preError i s.latch.ops) (jobOf i s) := by
  cases i <;> first | rfl | exact absurd rfl h

/-- The destination range of a job is the one R73 gives its command. -/
theorem jobOf_dst (i : Instr) (s : State) : (jobOf i s).dst = dstSpan i s.latch.ops := by
  cases i <;> rfl

/-- The result registers of a job are those the spec gives its command. -/
theorem jobOf_results (i : Instr) (s : State) (h : i ≠ .ddsParseHdr) :
    (jobOf i s).results.map Prod.fst = resultRegs i := by
  cases i <;> first | rfl | exact absurd rfl h

/-- A parsed header writes the result registers the spec gives DDS_PARSE_HDR. -/
theorem parsedResults_fst (o : Operands) (w h : Nat) : (parsedResults o w h).map Prod.fst = resultRegs .ddsParseHdr := rfl

/-- A header that parses gives the results of some dimensions. -/
theorem parseHeader_ok {s : State} {ws : ResultWrites} (h : s.parseHeader = .ok ws) :
    ∃ w h, ws = parsedResults s.latch.ops w h := by
  unfold State.parseHeader at h
  repeat' split at h
  all_goals first | (cases h; done) | (cases h; exact ⟨_, _, rfl⟩)

/-- A byte a command must access lies in a span it touches. -/
theorem touched_of_mustAccess {i : Instr} {s : State} {a : Nat} (h : mustAccess i s.latch.ops a) :
    i ≠ .ddsParseHdr ∧ ∃ x ∈ (jobOf i s).touched, x.holds a = true := by
  cases i with
  | nop => exact h.elim
  | ddsParseHdr => exact h.elim
  | tileGet =>
    refine ⟨by simp, ?_⟩
    rcases h with ⟨x, hx, h⟩ | h
    · exact ⟨x, List.mem_append_left _ hx, h⟩
    · exact ⟨_, List.mem_append_right _ (List.mem_singleton_self _), h⟩
  | tilePut =>
    refine ⟨by simp, ?_⟩
    rcases h with h | ⟨x, hx, h⟩
    · exact ⟨_, List.mem_cons_self, h⟩
    · exact ⟨x, List.mem_cons_of_mem _ hx, h⟩
  | ddsWriteHdr => exact ⟨by simp, _, List.mem_singleton_self _, h⟩
  | decBlock =>
    exact ⟨by simp, h.elim (fun h => ⟨_, List.mem_cons_self, h⟩)
      fun h => ⟨_, List.mem_cons_of_mem _ (List.mem_singleton_self _), h⟩⟩
  | encBlock m e d r =>
    exact ⟨by simp, h.elim (fun h => ⟨_, List.mem_cons_self, h⟩)
      fun h => ⟨_, List.mem_cons_of_mem _ (List.mem_singleton_self _), h⟩⟩
  | encImage m e d r =>
    exact ⟨by simp, h.elim (fun h => ⟨_, List.mem_cons_self, h⟩)
      fun h => ⟨_, List.mem_cons_of_mem _ (List.mem_singleton_self _), h⟩⟩
  | decImage =>
    exact ⟨by simp, h.elim (fun h => ⟨_, List.mem_cons_self, h⟩)
      fun h => ⟨_, List.mem_cons_of_mem _ (List.mem_singleton_self _), h⟩⟩

/-- A command whose checks fail ends with the first error. -/
theorem exec_of_preError {i : Instr} {s : State} {e : ErrCode} (h : preError i s.latch.ops = some e) :
    exec i s = .next (s.failCheck e) := by
  cases i <;> simp only [exec, execNop, execDecBlock, execEncBlock, execTileGet, execTilePut, execEncImage,
    execDecImage, execDdsWriteHdr, execDdsParseHdr, h, State.runCommand]

/-- A command whose checks pass is finished. -/
theorem exec_of_preError_none {i : Instr} {s : State} (h : preError i s.latch.ops = none) :
    exec i s = .next (if i = .ddsParseHdr then s.finishParse s.parseHeader else s.finish (jobOf i s)) := by
  cases i <;> simp [exec, execNop, execDecBlock, execEncBlock, execTileGet, execTilePut, execEncImage,
    execDecImage, execDdsWriteHdr, execDdsParseHdr, h, State.runCommand, jobOf]

/-- Every command answers a next state: an error of its checks, the parsed header, or the end of its job. -/
theorem exec_cases (i : Instr) (s : State) : ∃ t, exec i s = .next t ∧
    ((∃ e, preError i s.latch.ops = some e ∧ t = s.failCheck e) ∨
     (preError i s.latch.ops = none ∧ i = .ddsParseHdr ∧ t = s.finishParse s.parseHeader) ∨
     (preError i s.latch.ops = none ∧ i ≠ .ddsParseHdr ∧ t = s.finish (jobOf i s))) := by
  cases h : preError i s.latch.ops with
  | some e => exact ⟨_, exec_of_preError h, .inl ⟨e, rfl, rfl⟩⟩
  | none =>
    by_cases hi : i = .ddsParseHdr
    · exact ⟨_, by rw [exec_of_preError_none h, if_pos hi], .inr (.inl ⟨rfl, hi, rfl⟩)⟩
    · exact ⟨_, by rw [exec_of_preError_none h, if_neg hi], .inr (.inr ⟨rfl, hi, rfl⟩)⟩

/-- The header command ends in an error or completes, with the free counter moved only after a race. -/
theorem finishParse_cases (s : State) (r : Except ErrCode ResultWrites) :
    (∃ e n, s.finishParse r = { s with free := n }.raiseError e) ∨
    (∃ ws n, s.finishParse r = { s with free := n }.complete ws) := by
  cases r with
  | error e =>
    left
    simp only [State.finishParse, State.spendHeader]
    split
    · exact ⟨e, s.free + 128, rfl⟩
    · exact ⟨e, s.free, rfl⟩
  | ok ws =>
    right
    simp only [State.finishParse, State.spendHeader]
    split
    · exact ⟨_, s.free + 128 + ws.length, rfl⟩
    · exact ⟨ws, s.free, rfl⟩

/-- What no command changes, and how every command leaves the engine (R45, R361). -/
theorem exec_frame {i : Instr} {s t : State} (h : exec i s = .next t) :
    sameHostSide s t ∧ t.status.busy = false ∧ t.status.done = true ∧ t.latch = {} ∧ t.race = {} := by
  obtain ⟨u, hu, hc⟩ := exec_cases i s
  rw [h] at hu
  cases hu
  rcases hc with ⟨e, _, rfl⟩ | ⟨_, _, rfl⟩ | ⟨_, _, rfl⟩
  · simp [sameHostSide]
  · rcases finishParse_cases s s.parseHeader with ⟨e, n, h⟩ | ⟨ws, n, h⟩ <;> rw [h] <;> simp [sameHostSide]
  · have hf := finish_frame s (jobOf i s)
    have hs := finish_status s (jobOf i s)
    simp [sameHostSide, hf, hs]

/-- How STATUS ends: with an error code, or without one (R45). -/
theorem exec_status {i : Instr} {s t : State} (h : exec i s = .next t) :
    (∃ e : ErrCode, t.status = s.status.failed e) ∨ t.status = s.status.completed := by
  obtain ⟨u, hu, hc⟩ := exec_cases i s
  rw [h] at hu
  cases hu
  rcases hc with ⟨e, _, rfl⟩ | ⟨_, _, rfl⟩ | ⟨_, _, rfl⟩
  · exact .inl ⟨e, rfl⟩
  · rcases finishParse_cases s s.parseHeader with ⟨e, n, h⟩ | ⟨ws, n, h⟩ <;> rw [h]
    · exact .inl ⟨e, rfl⟩
    · exact .inr rfl
  · rcases finish_cases s (jobOf i s) with ⟨_, h⟩ | ⟨_, _, n, h⟩ | ⟨_, _, h⟩ <;> rw [h]
    · exact .inl ⟨.busError, rfl⟩
    · exact .inr rfl
    · exact .inr rfl

/-- What a command does depends on STATUS only in the STATUS it leaves: with other flags before it, it ends the same
way, with the same error or none. -/
theorem exec_setStatus {i : Instr} {s t : State} (f : Status) (h : exec i s = .next t) :
    ∃ g, exec i { s with status := f } = .next { t with status := g } ∧
      ((∃ e : ErrCode, t.status = s.status.failed e ∧ g = f.failed e) ∨
       (t.status = s.status.completed ∧ g = f.completed)) := by
  have hj : jobOf i { s with status := f } = jobOf i s := by cases i <;> rfl
  cases hp : preError i s.latch.ops with
  | some e =>
    rw [exec_of_preError hp] at h; cases h
    exact ⟨f.failed e, by rw [exec_of_preError (s := { s with status := f }) hp]; rfl, .inl ⟨e, rfl, rfl⟩⟩
  | none =>
    rw [exec_of_preError_none hp] at h; cases h
    rw [exec_of_preError_none (s := { s with status := f }) hp]
    split
    · have hq : ({ s with status := f } : State).parseHeader = s.parseHeader := rfl
      rw [hq]
      cases s.parseHeader with
      | error e =>
        refine ⟨f.failed e, ?_, .inl ⟨e, ?_, rfl⟩⟩ <;>
          simp only [State.finishParse, State.spendHeader] <;> split <;> rfl
      | ok ws =>
        refine ⟨f.completed, ?_, .inr ⟨?_, rfl⟩⟩ <;>
          simp only [State.finishParse, State.spendHeader] <;> split <;> rfl
    · rw [hj]
      cases hf : s.platform.faults (jobOf i s).touched
      · refine ⟨f.completed, ?_, .inr ⟨?_, rfl⟩⟩ <;> simp only [State.finish, hf, Bool.false_eq_true, if_false] <;>
          split <;> rfl
      · exact ⟨f.failed .busError, by simp only [State.finish, hf, if_true]; rfl,
          .inl ⟨.busError, by simp only [State.finish, hf, if_true]; rfl, rfl⟩⟩

/-- The same of the engine's step: it depends on STATUS, beyond BUSY, only in the STATUS it leaves. -/
theorem engineStep_setStatus {s : State} (f : Status) (hb : s.status.busy = true) (hf : f.busy = true) :
    ∃ t g, engineStep s = .next t ∧ engineStep { s with status := f } = .next { t with status := g } ∧
      ((∃ e : ErrCode, t.status = s.status.failed e ∧ g = f.failed e) ∨
       (t.status = s.status.completed ∧ g = f.completed)) := by
  unfold engineStep
  simp only [hb, hf, if_true]
  cases decode s.latch.cmd with
  | error e => exact ⟨_, f.failed .illegalCommand, rfl, rfl, .inl ⟨.illegalCommand, rfl, rfl⟩⟩
  | ok i =>
    obtain ⟨t, ht, _⟩ := exec_cases i s
    obtain ⟨g, h1, h2⟩ := exec_setStatus f ht
    exact ⟨t, g, ht, h1, h2⟩

/-! ## Written bytes -/

theorem holds_of_cellsLE {a n v : Nat} {c : Host.Cell} (h : c ∈ cellsLE a n v) : a ≤ c.1 ∧ c.1 < a + n := by
  have : c.1 ∈ (cellsLE a n v).map Prod.fst := List.mem_map_of_mem h
  rwa [cellsLE_fst, List.mem_range'_1] at this

theorem holds_of_pixelCells {a : Nat} {q : RGBA} {c : Host.Cell} (h : c ∈ pixelCells a q) : a ≤ c.1 ∧ c.1 < a + 4 := by
  simp only [pixelCells, List.mem_append] at h
  rcases h with ((h | h) | h) | h <;> have := holds_of_cellsLE h <;> omega

theorem holds_of_compressedCells {a : Nat} {e : Encoded} {c : Host.Cell} (h : c ∈ compressedCells a e) :
    a ≤ c.1 ∧ c.1 < a + 8 := by
  simp only [compressedCells, List.mem_append] at h
  rcases h with (h | h) | h <;> have := holds_of_cellsLE h <;> omega

/-- A pixel of the image lies in the image's bytes (R68). -/
theorem pixelAddr_bounds {A W H x y : Nat} (hx : x < W) (hy : y < H) :
    A ≤ pixelAddr A W x y ∧ pixelAddr A W x y + 4 ≤ A + W * H * 4 := by
  simp only [pixelAddr]
  refine ⟨by omega, ?_⟩
  have h1 : (y + 1) * W ≤ H * W := Nat.mul_le_mul_right W hy
  have h2 : y * W + x + 1 ≤ W * H := by rw [Nat.mul_comm W H]; nlinarith
  omega

theorem holds_of_placeCells {A W H bx y : Nat} {q : Block16} {c : Host.Cell} (h : c ∈ placeCells A W H bx y q) :
    A ≤ c.1 ∧ c.1 < A + W * H * 4 := by
  simp only [placeCells, insidePixels, List.mem_flatMap, List.mem_filter, decide_eq_true_eq] at h
  obtain ⟨k, ⟨_, hx, hy⟩, hc⟩ := h
  have h1 := holds_of_pixelCells hc
  have h2 := pixelAddr_bounds (A := A) hx hy
  omega

theorem headerWords_length (o : Operands) : (headerWords o).length = 32 := rfl

/-- What it is for a span to hold an address. -/
theorem holds_iff (b n a : Nat) : Span.holds ⟨b, n⟩ a = true ↔ b ≤ a ∧ a < b + n := by simp [Span.holds]

/-- A job writes only bytes of its destination range (R73). -/
theorem jobOf_cells (i : Instr) (s : State) : ∀ c ∈ (jobOf i s).cells, (dstSpan i s.latch.ops).holds c.1 = true := by
  intro c hc
  cases i with
  | nop => simp [jobOf] at hc
  | ddsParseHdr => simp [jobOf] at hc
  | decBlock =>
    simp only [jobOf, jobDecBlock, blockCells, List.mem_flatMap, List.mem_range] at hc
    obtain ⟨k, hk, hc⟩ := hc
    have := holds_of_pixelCells hc
    simp only [dstSpan, holds_iff]; omega
  | tileGet =>
    simp only [jobOf, jobTileGet, blockCells, List.mem_flatMap, List.mem_range] at hc
    obtain ⟨k, hk, hc⟩ := hc
    have := holds_of_pixelCells hc
    simp only [dstSpan, holds_iff]; omega
  | encBlock m e d r =>
    have := holds_of_compressedCells (show c ∈ compressedCells _ _ from hc)
    simp only [dstSpan, holds_iff]; omega
  | tilePut =>
    have := holds_of_placeCells (show c ∈ placeCells _ _ _ _ _ _ from hc)
    simp only [dstSpan, Operands.imageSize, holds_iff]; omega
  | decImage =>
    simp only [jobOf, jobDecImage, List.mem_flatMap] at hc
    obtain ⟨k, _, hc⟩ := hc
    have := holds_of_placeCells (show c ∈ placeCells _ _ _ _ _ _ from hc)
    simp only [dstSpan, Operands.imageSize, holds_iff]; omega
  | encImage m e d r =>
    simp only [jobOf, jobEncImage, payloadCells, List.mem_flatMap] at hc
    obtain ⟨⟨x, k⟩, hk, hc⟩ := hc
    have hk := (List.mem_zipIdx hk).2.1
    simp only [List.length_map, blockIndices, List.length_range] at hk
    have := holds_of_compressedCells hc
    simp only [dstSpan, Operands.payloadSize, holds_iff]; omega
  | ddsWriteHdr =>
    simp only [jobOf, jobDdsWriteHdr, headerCells, List.mem_flatMap] at hc
    obtain ⟨⟨x, k⟩, hk, hc⟩ := hc
    have hk := (List.mem_zipIdx hk).2.1
    rw [headerWords_length] at hk
    have := holds_of_cellsLE hc
    simp only [dstSpan, holds_iff]; omega

/-- A command that passes its checks has its destination range inside the address space (R366). -/
theorem dst_lt_of_preError_none {i : Instr} {o : Operands} (h : preError i o = none) {a : Nat}
    (ha : (dstSpan i o).holds a = true) : a < 2 ^ 32 := by
  have hc := firstFailure_eq_none.1 h
  have key : checkRange (dstSpan i o) ∈ checks i o → a < 2 ^ 32 := by
    intro hm
    have := hc _ hm
    simp only [checkRange, decide_eq_false_iff_not] at this
    simp only [Span.holds, decide_eq_true_eq] at ha
    omega
  cases i <;> first
    | (simp [dstSpan, Span.holds] at ha; done)
    | exact key (by simp [checks, rangeChecks])

/-- What it is for the part of a span inside the address space to hold an address. -/
theorem holds_clip (x : Span) (a : Nat) : x.clip.holds a = true ↔ x.holds a = true ∧ a < 2 ^ 32 := by
  obtain ⟨b, n⟩ := x
  simp only [Span.clip, holds_iff]; omega

/-- The ranges of a command word that decodes. -/
theorem commandSpans_of_decode {w : Word} {i : Instr} (h : decode w = .ok i) (o : Operands) :
    commandSpans w o = some ((srcSpan i o).clip, (dstSpan i o).clip) := by simp [commandSpans, h]

/-- The list and the test of the running command's destination range say the same. -/
theorem mem_runningDst (s : State) (a : Nat) : a ∈ s.runningDst ↔ s.inRunningDst a = true := by
  unfold State.runningDst State.inRunningDst
  cases s.status.busy
  · simp
  · cases commandSpans s.latch.cmd s.latch.ops with
    | none => simp
    | some p => simp [mem_addrs]

/-- The running command's destination range lies inside the address space. -/
theorem lt_of_inRunningDst {s : State} {a : Nat} (h : s.inRunningDst a = true) : a < 2 ^ 32 := by
  simp only [State.inRunningDst, Bool.and_eq_true] at h
  cases hd : decode s.latch.cmd with
  | error e => simp [commandSpans, hd] at h
  | ok i =>
    rw [commandSpans_of_decode hd] at h
    exact ((holds_clip _ _).1 h.2).2

/-! ## The engine and the host -/

/-- Two parts of one step answer a next state when both do. -/
theorem andThen_eq_next {o : Out} {f : State → Out} {t : State} (h : Out.andThen o f = .next t) :
    ∃ s, o = .next s ∧ f s = .next t := by
  cases o with
  | next s => exact ⟨s, rfl, h⟩
  | fault _ => cases h
  | refused _ => cases h

/-- The engine's step: idle, an illegal word, or the latched command. -/
theorem engineStep_cases (s : State) :
    (s.status.busy = false ∧ engineStep s = .next s) ∨
    (s.status.busy = true ∧ (∃ e, decode s.latch.cmd = .error e) ∧ engineStep s = .next (s.raiseError .illegalCommand)) ∨
    (s.status.busy = true ∧ ∃ i, decode s.latch.cmd = .ok i ∧ engineStep s = exec i s) := by
  cases hb : s.status.busy
  · exact .inl ⟨rfl, by simp [engineStep, hb]⟩
  · right
    cases hd : decode s.latch.cmd with
    | error e => exact .inl ⟨rfl, ⟨e, rfl⟩, by simp [engineStep, hb, hd, State.illegal]⟩
    | ok i => exact .inr ⟨rfl, i, rfl, by simp [engineStep, hb, hd]⟩

/-- A register write of the host that is not refused: the register it names, or a reserved offset. -/
theorem hostRegWrite_cases {s t : State} {addr : Word} {size : Nat} {w : Word} (h : s.hostRegWrite addr size w = .next t) :
    size = 4 ∧ (t = s ∨ ∃ r, regAt (regOffset s.params addr) = some r ∧ s.writeReg r w = .next t) := by
  unfold State.hostRegWrite at h
  split at h
  · cases h
  · next hn =>
    refine ⟨((regAccessRefusal_eq_none _ _ _).1 hn).2.1, ?_⟩
    split at h
    · next r hr => exact .inr ⟨r, hr, h⟩
    · exact .inl (by simpa [eq_comm] using h)

/-- A register read of the host that is not refused changes only what it returns. -/
theorem hostRegRead_cases {s t : State} {addr : Word} {size : Nat} (h : s.hostRegRead addr size = .next t) :
    t = { s with rdata := s.windowRead addr } := by
  unfold State.hostRegRead at h
  split at h
  · cases h
  · simpa [eq_comm] using h

/-- A memory read of the host that is not stopped changes only what it returns and the free counter. -/
theorem hostMemRead_cases {s t : State} {a : Word} (h : s.hostMemRead a = .next t) :
    ∃ v n, t = { s with rdata := v, free := n } := by
  unfold State.hostMemRead at h
  split at h
  · next o ho =>
    simp only [State.hostMemStop] at ho
    split at ho
    · cases ho; cases h
    · split at ho
      · cases ho; cases h
      · cases ho
  · split at h
    · exact ⟨_, _, by simpa [eq_comm] using h⟩
    · exact ⟨_, s.free, by simpa [eq_comm] using h⟩

/-- The window's addresses reach the register at the offset written. -/
@[simp] theorem regOffset_base (P : Params) (off : Nat) (h : off < 2 ^ 32) :
    regOffset P (P.regBase + BitVec.ofNat 32 off) = off := by
  have : P.regBase + BitVec.ofNat 32 off - P.regBase = BitVec.ofNat 32 off := by
    rw [BitVec.add_comm, BitVec.add_sub_cancel]
  simp [regOffset, this]; omega

/-- Every register of the window stands at its offset, which is aligned. -/
theorem regAt_offset (r : Reg) : regAt r.offset = some r ∧ r.offset < 4096 ∧ r.offset % 4 = 0 := by
  rcases r with _ | _ | _ | _ | r | r <;> (try cases r) <;> decide

/-- A host write of a register of the window is that register's write. -/
theorem wrReg_eq (s : State) (r : Reg) (w : Word) : s.wrReg r w = s.writeReg r w := by
  obtain ⟨h1, h2, h3⟩ := regAt_offset r
  have h4 : regOffset s.params (s.params.regBase + BitVec.ofNat 32 r.offset) = r.offset :=
    regOffset_base _ _ (by omega)
  have h5 : regAccessRefusal s.params (s.params.regBase + BitVec.ofNat 32 r.offset) 4 = none :=
    (regAccessRefusal_eq_none _ _ _).2 ⟨by rw [h4]; exact h2, rfl, by rw [h4]; exact h3⟩
  simp only [State.wrReg, hostStep, State.hostRegWrite, h5, h4, h1]

/-- A host read of a register of the window returns its value. -/
theorem rdReg_eq (s : State) (r : Reg) : s.rdReg r = .next { s with rdata := s.readReg r } := by
  obtain ⟨h1, h2, h3⟩ := regAt_offset r
  have h4 : regOffset s.params (s.params.regBase + BitVec.ofNat 32 r.offset) = r.offset :=
    regOffset_base _ _ (by omega)
  have h5 : regAccessRefusal s.params (s.params.regBase + BitVec.ofNat 32 r.offset) 4 = none :=
    (regAccessRefusal_eq_none _ _ _).2 ⟨by rw [h4]; exact h2, rfl, by rw [h4]; exact h3⟩
  simp only [State.rdReg, hostStep, State.hostRegRead, h5, State.windowRead, h4, h1]

end Sys2Proof.Machine
end

