-- ==== Sys2Proof/Tests/Slice0.lean ====
section
/-! SUPPORT. Tests: the well-formedness smoke tests, one word of every command written out from its encoding, one or
two steps of every command on the spec's own examples (95_test_vectors), and for every statement with hypotheses a
concrete state and operands that meet them. -/

namespace Sys2Proof.Tests

open Sys2Proof Sys2Proof.Machine

/-! ## Words (30_encoding) -/

/-- R107 (a): 0x09 is a reserved opcode. -/
theorem test_wellformed_refuses_reserved_opcode : wellFormedWord 0x00000009#32 = false := by decide

/-- R107 (b): DEC_BLOCK with bit 8 set. -/
theorem test_wellformed_refuses_bits_of_format_p : wellFormedWord 0x00000101#32 = false := by decide

/-- R107 (c): ENC_BLOCK with bit 13 set. -/
theorem test_wellformed_refuses_bits_of_format_e : wellFormedWord 0x00002002#32 = false := by decide

/-- R102: RSVD = 0, OPCODE = 0x00. -/
theorem test_decode_nop : decode 0b00000000000000000000000000000000#32 = .ok .nop := by decide

/-- R102: RSVD = 0, OPCODE = 0x01. -/
theorem test_decode_dec_block : decode 0b00000000000000000000000000000001#32 = .ok .decBlock := by decide

/-- R103: RSVD = 0 ‖ REFINE = 1 ‖ DITHER = 0 ‖ MSE = 1 ‖ METHOD = 01 ‖ OPCODE = 0x02. -/
theorem test_decode_enc_block :
    decode 0b00000000000000000001010100000010#32 = .ok (.encBlock .pca true false true) := by decide

/-- R102: OPCODE = 0x03. -/
theorem test_decode_tile_get : decode 0b00000000000000000000000000000011#32 = .ok .tileGet := by decide

/-- R102: OPCODE = 0x04. -/
theorem test_decode_tile_put : decode 0b00000000000000000000000000000100#32 = .ok .tilePut := by decide

/-- R103: REFINE = 0 ‖ DITHER = 1 ‖ MSE = 0 ‖ METHOD = 10 ‖ OPCODE = 0x05. -/
theorem test_decode_enc_image :
    decode 0b00000000000000000000101000000101#32 = .ok (.encImage .random false true false) := by decide

/-- R102: OPCODE = 0x06. -/
theorem test_decode_dec_image : decode 0b00000000000000000000000000000110#32 = .ok .decImage := by decide

/-- R102: OPCODE = 0x07. -/
theorem test_decode_dds_write_hdr : decode 0b00000000000000000000000000000111#32 = .ok .ddsWriteHdr := by decide

/-- R102: OPCODE = 0x08. -/
theorem test_decode_dds_parse_hdr : decode 0b00000000000000000000000000001000#32 = .ok .ddsParseHdr := by decide

/-- The table's numbering: one 32-bit word; nothing for an illegal one. -/
theorem test_decode_table_word :
    decodeTableWord 32 0x1502 = some (.encBlock .pca true false true) ∧ decodeTableWord 32 0x2002 = none := by decide

/-- R113's examples. -/
theorem test_disassemble : disassemble 0x00001502#32 = "ENC_BLOCK.pca.mse.refine" ∧
    disassemble 0x00000005#32 = "ENC_IMAGE.basic" ∧ disassemble 0x00000101#32 = ".word 0x00000101" := by decide

/-! ## Small states -/

/-- Bytes at an address. -/
def bytes (a : Nat) (bs : List Nat) : Memory := bs.zipIdx.map fun x => (a + x.2, BitVec.ofNat 8 x.1)

/-- The operands of section 6.1: SRC_ADDR 0x1000, DST_ADDR 0x2000, WIDTH 5, HEIGHT 3. -/
def ops53 : Operands := { srcAddr := 0x1000#32, dstAddr := 0x2000#32, width := 5#32, height := 3#32 }

/-- The reset state with a command accepted. -/
def running (i : Instr) (o : Operands) (m : Memory := []) : State :=
  { State.reset with status := { busy := true }, cmd := encode i, latch := ⟨encode i, o⟩, mem := m }

/-- Something of the next state. -/
def after (o : Out) (f : State → α) : Option α :=
  match o with
  | .next t => some (f t)
  | .fault _ => none
  | .refused _ => none

/-- The n bytes that something has written at a. -/
def written (a n : Nat) (t : State) : List (Option Nat) :=
  (List.range n).map fun i => (Memory.lookup t.mem (a + i)).map BitVec.toNat

/-- STATUS after a command. -/
def statusAfter (i : Instr) (o : Operands) : Option Word := after (exec i (running i o)) fun t => t.readReg .status

/-- The red and blue checkerboard of R245, its bytes. -/
def checker : List Nat :=
  (List.range 16).flatMap fun k => if (k % 4 + k / 4) % 2 = 0 then [255, 0, 0, 255] else [0, 0, 255, 255]

/-- Block G of section 3.1: pixel k is (17k, 64, 32). -/
def blockG : Block16 := (List.range 16).map fun k => ⟨17 * k, 64, 32, 255⟩

/-- Image I53 of section 4.2. -/
def image53 : List Nat := (List.range 15).flatMap fun k => [50 * (k % 5), 80 * (k / 5), 200, 255]

/-! ## Commands, one step each -/

/-- R340: STATUS reads 0x2 after a NOP. -/
theorem test_nop : statusAfter .nop ops53 = some 0x00000002#32 := by decide

/-- R171's example: each row is P[0], P[1], P[2], P[3] with alpha 255. -/
theorem test_dec_block : after (exec .decBlock (running .decBlock ops53
      (bytes 0x1000 [0x00, 0xF8, 0x1F, 0x00, 0xE4, 0xE4, 0xE4, 0xE4]))) (written 0x2010 16) =
    some ([255, 0, 0, 255, 0, 0, 255, 255, 170, 0, 85, 255, 85, 0, 170, 255].map some) := by decide +kernel

/-- R172's example: color0 < color1 still uses the four-colour palette. -/
theorem test_dec_block_low_color0_first : after (exec .decBlock (running .decBlock ops53
      (bytes 0x1000 [0x1F, 0x00, 0x00, 0xF8, 0xFF, 0xFF, 0xFF, 0xFF]))) (written 0x203C 4) =
    some ([170, 0, 85, 255].map some) := by decide +kernel

/-- R242's example: the checkerboard with Basic. -/
theorem test_enc_block : after (exec (.encBlock .basic false false false)
      (running (.encBlock .basic false false false) ops53 (bytes 0x1000 checker)))
      (fun t => (written 0x2000 8 t, t.res.sse, t.res.colors)) =
    some ([0x00, 0xF8, 0x1F, 0x00, 0x44, 0x11, 0x44, 0x11].map some, 0#32, 0x001FF800#32) := by decide +kernel

/-- Section 3.1: ENC_BLOCK.pca.mse.refine on block G. -/
theorem test_encode_pca_mse_refine :
    encodeBlock {} ⟨.pca, true, false, true, 0, 0#32⟩ blockG 0 = ⟨0xE204#16, 0x1A04#16, 0x00AAFF55#32, 5832⟩ := by
  decide +kernel

/-- Section 3.1: ENC_BLOCK.random.mse on block G, 16 iterations. -/
theorem test_encode_random_mse :
    encodeBlock {} ⟨.random, true, false, false, 16, 0#32⟩ blockG 0 = ⟨0xDA04#16, 0x1204#16, 0x00AAFFD5#32, 6907⟩ := by
  decide +kernel

/-- R235's example: six (200,30,30), five (30,200,30), five (30,30,200). -/
theorem test_encode_cluster :
    encodeBlock {} ⟨.cluster, false, false, false, 0, 0#32⟩
      (List.replicate 6 ⟨200, 30, 30, 255⟩ ++ List.replicate 5 ⟨30, 200, 30, 255⟩ ++ List.replicate 5 ⟨30, 30, 200, 255⟩) 0 =
    ⟨0xC0E4#16, 0x238E#16, 0x55555000#32, 144732⟩ := by decide +kernel

/-- R264's example: block (1, 0) of the 5×3 image, its first row and its last. -/
theorem test_tile_get : after (exec .tileGet (running .tileGet { ops53 with blockX := 1#32 } (bytes 0x1000 image53)))
      (fun t => (written 0x2000 8 t, written 0x2030 4 t)) =
    some ([200, 0, 200, 255, 0, 0, 0, 0].map some, [0, 0, 0, 0].map some) := by decide +kernel

/-- R265's example: only pixels (4,0), (4,1), (4,2) are written, from block pixels 0, 4 and 8. -/
theorem test_tile_put : after (exec .tilePut (running .tilePut { ops53 with blockX := 1#32 }
      (bytes 0x1000 (List.range 64)))) (fun t => t.mem.filter fun c => decide (0x2000 ≤ c.1)) =
    some (bytes 0x2010 [0, 1, 2, 3] ++ bytes 0x2024 [16, 17, 18, 19] ++ bytes 0x2038 [32, 33, 34, 35]) := by
  decide +kernel

/-- R270's example: ENC_IMAGE.basic of the 5×3 image. -/
theorem test_enc_image : after (exec (.encImage .basic false false false)
      (running (.encImage .basic false false false) ops53 (bytes 0x1000 image53)))
      (fun t => (written 0x2000 16 t, t.res.sse, t.res.payloadSize)) =
    some ([0x18, 0, 0, 0, 0, 0, 0, 0x55, 0x18, 0xC0, 0, 0, 0x54, 0x54, 0x54, 0x55].map some, 265072#32, 16#32) := by
  decide +kernel

/-- R271's example: the last row of the image. -/
theorem test_dec_image : after (exec .decImage (running .decImage ops53
      (bytes 0x1000 [0x18, 0, 0, 0, 0, 0, 0, 0x55, 0x18, 0xC0, 0, 0, 0x54, 0x54, 0x54, 0x55])))
      (fun t => (written 0x2028 20 t, t.res.bw, t.res.bh)) =
    some ([0, 0, 198, 255, 0, 0, 198, 255, 0, 0, 198, 255, 0, 0, 198, 255, 198, 0, 198, 255].map some, 2#32, 1#32) := by
  decide +kernel

/-- R303's example: the 4×4 header, its first 24 bytes and the bytes at 76. -/
theorem test_dds_write_hdr : after (exec .ddsWriteHdr (running .ddsWriteHdr { ops53 with width := 4#32, height := 4#32 }))
      (fun t => (written 0x2000 24 t, written 0x204C 12 t, t.res.payloadSize)) =
    some ([0x44, 0x44, 0x53, 0x20, 0x7C, 0, 0, 0, 0x07, 0x10, 0x08, 0, 4, 0, 0, 0, 4, 0, 0, 0, 8, 0, 0, 0].map some,
      [0x20, 0, 0, 0, 4, 0, 0, 0, 0x44, 0x58, 0x54, 0x31].map some, 8#32) := by decide +kernel

/-- The words of a header that the parser reads (R310), at an address. -/
def header (a magic fourcc h w : Nat) : Memory :=
  cellsLE a 4 magic ++ cellsLE (a + 12) 4 h ++ cellsLE (a + 16) 4 w ++ cellsLE (a + 84) 4 fourcc

/-- Section 5.2: the 5×3 file parses, at the highest address that holds it. -/
theorem test_dds_parse_hdr : after (exec .ddsParseHdr (running .ddsParseHdr
      { srcAddr := 0xFFFFFF70#32, srcLen := 144#32 } (header 0xFFFFFF70 0x20534444 0x31545844 3 5)))
      (fun t => (t.res.width, t.res.height, t.res.payloadAddr, t.readReg .status)) =
    some (5#32, 3#32, 0xFFFFFFF0#32, 0x00000002#32) := by decide +kernel

/-- Section 5.2: "DXT2" ends with FORMAT_FOURCC. -/
theorem test_dds_parse_hdr_fourcc : after (exec .ddsParseHdr (running .ddsParseHdr
      { srcAddr := 0x2000#32, srcLen := 144#32 } (header 0x2000 0x20534444 0x32545844 3 5)))
      (fun t => t.readReg .status) = some 0x00000706#32 := by decide +kernel

/-- Section 6.1: a range of the block encoder at the top of memory, one byte beyond it, and one shared byte. -/
theorem test_enc_block_ranges :
    statusAfter (.encBlock .basic false false false) { srcAddr := 0xFFFFFFC1#32, dstAddr := 0x100#32 } = some 0x406#32 ∧
    statusAfter (.encBlock .basic false false false) { srcAddr := 0x100#32, dstAddr := 0x13F#32 } = some 0x506#32 ∧
    statusAfter (.encBlock .basic false false false) { srcAddr := 0x100#32, dstAddr := 0x140#32 } = some 0x002#32 := by
  decide +kernel

/-! ## The machine from reset -/

/-- The command word placed for the next step is the one that the step runs, from reset (log 2): NOP, and DEC_BLOCK
with the reset operands, whose ranges [0, 8) and [0, 64) share a byte. -/
theorem test_with_fetch_word :
    after (step (State.reset.withFetchWord 32 0)) (fun t => t.readReg .status) = some 0x00000002#32 ∧
    after (step (State.reset.withFetchWord 32 1)) (fun t => t.readReg .status) = some 0x00000506#32 := by decide

/-- R112 `run NOP` with the interrupt enabled, from reset: irq is high and STATUS reads 0x2. -/
theorem test_run_nop_from_reset :
    (match Host.Core.run Sys2Proof.core 4 { State.reset with turns := wr {} .ctrl 1#32 :: runLines {} .nop } with
      | .next t => some (t.irq, t.rdata)
      | .fault _ => none
      | .refused _ => none) = some (true, 0x00000002#32) := by decide +kernel

/-- Section 6.2: STATUS = 0x70E, then a write of 0x4: ERR and ERRCODE cleared, DONE and OVR kept. -/
theorem test_status_w1c :
    (Status.hostWrite { done := true, err := true, ovr := true, errCode := 7#8 } 4#32).word = 0x0000000A#32 := by decide

/-! ## Witnesses: what the statements assume can be met -/

/-- A range of a machine without unbacked addresses is backed. -/
theorem backed_of_none (s : State) (h : s.platform.unbacked = []) (x : Span) : s.backedSpan x := by
  intro a _; simp [State.backed, h]

/-- IllegalWordsEndWithIllegalCommand: a running word of each illegal kind, and the largest legal word of format E. -/
theorem witness_illegal_words :
    (running .nop {}).status.busy = true ∧
    (9 ≤ (0x00000009#32 : Word).toNat % 256) ∧
    ((0x00000101#32 : Word).toNat % 256 = 1 ∧ (0x00000101#32 : Word).toNat / 256 ≠ 0) ∧
    ((0x00002002#32 : Word).toNat % 256 = 2 ∧ (0x00002002#32 : Word).toNat / 8192 ≠ 0) ∧
    ((0x00001F05#32 : Word).toNat % 256 = 5 ∧ (0x00001F05#32 : Word).toNat / 8192 = 0) := by decide

/-- SameStepEventsFollowTheirPriority: a running command that ends with an error, legal and illegal, and a word that
resets. -/
theorem witness_same_step :
    (∀ s ∈ [running .decBlock {}, { running .nop {} with cmd := 0x00000009#32, latch := ⟨0x00000009#32, {}⟩ }],
      s.status.busy = true ∧ s.status.err = false ∧ after (engineStep s) (fun u => u.status.err) = some true) ∧
    (2#32 : Word).getLsbD 1 = true := by decide

/-- StepRunsTheLatchedCommand: a running command, with no turn and with one. -/
theorem witness_running :
    (running .tileGet ops53).running .tileGet ∧ (running .tileGet ops53).turns = [] ∧
    ({ running .tileGet ops53 with turns := [.engine] } : State).running .tileGet := by
  refine ⟨⟨rfl, by decide⟩, rfl, rfl, by decide⟩

/-- StepTakesTheOldestTurn: each kind of turn, and the idle engine with none. -/
theorem witness_turns :
    (∀ op, ({ State.reset with turns := [.host op] } : State).turns = .host op :: []) ∧
    (∀ op, ({ State.reset with turns := [.together op] } : State).turns = .together op :: []) ∧
    ({ State.reset with turns := [.powerOn] } : State).turns = .powerOn :: [] ∧
    ({ State.reset with turns := [.engine] } : State).turns = .engine :: [] ∧
    State.reset.turns = [] ∧ State.reset.status.busy = false := by simp [State.reset]

/-- PendingTurnsThenIdle: a run from reset over two turns. -/
theorem witness_pending_turns : ∃ t, Host.Core.run Sys2Proof.core 3
    { State.reset with turns := [.host (.regWrite 0x00C#32 4 0#32), .engine] } = .next t := ⟨_, rfl⟩

/-- StepKeepsTheInvariant, CommandsReadOnlyTheirLatches: a running command in a legal state steps to a next state. -/
theorem witness_invariant_step : (running .nop ops53).Inv = true ∧ (∃ t, step (running .nop ops53) = .next t) ∧
    ∃ t, exec .nop (running .nop ops53) = .next t := ⟨by decide, ⟨_, rfl⟩, ⟨_, rfl⟩⟩

/-- EachRegisterChangesOnlyByItsWriters: a step that changes an operand register, one that changes a result register by
completing, and one that changes it by a reset. -/
theorem witness_register_writers :
    (∃ t, step { State.reset with turns := [.host (.regWrite 0x018#32 4 9#32)] } = .next t ∧
      t.ops.get .width ≠ State.reset.ops.get .width) ∧
    (∃ t, step (running .ddsWriteHdr ops53) = .next t ∧ t.res ≠ (running .ddsWriteHdr ops53).res) ∧
    (∃ t, step { State.reset with res := { bw := 1#32 }, turns := [.powerOn] } = .next t ∧ t.res ≠ { bw := 1#32 }) := by
  refine ⟨⟨_, rfl, by decide⟩, ⟨_, rfl, ?_⟩, ⟨_, rfl, by decide⟩⟩
  exact fun h => absurd (congrArg Results.bw h) (by decide)

/-- EachRegisterChangesOnlyByItsWriters: a CTRL write that changes IRQ_EN, an accepted CMD write that changes CMD and
STATUS, and a STATUS write that changes STATUS. -/
theorem witness_control_writers :
    (∃ t, step { State.reset with turns := [.host (.regWrite 0x004#32 4 1#32)] } = .next t ∧ t.irqEn ≠ State.reset.irqEn) ∧
    (∃ t, step { State.reset with turns := [.host (.regWrite 0x00C#32 4 8#32)] } = .next t ∧ t.cmd ≠ State.reset.cmd ∧
      t.status ≠ State.reset.status) ∧
    ∃ t, step { State.reset with status := { done := true }, turns := [.host (.regWrite 0x008#32 4 2#32)] } = .next t ∧
      t.status ≠ { done := true } := by
  refine ⟨⟨_, rfl, by decide⟩, ⟨_, rfl, by decide, by decide⟩, ⟨_, rfl, by decide⟩⟩

/-- OverrunStaysUntilTheHostClearsIt: OVR cleared by STATUS bit 3, by CTRL bit 1, and by the reset input. -/
theorem witness_overrun_cleared : ∀ tn ∈ [Turn.host (.regWrite 0x008#32 4 8#32), .host (.regWrite 0x004#32 4 2#32), .powerOn],
    after (step { State.reset with status := { ovr := true }, turns := [tn] }) (fun t => t.status.ovr) = some false := by
  decide

/-- EitherResetGivesTheResetValues, ResetTouchesOnlyTheRunningDestination: a write of CTRL that resets, with a command
running, inside and outside its destination range at the boundary, and idle. -/
theorem witness_reset :
    (∃ t, (running .decBlock ops53).wrReg .ctrl 2#32 = .next t) ∧ (2#32 : Word).getLsbD 1 = true ∧ (running .decBlock ops53).inRunningDst 0x203F = true ∧
    (running .decBlock ops53).inRunningDst 0x2040 = false ∧ State.reset.status.busy = false :=
  ⟨⟨_, rfl⟩, by decide, by decide, by decide, rfl⟩

/-- AcceptanceLatchesTheCommand: an idle engine, a legal command whose ranges meet no device. -/
theorem witness_acceptance :
    State.reset.status.busy = false ∧ decode (encode .decBlock) = .ok .decBlock ∧
    ∀ x y, accessedSpans (encode .decBlock) State.reset.ops = some (x, y) →
      State.reset.platform.onDevice [x, y] = false := ⟨rfl, by decide, fun _ _ _ => rfl⟩

/-- BusyCommandWriteIsDropped. -/
theorem witness_busy : (running .nop {}).status.busy = true := rfl

/-- RegisterReadHasNoSideEffect, ReadOnlyAndOperandRegisterWrites: the ends of both reserved ranges. -/
theorem witness_reserved_offsets : ∀ off ∈ [0x034, 0x03C, 0x064, 0xFFC],
    off < 4096 ∧ off % 4 = 0 ∧ ∀ r : Reg, r.offset ≠ off := by
  intro off h
  simp only [List.mem_cons, List.not_mem_nil, or_false] at h
  rcases h with rfl | rfl | rfl | rfl <;> refine ⟨by decide, by decide, fun r => ?_⟩ <;>
    rcases r with _ | _ | _ | _ | r | r <;> (try cases r) <;> decide

/-- MalformedRegisterAccessIsRefused: a narrow access at the first byte, a misaligned one at the last. -/
theorem witness_malformed_access :
    (regOffset {} 0x000#32 < 4096 ∧ (1 : Nat) ≠ 4) ∧ (regOffset {} 0xFFF#32 < 4096 ∧ regOffset {} 0xFFF#32 % 4 ≠ 0) := by
  decide

/-- ControlRegister: each value of bit 1, with every other bit set. -/
theorem witness_control_write :
    (0xFFFFFFFD#32 : Word).getLsbD 1 = false ∧ (0xFFFFFFFF#32 : Word).getLsbD 1 = true := by decide

/-- LaunchOnADeviceIsRefused: a device at the last byte of the destination range, and one at the first of the source. -/
theorem witness_device :
    State.reset.status.busy = false ∧ preError .decBlock ops53 = none ∧ decode (encode .decBlock) = .ok .decBlock ∧
    (Span.holds ⟨0x203F, 1⟩ 0x203F = true ∧ (dstSpan .decBlock ops53).holds 0x203F = true) ∧
    (Span.holds ⟨0x1000, 1⟩ 0x1000 = true ∧ (srcSpan .decBlock ops53).holds 0x1000 = true) := by decide

/-- CommandsWriteOnlyTheirDestination: a race at the last byte of the range. -/
theorem witness_destination :
    (∀ a ∈ ({ running .decBlock ops53 with race := { dst := [0x203F] } } : State).race.dst,
      (dstSpan .decBlock ops53).holds a = true) ∧
    ∃ t, exec .decBlock { running .decBlock ops53 with race := { dst := [0x203F] } } = .next t := ⟨by decide, ⟨_, rfl⟩⟩

/-- CommandsReadOnlyTheirSource: two memories that agree on the source range and differ next to it. -/
theorem witness_source :
    (∀ a, (srcSpan .decBlock ops53).holds a = true →
      ({ running .decBlock ops53 (bytes 0x1000 (List.replicate 8 1)) with
        mem := bytes 0x1000 (List.replicate 9 1) } : State).readByte a =
      (running .decBlock ops53 (bytes 0x1000 (List.replicate 8 1))).readByte a) ∧
    bytes 0x1000 (List.replicate 9 1) ≠ bytes 0x1000 (List.replicate 8 1) ∧
    ∃ t, exec .decBlock (running .decBlock ops53 (bytes 0x1000 (List.replicate 8 1))) = .next t := by
  refine ⟨fun a h => ?_, by decide, ⟨_, rfl⟩⟩
  have h1 : 0x1000 ≤ a ∧ a < 0x1008 := of_decide_eq_true (show decide (0x1000 ≤ a ∧ a < 0x1008) = true from h)
  obtain ⟨lo, hi⟩ := h1
  interval_cases a <;> rfl

/-- CheckErrorsFollowTheirPriority, first clause: a zero dimension, and the least payload that does not fit. -/
theorem witness_bad_dimensions :
    (∀ i o, (running i o).race.dst = []) ∧ badDims .decImage { ops53 with width := 0#32 } ∧
    badDims .ddsWriteHdr { ops53 with width := 0x20000#32, height := 0x10000#32 } ∧
    (0x20000 + 3) / 4 * ((0x10000 + 3) / 4) * 8 = 0xFFFFFFFF + 1 :=
  ⟨fun _ _ => rfl, .inl ⟨.inr (.inr (.inl rfl)), .inl rfl⟩, .inr ⟨rfl, by decide⟩, by decide⟩

/-- The dimensions of the 5×3 image are good ones, in every position of it. -/
theorem good_dims (o : Operands) (hw : o.W = 5) (hh : o.H = 3) (i : Instr) : ¬badDims i o := by
  rintro (⟨_, h⟩ | ⟨_, h⟩) <;> rw [hw, hh] at h <;> omega

/-- CheckErrorsFollowTheirPriority, second clause: the first block column, and the first row, outside the grid. -/
theorem witness_bad_block :
    ¬badDims .tileGet { ops53 with blockX := 2#32 } ∧ badBlock .tileGet { ops53 with blockX := 2#32 } ∧
    ¬badDims .tilePut { ops53 with blockY := 1#32 } ∧ badBlock .tilePut { ops53 with blockY := 1#32 } :=
  ⟨good_dims _ rfl rfl _, ⟨.inl rfl, .inl (by decide)⟩, good_dims _ rfl rfl _, ⟨.inr rfl, .inr (by decide)⟩⟩

/-- CheckErrorsFollowTheirPriority, third clause: TILE_GET in the last block of the grid, its destination range one byte
past 2^32. -/
theorem witness_too_far :
    let o := { ops53 with blockX := 1#32, dstAddr := 0xFFFFFFC1#32 }
    ¬badDims .tileGet o ∧ ¬badBlock .tileGet o ∧ tooFar (srcSpan .tileGet o) (dstSpan .tileGet o) ∧
    (dstSpan .tileGet o).base + (dstSpan .tileGet o).len = 2 ^ 32 + 1 := by
  refine ⟨good_dims _ rfl rfl _, ?_, .inr (by decide), by decide⟩
  rintro ⟨_, h⟩
  revert h
  decide

/-- CheckErrorsFollowTheirPriority, fourth clause: DEC_IMAGE with a source range that ends at 2^32 and shares its first
byte with the destination's last. -/
theorem witness_shared :
    let o := { ops53 with srcAddr := 0xFFFFFFF0#32, dstAddr := 0xFFFFFFB5#32 }
    ¬badDims .decImage o ∧ ¬badBlock .decImage o ∧ ¬tooFar (srcSpan .decImage o) (dstSpan .decImage o) ∧
    shareByte (srcSpan .decImage o) (dstSpan .decImage o) := by
  refine ⟨good_dims _ rfl rfl _, ?_, ?_, 0xFFFFFFF0, by decide, by decide⟩
  · rintro ⟨h | h, _⟩ <;> cases h
  · unfold tooFar; decide

/-- BusErrorEndsTheCommand: one unbacked byte, the last of the source and the last of the destination. -/
theorem witness_bus_error : ∀ a ∈ [0x1007, 0x203F],
    preError .decBlock ops53 = none ∧
    ({ running .decBlock ops53 with platform := { unbacked := [⟨a, 1⟩] } } : State).backed a = false ∧
    mustAccess .decBlock ops53 a := by unfold mustAccess; decide

/-- BusErrorEndsTheCommand, the tile commands on block (1, 0) of the 5×3 image: the first and the last byte of the
image that lie in the block, and the last of the buffer. -/
theorem witness_bus_error_tile :
    let o := { ops53 with blockX := 1#32 }
    preError .tileGet o = none ∧ preError .tilePut o = none ∧
    (∀ a, ({ running .tileGet o with platform := { unbacked := [⟨a, 1⟩] } } : State).backed a = false) ∧
    (∀ a ∈ [0x1010, 0x103B, 0x203F], mustAccess .tileGet o a) ∧
    (∀ a ∈ [0x2010, 0x203B, 0x103F], mustAccess .tilePut o a) := by
  refine ⟨by decide, by decide, fun a => ?_, ?_, ?_⟩
  · simp [State.backed, Span.holds]
  all_goals unfold mustAccess; decide

/-- RacedBytesAreFreeValues: a raced source of a command whose checks pass, a raced destination byte of one whose checks
pass, and of one whose checks fail (the ranges share a byte). -/
theorem witness_race :
    preError .decBlock ops53 = none ∧ (dstSpan .decBlock ops53).holds 0x2000 = true ∧
    (∃ t, exec .decBlock { running .decBlock ops53 with race := { src := true } } = .next t) ∧
    (∃ t, exec .decBlock { running .decBlock ops53 with race := { dst := [0x2000] } } = .next t) ∧
    preError .decBlock {} = some .bufferOverlap ∧ (dstSpan .decBlock {}).holds 0x3F = true ∧
    ∃ t, exec .decBlock { running .decBlock {} with race := { dst := [0x3F] } } = .next t :=
  ⟨by decide, by decide, ⟨_, rfl⟩, ⟨_, rfl⟩, by decide, by decide, ⟨_, rfl⟩⟩

/-- RacedBytesAreFreeValues, result registers: DEC_IMAGE with a raced source ends without an error, and with one when its
last source byte is not backed. -/
theorem witness_race_results :
    preError .decImage ops53 = none ∧ (running .decImage ops53).status.err = false ∧
    ResReg.bw ∈ resultRegs .decImage ∧ ResReg.sse ∉ resultRegs .decImage ∧
    after (exec .decImage { running .decImage ops53 with race := { src := true } }) (fun t => t.status.err) = some false ∧
    after (exec .decImage { running .decImage ops53 with race := { src := true }, platform := { unbacked := [⟨0x100F, 1⟩] } })
      (fun t => t.status.err) = some true := by decide

/-- HostMemoryAccesses: the last byte of the running destination range and the first after it, the last byte of the
running source range. -/
theorem witness_host_memory :
    (∀ a ∈ [0x203F, 0x2040, 0x1007], (running .decBlock ops53).backed a = true) ∧
    (running .decBlock ops53).platform.devices = [] ∧
    (running .decBlock ops53).inRunningDst (0x0000203F#32 : Word).toNat = true ∧
    (running .decBlock ops53).inRunningDst (0x00002040#32 : Word).toNat = false ∧
    (running .decBlock ops53).inRunningSrc (0x00002040#32 : Word).toNat = false ∧
    (running .decBlock ops53).inRunningDst (0x00001007#32 : Word).toNat = false ∧
    (running .decBlock ops53).inRunningSrc (0x00001007#32 : Word).toNat = true := by decide

/-- NopOnlyCompletes. -/
theorem witness_nop : (running .nop {}).race.dst = [] := rfl

/-- DecBlockWritesPaletteEntries: a destination that ends at 2^32, and one that begins where the source ends. -/
theorem witness_dec_block :
    rangesOk ⟨0x1000, 8⟩ ⟨0xFFFFFFC0, 64⟩ ∧ rangesOk ⟨0x1000, 8⟩ ⟨0x1008, 64⟩ ∧
    (running .decBlock ops53).backedSpan ⟨0x1000, 8⟩ ∧ (running .decBlock ops53).backedSpan ⟨0x1008, 64⟩ ∧
    (running .decBlock ops53).race = {} :=
  ⟨⟨by decide, by decide, .inl (by decide)⟩, ⟨by decide, by decide, .inl (by decide)⟩, backed_of_none _ rfl _,
    backed_of_none _ rfl _, rfl⟩

/-- EncBlockWritesTheEncodedBlock: a source that ends at 2^32, and one that begins where the destination ends. -/
theorem witness_enc_block :
    rangesOk ⟨0xFFFFFFC0, 64⟩ ⟨0x100, 8⟩ ∧ rangesOk ⟨0x108, 64⟩ ⟨0x100, 8⟩ ∧
    (running (.encBlock .basic false false false) ops53).backedSpan ⟨0x108, 64⟩ ∧
    (running (.encBlock .basic false false false) ops53).backedSpan ⟨0x100, 8⟩ ∧
    (running (.encBlock .basic false false false) ops53).race = {} :=
  ⟨⟨by decide, by decide, .inr (by decide)⟩, ⟨by decide, by decide, .inr (by decide)⟩, backed_of_none _ rfl _,
    backed_of_none _ rfl _, rfl⟩

/-- TileGetCopiesThePaddedBlock: block (1, 0) of the 5×3 image, partly in the padding; an unbacked image byte outside
the block does not matter. -/
theorem witness_tile_get :
    let s : State := { running .tileGet { ops53 with blockX := 1#32 } with platform := { unbacked := [⟨0x1000, 1⟩] } }
    0 < s.latch.ops.W ∧ 0 < s.latch.ops.H ∧ s.latch.ops.blockX.toNat < (s.latch.ops.W + 3) / 4 ∧
    s.latch.ops.blockY.toNat < (s.latch.ops.H + 3) / 4 ∧
    rangesOk ⟨s.latch.ops.src, s.latch.ops.W * s.latch.ops.H * 4⟩ ⟨s.latch.ops.dst, 64⟩ ∧
    s.backedSpan ⟨s.latch.ops.dst, 64⟩ ∧ (∀ k < 16, 4 * 1 + k % 4 < 5 → 4 * 0 + k / 4 < 3 →
      s.backedSpan ⟨s.latch.ops.src + 4 * ((4 * 0 + k / 4) * 5 + (4 * 1 + k % 4)), 4⟩) ∧ s.race = {} := by
  refine ⟨by decide, by decide, by decide, by decide, ⟨by decide, by decide, .inl (by decide)⟩, ?_, ?_, rfl⟩
  · intro a h
    have h1 : 0x2000 ≤ a := by simp [Span.holds, running, ops53, Operands.dst] at h; omega
    simp [State.backed, Span.holds]; omega
  · intro k _ _ _ a h
    have h1 : 0x1000 + 16 ≤ a := by simp [Span.holds, running, ops53, Operands.src] at h; omega
    simp [State.backed, Span.holds]; omega

/-- TilePutPlacesTheCroppedBlock, TileRoundTripCopiesTheBlock: block (1, 0) of the 5×3 image and back. -/
theorem witness_tile_put :
    let o := { ops53 with blockX := 1#32 }
    0 < o.W ∧ 0 < o.H ∧ o.blockX.toNat < (o.W + 3) / 4 ∧ o.blockY.toNat < (o.H + 3) / 4 ∧
    rangesOk ⟨0x1000, 64⟩ ⟨0x2000, o.W * o.H * 4⟩ ∧ rangesOk ⟨0x1000, o.W * o.H * 4⟩ ⟨0x2000, 64⟩ ∧
    rangesOk ⟨0x2000, 64⟩ ⟨(0x00003000#32 : Word).toNat, o.W * o.H * 4⟩ ∧
    (∀ x, (running .tilePut o).backedSpan x) ∧ (running .tilePut o).race = {} ∧
    (running .tileGet o).platform.unbacked = [] ∧ ∃ t, exec .tileGet (running .tileGet o) = .next t ∧
      ∃ u, exec .tilePut { t with latch := { cmd := encode .tilePut, ops := { o with srcAddr := o.dstAddr, dstAddr := 0x00003000#32 } } } =
        .next u :=
  ⟨by decide, by decide, by decide, by decide, ⟨by decide, by decide, .inl (by decide)⟩,
    ⟨by decide, by decide, .inl (by decide)⟩, ⟨by decide, by decide, .inl (by decide)⟩, backed_of_none _ rfl, rfl, rfl,
    _, rfl, _, rfl⟩

/-- EncImageWritesEveryBlock, DecImageWritesEveryPixel: the 5×3 image and its payload. -/
theorem witness_image :
    0 < ops53.W ∧ 0 < ops53.H ∧
    rangesOk ⟨ops53.src, ops53.W * ops53.H * 4⟩ ⟨ops53.dst, (ops53.W + 3) / 4 * ((ops53.H + 3) / 4) * 8⟩ ∧
    rangesOk ⟨ops53.src, (ops53.W + 3) / 4 * ((ops53.H + 3) / 4) * 8⟩ ⟨ops53.dst, ops53.W * ops53.H * 4⟩ ∧
    (∀ x, (running .decImage ops53).backedSpan x) ∧ (running .decImage ops53).race = {} :=
  ⟨by decide, by decide, ⟨by decide, by decide, .inl (by decide)⟩, ⟨by decide, by decide, .inl (by decide)⟩,
    backed_of_none _ rfl, rfl⟩

/-- CompressionRatio: both clauses, the second by the height alone. -/
theorem witness_ratio : (4 % 4 = 0 ∧ 8 % 4 = 0) ∧ (4 % 4 ≠ 0 ∨ 3 % 4 ≠ 0) := by decide

/-- DdsWriteHdrWritesTheHeader: a header that ends at 2^32, and the largest square texture of whole blocks whose
payload size is below 2^32. -/
theorem witness_dds_write_hdr :
    let o : Operands := { dstAddr := 0xFFFFFF80#32, width := 92680#32, height := 92680#32 }
    0 < o.W ∧ 0 < o.H ∧ (o.W + 3) / 4 * ((o.H + 3) / 4) * 8 ≤ 0xFFFFFFFF ∧ o.dst + 128 = 2 ^ 32 ∧
    (running .ddsWriteHdr o).backedSpan ⟨o.dst, 128⟩ ∧ (running .ddsWriteHdr o).race = {} :=
  ⟨by decide, by decide, by decide, by decide, backed_of_none _ rfl _, rfl⟩

/-- DdsParseHdrReportsTheHeader: the 5×3 file at the highest address that holds it. -/
theorem witness_dds_parse_hdr :
    let s := running .ddsParseHdr { srcAddr := 0xFFFFFF70#32, srcLen := 144#32 } (header 0xFFFFFF70 0x20534444 0x31545844 3 5)
    s.memRead 0xFFFFFF70 4 = 0x20534444 ∧ s.memRead (0xFFFFFF70 + 84) 4 = 0x31545844 ∧
    s.memRead (0xFFFFFF70 + 16) 4 = 5 ∧ s.memRead (0xFFFFFF70 + 12) 4 = 3 ∧
    128 + (5 + 3) / 4 * ((3 + 3) / 4) * 8 = s.latch.ops.srcLen.toNat ∧ s.latch.ops.src + (128 + 16) = 2 ^ 32 ∧
    (∀ x, s.backedSpan x) ∧ s.race = {} :=
  ⟨by decide, by decide, by decide, by decide, by decide, by decide, backed_of_none _ rfl, rfl⟩

/-- DdsParseHdrErrorsInOrder: what its innermost clauses assume: a file of 143 bytes whose height word is not backed, and
the same with every word backed. -/
theorem witness_dds_parse_hdr_order :
    let s := fun holes => { running .ddsParseHdr { srcAddr := 0x2000#32, srcLen := 143#32 }
      (header 0x2000 0x20534444 0x31545844 3 5) with platform := { unbacked := holes } }
    (∀ holes ∈ [[], [⟨0x200F, 1⟩]], (s holes).race = {} ∧ 128 ≤ 143 ∧ 0x2000 + 128 ≤ 2 ^ 32 ∧ (s holes).memRead 0x2000 4 = 0x20534444 ∧
      (s holes).memRead (0x2000 + 84) 4 = 0x31545844 ∧ (s holes).memRead (0x2000 + 12) 4 = 3 ∧
      (s holes).memRead (0x2000 + 16) 4 = 5) ∧ 128 + (5 + 3) / 4 * ((3 + 3) / 4) * 8 > 143 ∧
    (∀ x, (s []).backedSpan x) ∧ (s [⟨0x200F, 1⟩]).backedSpan ⟨0x2000, 4⟩ ∧
    (s [⟨0x200F, 1⟩]).backedSpan ⟨0x2000 + 84, 4⟩ ∧ ¬(s [⟨0x200F, 1⟩]).backedSpan ⟨0x2000 + 12, 4⟩ := by
  refine ⟨by decide, by decide, backed_of_none _ rfl, ?_, ?_, ?_⟩
  · intro a h
    simp [Span.holds, State.backed] at h ⊢; omega
  · intro a h
    simp [Span.holds, State.backed] at h ⊢; omega
  · intro h
    exact absurd (h 0x200F (by decide)) (by decide)

/-- DdsParseHdrErrorsInOrder: the error code of each check, on the variations of section 5.2 and, for the bus errors, with one
unbacked byte in the word that is read next. -/
theorem witness_dds_parse_hdr_errors :
    let run := fun (src len magic fourcc h w : Nat) (holes : List Span) =>
      after (exec .ddsParseHdr { running .ddsParseHdr { srcAddr := BitVec.ofNat 32 src, srcLen := BitVec.ofNat 32 len }
        (header src magic fourcc h w) with platform := { unbacked := holes } }) fun t => t.status.errCode
    run 0x2000 127 0x20534444 0x31545844 3 5 [] = some 0x08#8 ∧
    run 0xFFFFFF81 144 0x20534444 0x31545844 3 5 [] = some 0x04#8 ∧
    run 0x2000 144 0x20534444 0x31545844 3 5 [⟨0x2003, 1⟩] = some 0x09#8 ∧
    run 0x2000 144 0x20534445 0x31545844 3 5 [] = some 0x06#8 ∧
    run 0x2000 144 0x20534444 0x31545844 3 5 [⟨0x2054, 1⟩] = some 0x09#8 ∧
    run 0x2000 144 0x20534444 0x32545844 3 5 [] = some 0x07#8 ∧
    run 0x2000 144 0x20534444 0x31545844 3 5 [⟨0x200C, 1⟩] = some 0x09#8 ∧
    run 0x2000 144 0x20534444 0x31545844 3 5 [⟨0x2013, 1⟩] = some 0x09#8 ∧
    run 0x2000 144 0x20534444 0x31545844 3 0 [] = some 0x02#8 ∧
    run 0x2000 143 0x20534444 0x31545844 3 5 [] = some 0x08#8 ∧
    run 0xFFFFFF80 144 0x20534444 0x31545844 3 5 [] = some 0x04#8 := by decide +kernel

/-- DdsHeaderRoundTrip: the 5×3 file, at the highest address that holds it. -/
theorem witness_dds_round_trip :
    let o := { ops53 with dstAddr := 0xFFFFFF70#32 }
    0 < o.W ∧ 0 < o.H ∧ (o.W + 3) / 4 * ((o.H + 3) / 4) * 8 ≤ 0xFFFFFFFF - 128 ∧
    o.dst + 128 + (o.W + 3) / 4 * ((o.H + 3) / 4) * 8 ≤ 2 ^ 32 ∧
    (running .ddsWriteHdr o).platform.unbacked = [] ∧ (running .ddsWriteHdr o).race = {} ∧
    ∃ t, exec .ddsWriteHdr (running .ddsWriteHdr o) = .next t :=
  ⟨by decide, by decide, by decide, by decide, rfl, rfl, _, rfl⟩

/-- IndexPackingIsABijection, PaletteBlendsAndBlockErrorBound, CovarianceBoundsAndFlatness, RecordedErrorIsTheDecodedError: block G
has 16 pixels whose channels are bytes. -/
theorem witness_block : blockG.length = 16 ∧ (colors blockG).length = 16 ∧
    (∀ x ∈ colors blockG, x.r ≤ 255 ∧ x.g ≤ 255 ∧ x.b ≤ 255) ∧ (List.replicate 16 (3#2 : Idx)).length = 16 := by decide

/-- ExpansionIsMonotonic, QuantizationFollowsItsRuleAndUndoesExpansion: the top codes. -/
theorem witness_codes : 30 < 31 ∧ 31 ≤ 31 ∧ 62 < 63 ∧ 63 ≤ 63 ∧ 30 < Q5 .nearest 255 ∧ 62 < Q6 .nearest 255 ∧
    (0x0000#16 : C565).extractLsb' 11 5 ≤ (0xF800#16 : C565).extractLsb' 11 5 := by decide +kernel

/-- GuardKeepsErrorAtMostBasic: both disjuncts. -/
theorem witness_guard :
    ((⟨.pca, false, true, true, 0, 0#32⟩ : EncCfg).method = .pca ∧ (⟨.pca, false, true, true, 0, 0#32⟩ : EncCfg).useRefine = true) ∧
    (⟨.cluster, false, true, false, 0, 0#32⟩ : EncCfg).method = .cluster := by decide

/-- UniformBlocksEncodeToTheirColour: a block of one colour, with different alphas. -/
theorem witness_uniform :
    let p : Block16 := (List.range 16).map fun k => ⟨100, 150, 200, k⟩
    p.length = 16 ∧ (∀ x ∈ p, rgb x = ⟨100, 150, 200⟩) ∧ (100 ≤ 255 ∧ 150 ≤ 255 ∧ 200 ≤ 255) := by decide

/-- UnconsultedFieldsHaveNoEffect: for each method, configurations that differ in what it does not consult, and blocks
that differ in alpha. -/
theorem witness_unconsulted :
    colors [⟨1, 2, 3, 0⟩] = colors [⟨1, 2, 3, 255⟩] ∧
    (⟨.basic, true, false, true, 1, 1#32⟩ : EncCfg) ≠ ⟨.basic, false, false, false, 2, 2#32⟩ ∧
    (⟨.cluster, true, false, true, 1, 1#32⟩ : EncCfg) ≠ ⟨.cluster, false, false, false, 2, 2#32⟩ ∧
    (⟨.pca, true, false, false, 1, 1#32⟩ : EncCfg) ≠ ⟨.pca, false, false, false, 2, 2#32⟩ ∧
    (⟨.pca, true, false, true, 1, 1#32⟩ : EncCfg) ≠ ⟨.pca, true, false, true, 2, 2#32⟩ ∧
    (⟨.random, true, false, true, 1, 1#32⟩ : EncCfg) = ⟨.random, true, false, true, 1, 1#32⟩ := by decide

/-- EmittedEndpointsAreOrdered: R240's example, and equal endpoints. -/
theorem witness_normalize :
    Machine.normalize ⟨0x001F#16, 0xF800#16, List.replicate 16 0#2⟩ = ⟨0xF800#16, 0x001F#16, List.replicate 16 1#2⟩ ∧
    Machine.normalize ⟨0x001F#16, 0x001F#16, [3#2]⟩ = ⟨0x001F#16, 0x001F#16, [0#2]⟩ := by decide

/-- NearestIsTheLowestMinimum: R144's example, with lower indices that are strictly farther. -/
theorem witness_nearest : nearest ⟨200, 0, 60⟩ (palette 0xF800#16 0x001F#16) = 2#2 := by decide

/-- NormalisedVectorsFitSixteenBits: the zero vector, the largest that is kept, and R197's example, which is shifted. -/
theorem witness_normalised : maxAbs ⟨0, 0, 0⟩ = 0 ∧ maxAbs ⟨32767, -32767, 0⟩ < 2 ^ 15 ∧
    normVec ⟨60607692800, -60607692800, 0⟩ = ⟨28900, -28900, 0⟩ := by decide

/-- GeneratorNeverReachesZero: R221's example. -/
theorem witness_generator : (1#32 : Word) ≠ 0#32 ∧ xorshift32 1#32 = 0x00042021#32 := by decide

/-- CanonicalMemoriesAreEqualData: a memory in canonical form, and one that is not. -/
theorem witness_canonical : Memory.wf [(0, 1#8), (0xFFFFFFFF, 2#8)] = true ∧ Memory.wf [(1, 1#8), (0, 2#8)] = false := by
  decide

end Sys2Proof.Tests
end

section
/-! The two registers by which the host drives the engine: acceptance of a CMD write (10_state R43, R44) and CTRL with
the interrupt line (R22, 60_exceptions R376). -/

namespace Sys2Proof.Machine

open Sys2Proof

/-! ## The interrupt line -/

/-- R376: irq is high exactly when it is enabled and the engine is done. -/
theorem irq_eq_true_iff (s : State) : s.irq = true ↔ s.irqEn = true ∧ s.status.done = true := by
  simp [State.irq]

/-- R376: acceptance clears DONE, so the line is low whatever IRQ_EN is. -/
@[simp] theorem irq_accept (s : State) (w : Word) : (s.accept w).irq = false := by
  simp [State.irq]

/-- R401: no reset leaves the line high. -/
@[simp] theorem irq_resetEngine (s : State) : s.resetEngine.irq = false := by
  simp [State.irq]

/-! ## Acceptance of a command -/

/-- R43: an idle engine accepts the word written to CMD, when no range the command accesses meets a device (R66). -/
theorem writeCmd_of_idle {s : State} {w : Word} (hidle : s.status.busy = false)
    (hdev : ∀ x y, accessedSpans w s.ops = some (x, y) → s.platform.onDevice [x, y] = false) :
    s.writeCmd w = .next (s.accept w) := by
  rw [State.writeCmd, if_neg (by simp [hidle])]
  cases hspans : accessedSpans w s.ops with
  | none => rfl
  | some p => simp [hdev p.1 p.2 hspans]

/-- The engine's step with a legal command running is that command. -/
theorem engineStep_of_running {s : State} {i : Instr} (h : s.running i) : engineStep s = exec i s := by
  obtain ⟨hbusy, hdecode⟩ := h
  simp [engineStep, hbusy, hdecode]

/-- R43, R44: what runs after an acceptance is the accepted word. -/
theorem running_accept (s : State) {w : Word} {i : Instr} (h : decode w = .ok i) : (s.accept w).running i :=
  ⟨rfl, h⟩

/-- Settles O14: the write answers `State.accept`, whose fields are those R43 and R44 list. -/
theorem acceptanceLatchesTheCommand : Obligations.AcceptanceLatchesTheCommand := by
  intro s w hidle hdev
  have hwrite : s.wrReg .cmd w = .next (s.accept w) := (wrReg_eq s .cmd w).trans (writeCmd_of_idle hidle hdev)
  have hruns : ∀ i, decode w = .ok i → engineStep (s.accept w) = exec i (s.accept w) :=
    fun i hi => engineStep_of_running (running_accept s hi)
  exact ⟨s.accept w, hwrite, accept_cmd s w, congrArg Latches.cmd (accept_latch s w),
    congrArg Latches.ops (accept_latch s w), accept_status s w, accept_ops s w, accept_res s w, accept_irqEn s w,
    irq_accept s w, accept_mem s w, hruns⟩

/-! ## CTRL -/

/-- R22: IRQ_EN is the only bit of CTRL that can read 1. -/
theorem ctrlWord_eq (b : Bool) : ctrlWord b = if b then 0x00000001#32 else 0x00000000#32 := by
  cases b <;> rfl

/-- R22: without SOFT_RESET, a CTRL write is a write of IRQ_EN. -/
theorem writeCtrl_of_bit1_clear (s : State) {w : Word} (h : w.getLsbD 1 = false) :
    s.writeCtrl w = { s with irqEn := w.getLsbD 0 } :=
  if_neg (Bool.eq_false_iff.1 h)

/-- R22: with SOFT_RESET, bit 0 of the written word has no effect. -/
theorem writeCtrl_of_bit1_set (s : State) {w : Word} (h : w.getLsbD 1 = true) : s.writeCtrl w = s.resetEngine :=
  if_pos h

/-- A CTRL write through the window always goes through. -/
theorem wrReg_ctrl (s : State) (w : Word) : s.wrReg .ctrl w = .next (s.writeCtrl w) :=
  wrReg_eq s .ctrl w

/-- Settles O20, by the value of bit 1 of the written word. -/
theorem controlRegister : Obligations.ControlRegister := by
  refine ⟨rfl, fun s w => ⟨ctrlWord_eq s.irqEn, fun hclear => ?_, fun hset => ?_, irq_eq_true_iff s⟩⟩
  · have hwrite : s.wrReg .ctrl w = .next { s with irqEn := w.getLsbD 0 } := by
      rw [wrReg_ctrl, writeCtrl_of_bit1_clear s hclear]
    exact ⟨_, hwrite, rfl, rfl⟩
  · have hwrite : s.wrReg .ctrl w = .next s.resetEngine := by
      rw [wrReg_ctrl, writeCtrl_of_bit1_set s hset]
    exact ⟨hwrite, resetEngine_irqEn s, irq_resetEngine s⟩

end Sys2Proof.Machine
end

section
/-! The decoder (30_encoding R102-R109): which words it refuses and by which reason, that it reads back every encoded
command, and how the engine ends an illegal word (R107, R364). -/

namespace Sys2Proof

/-! ## The fields of a command word -/

/-- OPCODE is the low byte of the word (R101). -/
theorem opcode_toNat (w : Word) : (w.extractLsb' 0 8).toNat = w.toNat % 256 := by
  simp [BitVec.extractLsb'_toNat]

/-- The reserved bits of format P, 31:8, on the number of the word (R102). -/
theorem reservedField_formatP_iff (w : Word) : w.extractLsb' 8 24 = 0#24 ↔ w.toNat / 256 = 0 := by
  rw [← BitVec.toNat_inj, BitVec.extractLsb'_toNat, Nat.shiftRight_eq_div_pow, BitVec.toNat_ofNat]
  omega

/-- The reserved bits of format E, 31:13, on the number of the word (R103). -/
theorem reservedField_formatE_iff (w : Word) : w.extractLsb' 13 19 = 0#19 ↔ w.toNat / 8192 = 0 := by
  rw [← BitVec.toNat_inj, BitVec.extractLsb'_toNat, Nat.shiftRight_eq_div_pow, BitVec.toNat_ofNat]
  omega

/-! ## The two formats -/

/-- R102: with bits 31:8 clear, a format P word is its command. -/
theorem decodeP_of_clear {w : Word} (h : w.toNat / 256 = 0) (i : Instr) : decodeP w i = .ok i :=
  if_pos ((reservedField_formatP_iff w).2 h)

/-- R107 (b): format P has no field in bits 31:8. -/
theorem decodeP_of_set {w : Word} (h : w.toNat / 256 ≠ 0) (i : Instr) : decodeP w i = .error .reservedBits :=
  if_neg (mt (reservedField_formatP_iff w).1 h)

/-- R103: with bits 31:13 clear, a format E word is its command with the four fields. -/
theorem decodeE_of_clear {w : Word} (h : w.toNat / 8192 = 0) (mk : Method → Bool → Bool → Bool → Instr) :
    decodeE w mk = .ok (mk (.ofCode (w.extractLsb' 8 2)) (w.getLsbD 10) (w.getLsbD 11) (w.getLsbD 12)) :=
  if_pos ((reservedField_formatE_iff w).2 h)

/-- R107 (c): format E has no field in bits 31:13. -/
theorem decodeE_of_set {w : Word} (h : w.toNat / 8192 ≠ 0) (mk : Method → Bool → Bool → Bool → Instr) :
    decodeE w mk = .error .reservedBits :=
  if_neg (mt (reservedField_formatE_iff w).1 h)

/-- R106: OPCODE alone selects the format: none, E or P. -/
theorem decode_cases (w : Word) :
    (9 ≤ w.toNat % 256 ∧ decode w = .error .reservedOpcode) ∨
    ((w.toNat % 256 = 2 ∨ w.toNat % 256 = 5) ∧ ∃ mk, decode w = decodeE w mk) ∨
    (w.toNat % 256 < 9 ∧ w.toNat % 256 ≠ 2 ∧ w.toNat % 256 ≠ 5 ∧ ∃ i, decode w = decodeP w i) := by
  unfold decode
  rw [opcode_toNat]
  split
  case h_3 hop => exact .inr (.inl ⟨.inl hop, _, rfl⟩)
  case h_6 hop => exact .inr (.inl ⟨.inr hop, _, rfl⟩)
  case h_10 =>
    refine .inl ⟨?_, rfl⟩
    simp only [imp_false] at *
    omega
  all_goals exact .inr (.inr ⟨by omega, by omega, by omega, _, rfl⟩)

/-! ## Illegal words -/

/-- A command word is illegal (R107), on its number: clauses (a), (b) and (c). -/
def illegalWord (w : Word) : Prop :=
  9 ≤ w.toNat % 256 ∨ (w.toNat % 256 ≠ 2 ∧ w.toNat % 256 ≠ 5 ∧ w.toNat / 256 ≠ 0) ∨
    ((w.toNat % 256 = 2 ∨ w.toNat % 256 = 5) ∧ w.toNat / 8192 ≠ 0)

/-- R107 (a): the reserved opcodes. -/
theorem decode_of_reservedOpcode {w : Word} (h : 9 ≤ w.toNat % 256) : decode w = .error .reservedOpcode := by
  obtain ⟨_, hd⟩ | ⟨hE, _⟩ | ⟨hlow, _⟩ := decode_cases w
  · exact hd
  · omega
  · omega

/-- R107 (b), for the opcodes of format P. -/
theorem decode_of_reservedBits_formatP {w : Word} (hlow : w.toNat % 256 < 9)
    (hP : w.toNat % 256 ≠ 2 ∧ w.toNat % 256 ≠ 5) (h : w.toNat / 256 ≠ 0) : decode w = .error .reservedBits := by
  obtain ⟨ha, _⟩ | ⟨hE, _⟩ | ⟨_, _, _, i, hd⟩ := decode_cases w
  · omega
  · omega
  · rw [hd, decodeP_of_set h]

/-- R107 (c), for the opcodes of format E. -/
theorem decode_of_reservedBits_formatE {w : Word} (hE : w.toNat % 256 = 2 ∨ w.toNat % 256 = 5)
    (h : w.toNat / 8192 ≠ 0) : decode w = .error .reservedBits := by
  obtain ⟨ha, _⟩ | ⟨_, mk, hd⟩ | ⟨_, h2, h5, _⟩ := decode_cases w
  · omega
  · rw [hd, decodeE_of_set h]
  · omega

/-- Every word of R107 is refused. -/
theorem decode_of_illegalWord {w : Word} (h : illegalWord w) : ∃ e, decode w = .error e := by
  by_cases ha : 9 ≤ w.toNat % 256
  · exact ⟨_, decode_of_reservedOpcode ha⟩
  · obtain hop | ⟨h2, h5, hbits⟩ | ⟨hE, hbits⟩ := h
    · exact absurd hop ha
    · exact ⟨_, decode_of_reservedBits_formatP (by omega) ⟨h2, h5⟩ hbits⟩
    · exact ⟨_, decode_of_reservedBits_formatE hE hbits⟩

/-- R107: "No other word is illegal". -/
theorem decode_of_not_illegalWord {w : Word} (h : ¬illegalWord w) : ∃ i, decode w = .ok i := by
  unfold illegalWord at h
  obtain ⟨ha, _⟩ | ⟨hE, mk, hd⟩ | ⟨_, h2, h5, i, hd⟩ := decode_cases w
  · omega
  · exact ⟨_, hd.trans (decodeE_of_clear (by omega) mk)⟩
  · exact ⟨i, hd.trans (decodeP_of_clear (by omega) i)⟩

/-! ## Encoded commands -/

/-- R105: the codes of the methods are distinct. -/
@[simp] theorem Method.ofCode_code (m : Method) : Method.ofCode m.code = m := by
  cases m <;> rfl

section

variable (opcode : BitVec 8) (m : Method) (e d r : Bool)

/-- R103: the bits of a format E word, field by field. -/
theorem getLsbD_encodeE (j : Nat) : (encodeE opcode m e d r).getLsbD j =
    if j < 8 then opcode.getLsbD j else if j < 10 then m.code.getLsbD (j - 8) else
    if j = 10 then e else if j = 11 then d else if j = 12 then r else false := by
  change (0#19 ++ BitVec.ofBool r ++ BitVec.ofBool d ++ BitVec.ofBool e ++ m.code ++ opcode).getLsbD j = _
  simp only [BitVec.getLsbD_append, BitVec.getLsbD_ofBool, BitVec.getLsbD_zero]
  grind

/-- OPCODE, bits 7:0. -/
theorem opcode_encodeE : (encodeE opcode m e d r).extractLsb' 0 8 = opcode := by
  ext j hj
  rw [BitVec.getElem_extractLsb', getLsbD_encodeE]
  grind

/-- METHOD, bits 9:8. -/
theorem method_encodeE : (encodeE opcode m e d r).extractLsb' 8 2 = m.code := by
  ext j hj
  rw [BitVec.getElem_extractLsb', getLsbD_encodeE]
  grind

/-- The reserved bits, 31:13. -/
theorem reserved_encodeE : (encodeE opcode m e d r).extractLsb' 13 19 = 0#19 := by
  ext j hj
  rw [BitVec.getElem_extractLsb', getLsbD_encodeE]
  grind

/-- R103: every value of the fields is legal and read back. -/
theorem decodeE_encodeE (mk : Method → Bool → Bool → Bool → Instr) :
    decodeE (encodeE opcode m e d r) mk = .ok (mk m e d r) := by
  rw [decodeE, if_pos (reserved_encodeE opcode m e d r), method_encodeE, Method.ofCode_code]
  simp only [getLsbD_encodeE]
  rfl

end

/-- R109: the decoder reads back every command. -/
theorem decode_encode (i : Instr) : decode (encode i) = .ok i := by
  cases i with
  | encBlock m e d r => simp [encode, decode, opcode_encodeE, decodeE_encodeE]
  | encImage m e d r => simp [encode, decode, opcode_encodeE, decodeE_encodeE]
  | _ => rfl

end Sys2Proof

namespace Sys2Proof.Machine

open Sys2Proof

/-- R361, R370: what `raise Error(CODE)` leaves, seen from the host. -/
theorem failedWith_raiseError (s : State) (e : ErrCode) : failedWith (.next (s.raiseError e)) s e.code :=
  ⟨s.raiseError e, rfl, by simp [sameHostSide], by simp, by simp, by simp, by simp, by simp, by simp, by simp, by simp⟩

/-- R364: the engine's step with an illegal word running. -/
theorem engineStep_of_illegal {s : State} {e : Illegal} (hbusy : s.status.busy = true)
    (h : decode s.latch.cmd = .error e) : engineStep s = .next (s.raiseError .illegalCommand) := by
  simp [engineStep, hbusy, h, State.illegal]

/-- Settles O3: R107's clauses decide what the decoder answers, and the engine's step follows its answer. -/
theorem illegalWordsEndWithIllegalCommand : Obligations.IllegalWordsEndWithIllegalCommand := by
  intro s hbusy
  refine ⟨fun hbad : illegalWord s.latch.cmd => ?_, fun hlegal : ¬illegalWord s.latch.cmd => ?_⟩
  · obtain ⟨e, he⟩ := decode_of_illegalWord hbad
    rw [engineStep_of_illegal hbusy he]
    exact failedWith_raiseError s .illegalCommand
  · obtain ⟨i, hi⟩ := decode_of_not_illegalWord hlegal
    exact ⟨i, hi, engineStep_of_running ⟨hbusy, hi⟩⟩

/-- Settles O1: the legal words are the encodings of their commands, and each illegal word meets the clause of R107 that
R110 names. -/
theorem specExampleWordsDecode : Obligations.SpecExampleWordsDecode :=
  ⟨decode_encode (.encBlock .basic false false false), decode_encode (.encBlock .pca false false false),
    decode_encode (.encBlock .pca false false true), decode_encode (.encBlock .pca true false true),
    decode_encode (.encBlock .random true false false), decode_encode (.encBlock .cluster false false false),
    decode_encode (.encImage .basic false true false), decode_encode .decBlock, decode_encode .ddsParseHdr,
    decode_of_reservedOpcode (by decide), decode_of_reservedBits_formatP (by decide) (by decide) (by decide),
    decode_of_reservedBits_formatE (by decide) (by decide)⟩

end Sys2Proof.Machine
end

section
/-! Bit replication and the quantizers (40_palette_math R131-R138): expansion as arithmetic, and quantization as its
inverse. -/

namespace Sys2Proof.Machine

open Sys2Proof

/-! ## Bit replication -/

/-- R131: on a 5-bit code the replicated bits stand below the shifted code, so the or is a sum. -/
theorem E5_eq {q : Nat} (hq : q ≤ 31) : E5 q = 8 * q + q / 4 := by
  have hlow : q >>> 2 < 2 ^ 3 := by rw [Nat.shiftRight_eq_div_pow]; omega
  rw [E5, ← Nat.shiftLeft_add_eq_or_of_lt hlow, Nat.shiftLeft_eq, Nat.shiftRight_eq_div_pow]
  omega

/-- R131: the same for a 6-bit code. -/
theorem E6_eq {q : Nat} (hq : q ≤ 63) : E6 q = 4 * q + q / 16 := by
  have hlow : q >>> 4 < 2 ^ 2 := by rw [Nat.shiftRight_eq_div_pow]; omega
  rw [E6, ← Nat.shiftLeft_add_eq_or_of_lt hlow, Nat.shiftLeft_eq, Nat.shiftRight_eq_div_pow]
  omega

/-- R133: E5 is strictly increasing on the 5-bit codes. -/
theorem E5_lt_E5 {p q : Nat} (hpq : p < q) (hq : q ≤ 31) : E5 p < E5 q := by
  rw [E5_eq hq, E5_eq (by omega)]
  omega

/-- R133: E6 is strictly increasing on the 6-bit codes. -/
theorem E6_lt_E6 {p q : Nat} (hpq : p < q) (hq : q ≤ 63) : E6 p < E6 q := by
  rw [E6_eq hq, E6_eq (by omega)]
  omega

/-- R133 in the library's terms, which give monotonicity and injectivity. -/
theorem E5_strictMonoOn : StrictMonoOn E5 (Set.Iic 31) := fun _ _ _ hq hpq => E5_lt_E5 hpq hq

/-- R133 in the library's terms. -/
theorem E6_strictMonoOn : StrictMonoOn E6 (Set.Iic 63) := fun _ _ _ hq hpq => E6_lt_E6 hpq hq

/-- A 5-bit field of an endpoint is a code of 0..31. -/
theorem toNat_le_31 (x : BitVec 5) : x.toNat ≤ 31 := Nat.le_of_lt_succ x.isLt

/-- The 6-bit field of an endpoint is a code of 0..63. -/
theorem toNat_le_63 (x : BitVec 6) : x.toNat ≤ 63 := Nat.le_of_lt_succ x.isLt

/-- Settles O43: R133 for the codes, and for each field of an endpoint, whose value is a code. -/
theorem expansionIsMonotonic : Obligations.ExpansionIsMonotonic := by
  have field5 (x y : BitVec 5) (h : x ≤ y) : E5 x.toNat ≤ E5 y.toNat :=
    E5_strictMonoOn.monotoneOn (toNat_le_31 x) (toNat_le_31 y) h
  have field6 (x y : BitVec 6) (h : x ≤ y) : E6 x.toNat ≤ E6 y.toNat :=
    E6_strictMonoOn.monotoneOn (toNat_le_63 x) (toNat_le_63 y) h
  exact ⟨fun _ _ => E5_lt_E5, fun _ _ => E6_lt_E6, rfl, rfl, rfl, rfl,
    fun _ _ => ⟨field5 _ _, field6 _ _, field5 _ _⟩⟩

/-! ## Quantizers -/

/-- `absDiff` is the absolute value of the difference (R135). -/
theorem absDiff_eq_natAbs (a b : Nat) : absDiff a b = ((a : Int) - b).natAbs := by
  unfold absDiff
  omega

/-- What the NEAREST quantizer minimises (R135): the distance of v from the expansion of code q. -/
def codeDistance (expand : Nat → Nat) (v q : Nat) : Int := absDiff (expand q) v

theorem nearestCode_eq_argmin (expand : Nat → Nat) (last v : Nat) :
    nearestCode expand last v = argmin (codeDistance expand v) last := rfl

/-- R135: the nearest code is in range, no code expands nearer to v, and every lower code expands strictly farther. -/
theorem nearestCode_spec (expand : Nat → Nat) (last v : Nat) :
    let c := nearestCode expand last v
    c ≤ last ∧ (∀ n ≤ last, ((expand c : Int) - v).natAbs ≤ ((expand n : Int) - v).natAbs) ∧
      ∀ n < c, ((expand c : Int) - v).natAbs < ((expand n : Int) - v).natAbs := by
  simp only [← absDiff_eq_natAbs, nearestCode_eq_argmin]
  exact ⟨argmin_le _ _, fun n hn => Int.ofNat_le.1 (argmin_min (codeDistance expand v) last n hn),
    fun n hn => Int.ofNat_lt.1 (argmin_first (codeDistance expand v) last n hn)⟩

/-- R138 for NEAREST: the nearest code of an expanded code is at distance 0, and different codes expand differently. -/
theorem nearestCode_expand {expand : Nat → Nat} {last n : Nat} (hmono : StrictMonoOn expand (Set.Iic last))
    (hn : n ≤ last) : nearestCode expand last (expand n) = n := by
  obtain ⟨hrange, hmin, -⟩ := nearestCode_spec expand last (expand n)
  have hzero := hmin n hn
  exact hmono.injOn hrange hn (by omega)

/-- R138: quantization undoes E5, for both values of P_QUANT. -/
theorem Q5_E5 (q : Quant) {n : Nat} (hn : n ≤ 31) : Q5 q (E5 n) = n := by
  cases q with
  | nearest => exact nearestCode_expand E5_strictMonoOn hn
  | truncate =>
    rw [Q5, E5_eq hn, Nat.shiftRight_eq_div_pow]
    omega

/-- R138: quantization undoes E6, for both values of P_QUANT. -/
theorem Q6_E6 (q : Quant) {n : Nat} (hn : n ≤ 63) : Q6 q (E6 n) = n := by
  cases q with
  | nearest => exact nearestCode_expand E6_strictMonoOn hn
  | truncate =>
    rw [Q6, E6_eq hn, Nat.shiftRight_eq_div_pow]
    omega

/-- R130, R137: an endpoint is put together again from its three fields. -/
theorem ofNat_fields565 (c : C565) :
    BitVec.ofNat 16 (((c.extractLsb' 11 5).toNat <<< 11) ||| ((c.extractLsb' 5 6).toNat <<< 5) |||
      (c.extractLsb' 0 5).toNat) = c := by
  have hg : (c.extractLsb' 5 6).toNat <<< 5 < 2 ^ 11 := by rw [Nat.shiftLeft_eq]; omega
  have hb : (c.extractLsb' 0 5).toNat < 2 ^ 5 := (c.extractLsb' 0 5).isLt
  rw [Nat.or_assoc, ← Nat.shiftLeft_add_eq_or_of_lt hb, ← Nat.shiftLeft_add_eq_or_of_lt (by omega)]
  apply BitVec.eq_of_toNat_eq
  simp only [BitVec.toNat_ofNat, BitVec.extractLsb'_toNat, Nat.shiftLeft_eq, Nat.shiftRight_eq_div_pow]
  omega

/-- R138: packing undoes expansion of an endpoint, field by field. -/
theorem pack565_expand565to888 (q : Quant) (c : C565) : pack565 q (expand565to888 c) = c := by
  simp only [pack565, expand565to888, Q5_E5 q (toNat_le_31 _), Q6_E6 q (toNat_le_63 _), ofNat_fields565]

/-- Settles O44: the argmin of R135, the shifts of R136 as divisions, and R138. -/
theorem quantizationFollowsItsRuleAndUndoesExpansion : Obligations.QuantizationFollowsItsRuleAndUndoesExpansion :=
  ⟨fun v _ => ⟨nearestCode_spec E5 31 v, nearestCode_spec E6 63 v, Nat.shiftRight_eq_div_pow v 3,
      Nat.shiftRight_eq_div_pow v 2⟩,
    fun q => ⟨fun _ => Q5_E5 q, fun _ => Q6_E6 q, pack565_expand565to888 q⟩⟩

end Sys2Proof.Machine
end

section
/-! Palettes, the nearest index and the index word (40_palette_math R140-R144, R153, R154). -/

namespace Sys2Proof.Machine

open Sys2Proof

/-! ## Palette entries -/

/-- The indices are 0..3 (R153). -/
theorem idx_cases (i : Idx) : i = 0#2 ∨ i = 1#2 ∨ i = 2#2 ∨ i = 3#2 := by
  revert i
  decide

@[simp] theorem Palette.entry_zero (P : Palette) : P.entry 0#2 = P.p0 := rfl
@[simp] theorem Palette.entry_one (P : Palette) : P.entry 1#2 = P.p1 := rfl
@[simp] theorem Palette.entry_two (P : Palette) : P.entry 2#2 = P.p2 := rfl
@[simp] theorem Palette.entry_three (P : Palette) : P.entry 3#2 = P.p3 := rfl

/-- R142: exchanging the endpoints exchanges entries 0 and 1, and entries 2 and 3. -/
theorem entry_palette_swap (c0 c1 : C565) (i : Idx) : (palette c1 c0).entry i = (palette c0 c1).entry (i ^^^ 1#2) := by
  obtain rfl | rfl | rfl | rfl := idx_cases i <;> rfl

/-- R141: the blend of a colour with itself is the colour. -/
@[simp] theorem blend_self (a : RGB) : blend a a = a := by
  have hthird (x : Nat) : (2 * x + x + 1) / 3 = x := by omega
  simp only [blend, rgbOf, hthird, chan]

/-- R144: with equal endpoints all four entries are the endpoint's colour. -/
theorem entry_palette_self (c : C565) (i : Idx) : (palette c c).entry i = expand565to888 c := by
  obtain rfl | rfl | rfl | rfl := idx_cases i <;> simp [palette]

/-! ## The nearest index -/

/-- What `nearest` minimises (R144): the distance of t from entry i. -/
def entryDistance (t : RGB) (P : Palette) (i : Nat) : Int := d2 t (P.entry (BitVec.ofNat 2 i))

@[simp] theorem entryDistance_toNat (t : RGB) (P : Palette) (i : Idx) :
    entryDistance t P i.toNat = d2 t (P.entry i) := by
  rw [entryDistance, BitVec.ofNat_toNat, BitVec.setWidth_eq]

/-- R144: the nearest index as a number; 2 bits hold it. -/
theorem toNat_nearest (t : RGB) (P : Palette) : (nearest t P).toNat = argmin (entryDistance t P) 3 :=
  Nat.mod_eq_of_lt (Nat.lt_succ_of_le (argmin_le (entryDistance t P) 3))

/-- R144: no entry is nearer than the one chosen. -/
theorem d2_nearest_le (t : RGB) (P : Palette) (i : Idx) : d2 t (P.entry (nearest t P)) ≤ d2 t (P.entry i) := by
  have hmin := argmin_min (entryDistance t P) 3 i.toNat (Nat.le_of_lt_succ i.isLt)
  rwa [← toNat_nearest, entryDistance_toNat, entryDistance_toNat, Int.ofNat_le] at hmin

/-- R144: every lower index is strictly farther than the one chosen. -/
theorem d2_nearest_lt (t : RGB) (P : Palette) {i : Idx} (hi : i < nearest t P) :
    d2 t (P.entry (nearest t P)) < d2 t (P.entry i) := by
  have hfirst := argmin_first (entryDistance t P) 3 i.toNat (by rwa [← toNat_nearest, ← BitVec.lt_def])
  rwa [← toNat_nearest, entryDistance_toNat, entryDistance_toNat, Int.ofNat_lt] at hfirst

/-- R144: when index 0 is at the least distance, it is the one chosen. -/
theorem nearest_eq_zero {t : RGB} {P : Palette} (h : ∀ i : Idx, d2 t (P.entry 0#2) ≤ d2 t (P.entry i)) :
    nearest t P = 0#2 := by
  by_contra hne
  have hpos : 0#2 < nearest t P := by bv_omega
  exact absurd (d2_nearest_lt t P hpos) (Nat.not_lt.2 (h _))

/-- R144: with equal endpoints the index is 0 for every colour. -/
theorem nearest_palette_self (t : RGB) (c : C565) : nearest t (palette c c) = 0#2 :=
  nearest_eq_zero fun i => by rw [entry_palette_self, entry_palette_self]

/-- Settles O46, from R12's rule for a tie. -/
theorem nearestIsTheLowestMinimum : Obligations.NearestIsTheLowestMinimum :=
  fun t P => ⟨d2_nearest_le t P, fun _ => d2_nearest_lt t P, nearest_palette_self t⟩

/-! ## The index word -/

/-- Index k of a word is its digit k in base 4 (R154). -/
theorem toNat_index (w : Word) (k : Nat) : (w.extractLsb' (2 * k) 2).toNat = w.toNat / 4 ^ k % 4 := by
  rw [BitVec.extractLsb'_toNat, Nat.shiftRight_eq_div_pow, Nat.pow_mul]

/-- A word holds 16 indices. -/
@[simp] theorem length_unpackIndices (w : Word) : (unpackIndices w).length = 16 := by
  simp [unpackIndices]

/-- Pixel k's index is bits 2k+1..2k (R154). -/
@[simp] theorem getElem_unpackIndices (w : Word) (k : Nat) (hk : k < (unpackIndices w).length) :
    (unpackIndices w)[k] = w.extractLsb' (2 * k) 2 := by
  simp [unpackIndices]

/-- Packed indices take two bits each (R153). -/
theorem packIndices_lt (idx : List Idx) : packIndices idx < 4 ^ idx.length := by
  induction idx with
  | nil => exact Nat.one_pos
  | cons i is ih =>
    have hi := i.isLt
    simp only [packIndices, List.length_cons, Nat.pow_succ]
    omega

/-- Digit k in base 4 of packed indices is index k (R153). -/
theorem packIndices_digit (idx : List Idx) (k : Nat) (hk : k < idx.length) :
    packIndices idx / 4 ^ k % 4 = idx[k].toNat := by
  induction idx generalizing k with
  | nil => exact absurd hk (Nat.not_lt_zero k)
  | cons i is ih =>
    have hi := i.isLt
    cases k with
    | zero => simp only [packIndices, List.getElem_cons_zero]; omega
    | succ k =>
      have htail : (i.toNat + 4 * packIndices is) / 4 = packIndices is := by omega
      rw [packIndices, Nat.pow_succ', ← Nat.div_div_eq_div_mul, htail, List.getElem_cons_succ]
      exact ih k (Nat.lt_of_succ_lt_succ hk)

/-- An index appended at the end takes the digit above the others (R153). -/
theorem packIndices_concat (idx : List Idx) (i : Idx) :
    packIndices (idx ++ [i]) = packIndices idx + 4 ^ idx.length * i.toNat := by
  induction idx with
  | nil => simp [packIndices]
  | cons j js ih =>
    simp only [List.cons_append, packIndices, ih, List.length_cons, Nat.pow_succ]
    ring

/-- Packing the first n indices of a word gives its low 2n bits. -/
theorem packIndices_extract (w : Word) (n : Nat) :
    packIndices ((List.range n).map fun k => w.extractLsb' (2 * k) 2) = w.toNat % 4 ^ n := by
  induction n with
  | zero => simp [packIndices, Nat.mod_one]
  | succ n ih =>
    rw [List.range_succ, List.map_append, List.map_singleton, packIndices_concat, ih, toNat_index, List.length_map,
      List.length_range, Nat.mod_pow_succ]

/-- R154: packing undoes unpacking. -/
theorem packIndices_unpackIndices (w : Word) : packIndices (unpackIndices w) = w.toNat :=
  (packIndices_extract w 16).trans (Nat.mod_eq_of_lt w.isLt)

/-- R154: 16 indices fill one word. -/
theorem packIndices_lt_word {idx : List Idx} (h : idx.length = 16) : packIndices idx < 2 ^ 32 := by
  simpa [h] using packIndices_lt idx

/-- R154: unpacking undoes packing. -/
theorem unpackIndices_packIndices {idx : List Idx} (h : idx.length = 16) :
    unpackIndices (BitVec.ofNat 32 (packIndices idx)) = idx := by
  refine List.ext_getElem (by simp [h]) fun k _ hk => BitVec.eq_of_toNat_eq ?_
  rw [getElem_unpackIndices, toNat_index, BitVec.toNat_ofNat, Nat.mod_eq_of_lt (packIndices_lt_word h),
    packIndices_digit idx k hk]

/-- Settles O47: the digits in base 4 of the word are the indices. -/
theorem indexPackingIsABijection : Obligations.IndexPackingIsABijection := by
  refine ⟨fun _ hlen => ⟨packIndices_lt_word hlen, unpackIndices_packIndices hlen⟩,
    fun w => ⟨length_unpackIndices w, ?_, fun k hk => ?_⟩⟩
  · rw [packIndices_unpackIndices, BitVec.ofNat_toNat, BitVec.setWidth_eq]
  · rw [List.getD_eq_getElem _ _ (by simpa using hk), getElem_unpackIndices, toNat_index]

/-! ## Swapped endpoints -/

/-- R142: XOR with 0x55555555 is XOR of every index with 1. -/
theorem unpackIndices_xor_ones (w : Word) :
    unpackIndices (w ^^^ 0x55555555#32) = (unpackIndices w).map (· ^^^ 1#2) := by
  have hmask : ∀ k < 16, (0x55555555#32).extractLsb' (2 * k) 2 = 1#2 := by decide
  refine List.ext_getElem (by simp) fun k hk _ => ?_
  rw [List.getElem_map, getElem_unpackIndices, getElem_unpackIndices, BitVec.extractLsb'_xor,
    hmask k (by simpa using hk)]

/-- Settles O45: the exchange of entries and the exchange of indices cancel, as XOR with 1 is its own inverse. -/
theorem paletteSwapSymmetry : Obligations.PaletteSwapSymmetry := by
  refine fun c0 c1 => ⟨entry_palette_swap c0 c1, fun w => ?_⟩
  have hcancel (i : Idx) : (palette c1 c0).entry (i ^^^ 1#2) = (palette c0 c1).entry i := by
    rw [entry_palette_swap, BitVec.xor_assoc, BitVec.xor_self, BitVec.xor_zero]
  simp only [decodeBlock, unpackIndices_xor_ones, List.map_map, Function.comp_def, hcancel]

end Sys2Proof.Machine
end

section
/-! The candidates of the encoder (42_block_encoder): every strategy ends with an assigned candidate, so the emitted
index word holds all its indices and the recorded error is the error of the decoded block (41_block_decoder R174). -/

namespace Sys2Proof.Machine

open Sys2Proof

section Candidates

/-! ## Assigned candidates -/

/-- The candidate is the assignment (R145) of some two endpoints. -/
def IsAssigned (P : Params) (cfg : EncCfg) (p : List RGB) (c : Candidate) : Prop :=
  ∃ c0 c1, c = assign P.dither p c0 c1 cfg.useDither

variable {P : Params} {cfg : EncCfg} {p : List RGB}

theorem isAssigned_assign (c0 c1 : C565) : IsAssigned P cfg p (assign P.dither p c0 c1 cfg.useDither) :=
  ⟨c0, c1, rfl⟩

/-- A block of 16 pixels gets 16 indices, whatever the endpoints. -/
theorem IsAssigned.length_idx {c : Candidate} (hc : IsAssigned P cfg p c) (hp : p.length = 16) :
    c.idx.length = 16 := by
  obtain ⟨c0, c1, rfl⟩ := hc
  exact assign_length P.dither p c0 c1 cfg.useDither hp

theorem isAssigned_candidateOf (a b : RGB) : IsAssigned P cfg p (candidateOf P cfg p a b) := isAssigned_assign _ _

theorem isAssigned_basic : IsAssigned P cfg p (basic P cfg p) := isAssigned_candidateOf _ _

theorem isAssigned_lloydRound (c : Candidate) : IsAssigned P cfg p (lloydRound P cfg p c) := isAssigned_assign _ _

/-- Keeping the better of two candidates makes no new one (R206, R224). -/
theorem IsAssigned.better {new best : Candidate} (hnew : IsAssigned P cfg p new) (hbest : IsAssigned P cfg p best) :
    IsAssigned P cfg p (better cfg p new best) := by
  obtain h | h := better_cases cfg p new best
  · rwa [h]
  · rwa [h]

/-- The candidate the guard lets through is one of the two (R210). -/
theorem guardBasic_cases (p : List RGB) (cand bas : Candidate) :
    guardBasic p cand bas = bas ∨ guardBasic p cand bas = cand := ite_eq_or_eq _ _ _

theorem IsAssigned.guardBasic {cand : Candidate} (hcand : IsAssigned P cfg p cand) :
    IsAssigned P cfg p (guardBasic p cand (basic P cfg p)) := by
  obtain h | h := guardBasic_cases p cand (basic P cfg p)
  · rw [h]; exact isAssigned_basic
  · rwa [h]

/-! ## The loops -/

/-- The best candidate of the refinement loop stays an assigned one; the current one only proposes the next (R206). -/
theorem IsAssigned.refineLoop (n : Nat) (cur : Candidate) {best : Candidate} (hbest : IsAssigned P cfg p best) :
    IsAssigned P cfg p (refineLoop P cfg p n cur best) := by
  induction n generalizing cur best with
  | zero => exact hbest
  | succ n ih =>
    have hbetter := (isAssigned_lloydRound cur).better hbest
    rw [Machine.refineLoop]
    split
    · exact hbetter
    · exact ih _ hbetter

theorem IsAssigned.refine {c : Candidate} (hc : IsAssigned P cfg p c) : IsAssigned P cfg p (refine P cfg p c) :=
  hc.refineLoop P.refineRounds c

/-- The best candidate of the Random rounds stays an assigned one (R224). -/
theorem IsAssigned.randomLoop (n : Nat) (x : Word) {best : Candidate} (hbest : IsAssigned P cfg p best) :
    IsAssigned P cfg p (randomLoop P cfg p n x best) := by
  induction n generalizing x best with
  | zero => exact hbest
  | succ n ih => exact ih _ ((isAssigned_candidateOf _ _).better hbest)

/-! ## The strategies -/

theorem isAssigned_pcaFrom (v : Vec3) : IsAssigned P cfg p (pcaFrom P cfg p v) := by
  rw [pcaFrom]
  split
  · exact (isAssigned_candidateOf _ _).refine.guardBasic
  · exact isAssigned_candidateOf _ _

theorem isAssigned_pca : IsAssigned P cfg p (pca P cfg p) := by
  rw [pca]
  split
  · exact isAssigned_basic
  · split
    · exact isAssigned_basic
    · exact isAssigned_pcaFrom _

theorem isAssigned_random (k : Nat) : IsAssigned P cfg p (random P cfg p k) := by
  have hbest := (isAssigned_basic (P := P) (cfg := cfg) (p := p)).randomLoop cfg.iterations
    (blockSeed P cfg.rngSeed k)
  rw [random]
  split
  · exact hbest.refine
  · exact hbest

theorem isAssigned_cluster : IsAssigned P cfg p (cluster P cfg p) := by
  rw [cluster]
  split
  · exact isAssigned_basic
  · exact (isAssigned_candidateOf _ _).guardBasic

/-- R190: whatever METHOD selects, the strategy's candidate is an assigned one. -/
theorem isAssigned_strategy (k : Nat) : IsAssigned P cfg p (strategy P cfg p k) := by
  rw [strategy]
  cases cfg.method with
  | basic => exact isAssigned_basic
  | pca => exact isAssigned_pca
  | random => exact isAssigned_random k
  | cluster => exact isAssigned_cluster

/-! ## The emitted block -/

/-- Normalising changes indices, never their number (R240). -/
@[simp] theorem length_idx_normalize (c : Candidate) : (normalize c).idx.length = c.idx.length := by
  rw [normalize]
  split
  · exact List.length_map _
  · split
    · exact List.length_map _
    · rfl

/-- The emitted candidate of a block of 16 pixels has 16 indices, as many as the index word holds. -/
theorem length_idx_emitted (k : Nat) (hp : p.length = 16) : (emitted P cfg p k).idx.length = 16 := by
  rw [emitted, length_idx_normalize, (isAssigned_strategy k).length_idx hp]

end Candidates

/-- The colours of a decoded block are the palette entries its indices name (R170). -/
theorem colors_decodeBlock (c0 c1 : C565) (w : Word) :
    colors (decodeBlock c0 c1 w) = (unpackIndices w).map (palette c0 c1).entry := by
  simp only [colors, decodeBlock, List.map_map, Function.comp_def, rgb]

/-- The error of a candidate with 16 indices is the distance between the pixels and the decoding of its index word: the
word gives back the very indices (R154). -/
theorem SSE_eq_sum_d2_decodeBlock (p : Block16) {c : Candidate} (hc : c.idx.length = 16) :
    SSE (colors p) c =
      ((p.zip (decodeBlock c.c0 c.c1 (BitVec.ofNat 32 (packIndices c.idx)))).map
        fun x => d2 (rgb x.1) (rgb x.2)).sum := by
  have hentries : c.idx.map c.palette.entry =
      colors (decodeBlock c.c0 c.c1 (BitVec.ofNat 32 (packIndices c.idx))) := by
    rw [colors_decodeBlock, unpackIndices_packIndices hc, Candidate.palette]
  calc SSE (colors p) c
      = (((colors p).zip (c.idx.map c.palette.entry)).map fun x => d2 x.1 x.2).sum := by
        rw [List.zip_map_right, List.map_map]; rfl
    _ = _ := by rw [hentries, colors, colors, List.zip_map, List.map_map]; rfl

/-- Settles O50: the emitted candidate has 16 indices, so decoding its index word gives the very colours its recorded
error is measured against. -/
theorem recordedErrorIsTheDecodedError : Obligations.RecordedErrorIsTheDecodedError := by
  intro P cfg p k hp
  have hcolors : (colors p).length = 16 := by rw [colors, List.length_map, hp]
  exact SSE_eq_sum_d2_decodeBlock p (length_idx_emitted k hcolors)

end Sys2Proof.Machine
end

section
/-! The final ordering of the endpoints (42_block_encoder R240): what normalisation does in each of its three cases, and
that it changes no decoded colour. -/

namespace Sys2Proof.Machine

open Sys2Proof

/-! ## The three cases -/

/-- R240: endpoints in the wrong order are exchanged, with their indices. -/
theorem normalize_of_lt {c : Candidate} (h : c.c0 < c.c1) :
    normalize c = ⟨c.c1, c.c0, c.idx.map fun i => i ^^^ 1#2⟩ := if_pos h

/-- R240: equal endpoints get indices 0. -/
theorem normalize_of_eq {c : Candidate} (h : c.c0 = c.c1) :
    normalize c = ⟨c.c0, c.c1, List.replicate c.idx.length 0#2⟩ := by
  rw [normalize, if_neg (by simp [h]), if_pos h, List.map_const']

/-- R240: endpoints already in order are kept. -/
theorem normalize_of_gt {c : Candidate} (h : c.c1 < c.c0) : normalize c = c := by
  rw [normalize, if_neg (by bv_omega), if_neg (by bv_omega)]

/-- The three cases of R240 leave no candidate out. -/
theorem endpoints_trichotomy (c : Candidate) : c.c0 < c.c1 ∨ c.c0 = c.c1 ∨ c.c1 < c.c0 := by
  bv_omega

/-! ## What decoding sees -/

/-- The colours a candidate stands for, pixel by pixel. -/
def Candidate.decoded (c : Candidate) : List RGB := c.idx.map c.palette.entry

/-- R146: the error of a candidate depends on its decoded colours alone. -/
theorem SSE_eq_sum_d2_decoded (p : List RGB) (c : Candidate) :
    SSE p c = ((p.zip c.decoded).map fun x => d2 x.1 x.2).sum := by
  rw [Candidate.decoded, List.zip_map_right, List.map_map]
  rfl

/-- R240: normalisation changes no decoded pixel; the exchange is R142, and equal endpoints have one colour. -/
@[simp] theorem decoded_normalize (c : Candidate) : (normalize c).decoded = c.decoded := by
  obtain hlt | heq | hgt := endpoints_trichotomy c
  · rw [normalize_of_lt hlt]
    simp only [Candidate.decoded, Candidate.palette, List.map_map, Function.comp_def]
    simp only [← entry_palette_swap]
  · rw [normalize_of_eq heq]
    simp only [Candidate.decoded, Candidate.palette, heq, funext (entry_palette_self c.c1), List.map_const',
      List.length_replicate]
  · rw [normalize_of_gt hgt]

/-- R240: normalisation changes no error. -/
@[simp] theorem SSE_normalize (p : List RGB) (c : Candidate) : SSE p (normalize c) = SSE p c := by
  rw [SSE_eq_sum_d2_decoded, SSE_eq_sum_d2_decoded, decoded_normalize]

/-! ## The order of the emitted endpoints -/

/-- R240: after normalisation the first endpoint is not the lower one. -/
theorem normalize_c1_le_c0 (c : Candidate) : (normalize c).c1 ≤ (normalize c).c0 := by
  obtain hlt | heq | hgt := endpoints_trichotomy c
  · rw [normalize_of_lt hlt]; exact BitVec.le_of_lt hlt
  · rw [normalize_of_eq heq]; exact BitVec.le_of_eq heq.symm
  · rw [normalize_of_gt hgt]; exact BitVec.le_of_lt hgt

/-- R240: equal endpoints come out only of equal endpoints, whose indices are 0. -/
theorem normalize_idx_of_eq {c : Candidate} (h : (normalize c).c0 = (normalize c).c1) :
    (normalize c).idx = List.replicate c.idx.length 0#2 := by
  obtain hlt | heq | hgt := endpoints_trichotomy c
  · rw [normalize_of_lt hlt] at h; bv_omega
  · rw [normalize_of_eq heq]
  · rw [normalize_of_gt hgt] at h; bv_omega

/-- R153: indices 0 pack to the word 0. -/
@[simp] theorem packIndices_replicate_zero (n : Nat) : packIndices (List.replicate n 0#2) = 0 := by
  induction n with
  | zero => rfl
  | succ n ih => simp [List.replicate_succ, packIndices, ih]

/-- Settles O49: the three cases of R240, and what each of them emits. -/
theorem emittedEndpointsAreOrdered : Obligations.EmittedEndpointsAreOrdered := by
  refine ⟨fun p c => ⟨normalize_of_lt, normalize_of_eq, normalize_of_gt, SSE_normalize p c, decoded_normalize c⟩,
    fun P cfg p k => ⟨normalize_c1_le_c0 _, fun heq => ?_⟩⟩
  have hzero := normalize_idx_of_eq heq
  simp only [encodeBlock, emitted, hzero, packIndices_replicate_zero]

/-! ## The guard -/

/-- R210: the guard lets nothing worse than Basic through. -/
theorem SSE_guardBasic_le (p : List RGB) (cand bas : Candidate) : SSE p (guardBasic p cand bas) ≤ SSE p bas := by
  rw [guardBasic]
  split
  · exact le_rfl
  · next h => exact Nat.le_of_not_lt h

/-- R244 for PCA with refinement: its two fallbacks are Basic itself, and its own candidate is guarded. -/
theorem SSE_pca_le_basic (P : Params) {cfg : EncCfg} (h : cfg.useRefine = true) (p : List RGB) :
    SSE p (pca P cfg p) ≤ SSE p (basic P cfg p) := by
  rw [pca]
  split
  · exact le_rfl
  · split
    · exact le_rfl
    · rw [pcaFrom, if_pos h]
      exact SSE_guardBasic_le _ _ _

/-- R244 for Cluster: its fallback is Basic itself, and its own candidate is guarded. -/
theorem SSE_cluster_le_basic (P : Params) (cfg : EncCfg) (p : List RGB) :
    SSE p (cluster P cfg p) ≤ SSE p (basic P cfg p) := by
  rw [cluster]
  split
  · exact le_rfl
  · exact SSE_guardBasic_le _ _ _

/-- The emitted error is the error of the strategy's candidate (R190, R240). -/
theorem err_encodeBlock (P : Params) (cfg : EncCfg) (p : Block16) (k : Nat) :
    (encodeBlock P cfg p k).err = SSE (colors p) (strategy P cfg (colors p) k) :=
  SSE_normalize _ _

/-- Settles O51: the guard's bound, through the normalisation. -/
theorem guardKeepsErrorAtMostBasic : Obligations.GuardKeepsErrorAtMostBasic := by
  intro P cfg p k hmethod
  rw [err_encodeBlock, strategy]
  obtain ⟨hpca, hrefine⟩ | hcluster := hmethod
  · rw [hpca]
    exact SSE_pca_le_basic P hrefine _
  · rw [hcluster]
    exact SSE_cluster_le_basic P cfg _

end Sys2Proof.Machine
end

section
/-! What the strategies consult of the configuration (42_block_encoder R191), function by function from the candidate
of two colours up to the whole strategy. -/

namespace Sys2Proof.Machine

open Sys2Proof

section Consulted

variable {a b : EncCfg}

/-! ## The dither flag -/

/-- R145: an assignment consults useDither alone. -/
theorem candidateOf_congr (hdither : a.useDither = b.useDither) (P : Params) (p : List RGB) :
    candidateOf P a p = candidateOf P b p := by
  funext x y
  rw [candidateOf, candidateOf, hdither]

/-- R191, the row of Basic. -/
theorem basic_congr (hdither : a.useDither = b.useDither) (P : Params) (p : List RGB) : basic P a p = basic P b p := by
  rw [basic, basic, candidateOf_congr hdither]

/-- R191, the row of Cluster: its k-means loop consults nothing. -/
theorem cluster_congr (hdither : a.useDither = b.useDither) (P : Params) (p : List RGB) :
    cluster P a p = cluster P b p := by
  rw [cluster, cluster, basic_congr hdither, candidateOf_congr hdither]

/-! ## Refinement -/

/-- R205: a round consults useDither alone. -/
theorem lloydRound_congr (hdither : a.useDither = b.useDither) (P : Params) (p : List RGB) :
    lloydRound P a p = lloydRound P b p := by
  funext c
  rw [lloydRound, lloydRound, hdither]

/-- R149: a comparison of scores consults useMSE alone. -/
theorem better_congr (hmse : a.useMSE = b.useMSE) (p : List RGB) : better a p = better b p := by
  funext new best
  rw [better, better, hmse]

/-- R206: the loop consults what its rounds and its comparisons do. -/
theorem refineLoop_congr (hdither : a.useDither = b.useDither) (hmse : a.useMSE = b.useMSE) (P : Params)
    (p : List RGB) (n : Nat) (cur best : Candidate) : refineLoop P a p n cur best = refineLoop P b p n cur best := by
  induction n generalizing cur best with
  | zero => rfl
  | succ n ih => simp only [refineLoop, lloydRound_congr hdither, better_congr hmse, ih]

/-! ## PCA -/

/-- R200: after the power iteration PCA consults useDither, useRefinement, and useMSE when it refines. -/
theorem pcaFrom_congr (hdither : a.useDither = b.useDither) (hrefine : a.useRefine = b.useRefine)
    (hmse : a.useRefine = true → a.useMSE = b.useMSE) (P : Params) (p : List RGB) (v : Vec3) :
    pcaFrom P a p v = pcaFrom P b p v := by
  rw [pcaFrom, pcaFrom, ← hrefine, candidateOf_congr hdither, basic_congr hdither]
  split
  · next h => rw [refine, refine, refineLoop_congr hdither (hmse h)]
  · rfl

/-- R191, the row of PCA. -/
theorem pca_congr (hdither : a.useDither = b.useDither) (hrefine : a.useRefine = b.useRefine)
    (hmse : a.useRefine = true → a.useMSE = b.useMSE) (P : Params) (p : List RGB) : pca P a p = pca P b p := by
  rw [pca, pca, basic_congr hdither, funext (pcaFrom_congr hdither hrefine hmse P p)]

end Consulted

/-- R152, R190: the emitted block depends on the colours and on what the strategy makes of them. -/
theorem encodeBlock_congr {P : Params} {a b : EncCfg} {p q : Block16} {j k : Nat} (hcolors : colors p = colors q)
    (h : strategy P a (colors q) j = strategy P b (colors q) k) : encodeBlock P a p j = encodeBlock P b q k := by
  simp only [encodeBlock, emitted, hcolors, h]

/-- Settles O54, row by row of R191's table; Random consults every field, so its configurations are equal. -/
theorem unconsultedFieldsHaveNoEffect : Obligations.UnconsultedFieldsHaveNoEffect := by
  intro P a b p q j k hmethod hdither hcolors hrow
  refine encodeBlock_congr hcolors ?_
  simp only [strategy, ← hmethod]
  obtain hbasic | hcluster | ⟨hpca, hrefine, hmse⟩ | ⟨-, rfl, rfl⟩ := hrow
  · rw [hbasic]; exact basic_congr hdither P _
  · rw [hcluster]; exact cluster_congr hdither P _
  · rw [hpca]; exact pca_congr hdither hrefine hmse P _
  · rfl

end Sys2Proof.Machine
end

section
/-! Blocks of one colour (42_block_encoder R243): every endpoint a strategy can form is the quantized colour. -/

namespace Sys2Proof.Machine

open Sys2Proof

section Uniform

variable {P : Params} {cfg : EncCfg} {C : RGB}

/-! ## The block -/

/-- The colours of a block whose 16 pixels share the colour C. -/
def uniformBlock (C : RGB) : List RGB := List.replicate 16 C

theorem colors_eq_uniformBlock {p : Block16} (hlen : p.length = 16) (hp : ∀ x ∈ p, rgb x = C) :
    colors p = uniformBlock C := by
  refine List.eq_replicate_iff.2 ⟨by rw [colors, List.length_map, hlen], fun x hx => ?_⟩
  obtain ⟨y, hy, rfl⟩ := List.mem_map.1 hx
  exact hp y hy

theorem px_uniformBlock {k : Nat} (hk : k < 16) : px (uniformBlock C) k = C := by
  rw [px, uniformBlock, List.getD_eq_getElem _ _ (by simpa using hk), List.getElem_replicate]

/-- The pixel at a smallest argument over the block has the block's colour. -/
theorem px_argmin_uniformBlock (f : Nat → Int) : px (uniformBlock C) (argmin f 15) = C :=
  px_uniformBlock (Nat.lt_succ_of_le (argmin_le f 15))

/-! ## Candidates of the colour -/

/-- Both endpoints of the candidate are the quantized colour. -/
def Candidate.IsOf (P : Params) (C : RGB) (c : Candidate) : Prop :=
  c.c0 = pack565 P.quant C ∧ c.c1 = pack565 P.quant C

theorem isOf_candidateOf (p : List RGB) : (candidateOf P cfg p C C).IsOf P C := ⟨rfl, rfl⟩

theorem isOf_basic : (basic P cfg (uniformBlock C)).IsOf P C := by
  rw [basic, kmaxBasic, kminBasic, argmax, px_argmin_uniformBlock, px_argmin_uniformBlock]
  exact isOf_candidateOf _

theorem Candidate.IsOf.better {p : List RGB} {new best : Candidate} (hnew : new.IsOf P C) (hbest : best.IsOf P C) :
    (better cfg p new best).IsOf P C := by
  obtain h | h := better_cases cfg p new best
  · rwa [h]
  · rwa [h]

theorem Candidate.IsOf.guardBasic {p : List RGB} {cand bas : Candidate} (hcand : cand.IsOf P C) (hbas : bas.IsOf P C) :
    (guardBasic p cand bas).IsOf P C := by
  obtain h | h := guardBasic_cases p cand bas
  · rwa [h]
  · rwa [h]

/-! ## Refinement -/

/-- R205: the round-half-up mean of equal colours is their colour. -/
theorem meanColor_of_forall_eq {cs : List RGB} (hne : cs ≠ []) (h : ∀ c ∈ cs, c = C) : meanColor cs = C := by
  obtain ⟨n, rfl⟩ : ∃ n, cs = List.replicate (n + 1) C :=
    ⟨cs.length - 1, List.eq_replicate_iff.2 ⟨by have := List.length_pos_iff.2 hne; omega, h⟩⟩
  have hmean (x : Nat) : (2 * ((n + 1) * x) + (n + 1)) / (2 * (n + 1)) = x := by
    rw [← Nat.mul_assoc, Nat.mul_add_div (by omega), Nat.div_eq_of_lt (by omega), Nat.add_zero]
  simp only [meanColor, rgbOf, meanChan, List.map_replicate, List.sum_replicate, List.length_replicate, smul_eq_mul,
    hmean, chan]

/-- The pixels that select an index have the block's colour. -/
theorem eq_of_mem_selected {idx : List Idx} {e : Idx} {c : RGB} (h : c ∈ selected (uniformBlock C) idx e) : c = C := by
  obtain ⟨x, hx, rfl⟩ := List.mem_map.1 h
  exact List.eq_of_mem_replicate (List.of_mem_zip (List.mem_of_mem_filter hx)).1

/-- R205: a round moves an endpoint to the quantized colour, or leaves it. -/
theorem movedEndpoint_uniformBlock (idx : List Idx) (e : Idx) :
    movedEndpoint P (uniformBlock C) idx e (pack565 P.quant C) = pack565 P.quant C := by
  rw [movedEndpoint]
  split
  · rfl
  · next h => rw [meanColor_of_forall_eq (by simpa using h) fun _ => eq_of_mem_selected]

theorem Candidate.IsOf.lloydRound {c : Candidate} (hc : c.IsOf P C) : (lloydRound P cfg (uniformBlock C) c).IsOf P C := by
  obtain ⟨h0, h1⟩ := hc
  rw [Machine.lloydRound, h0, h1, movedEndpoint_uniformBlock, movedEndpoint_uniformBlock]
  exact ⟨rfl, rfl⟩

theorem Candidate.IsOf.refineLoop (n : Nat) {cur best : Candidate} (hcur : cur.IsOf P C) (hbest : best.IsOf P C) :
    (refineLoop P cfg (uniformBlock C) n cur best).IsOf P C := by
  induction n generalizing cur best with
  | zero => exact hbest
  | succ n ih =>
    have hnew := hcur.lloydRound (cfg := cfg)
    rw [Machine.refineLoop]
    split
    · exact hnew.better hbest
    · exact ih hnew (hnew.better hbest)

/-! ## The strategies -/

/-- R195: a block of one colour is flat under every threshold, so PCA is Basic. -/
theorem isFlat_uniformBlock : isFlat P (uniformBlock C) = true := by
  have hcov (i j : Chan) : cov (uniformBlock C) i j = 0 := by
    simp only [cov, uniformBlock, List.map_replicate, List.sum_replicate, smul_eq_mul]
    push_cast
    ring
  simp [isFlat, hcov]

theorem isOf_pca : (pca P cfg (uniformBlock C)).IsOf P C := by
  rw [pca, if_pos isFlat_uniformBlock]
  exact isOf_basic

/-- R223: every draw is of two pixels of the block. -/
theorem isOf_drawnCandidate (x : Word) : (drawnCandidate P cfg (uniformBlock C) x).IsOf P C := by
  rw [drawnCandidate, px_uniformBlock (x.extractLsb' 0 4).isLt, px_uniformBlock (x.extractLsb' 4 4).isLt]
  exact isOf_candidateOf _

theorem Candidate.IsOf.randomLoop (n : Nat) (x : Word) {best : Candidate} (hbest : best.IsOf P C) :
    (randomLoop P cfg (uniformBlock C) n x best).IsOf P C := by
  induction n generalizing x best with
  | zero => exact hbest
  | succ n ih => exact ih _ ((isOf_drawnCandidate _).better hbest)

theorem isOf_random (k : Nat) : (random P cfg (uniformBlock C) k).IsOf P C := by
  have hbest := (isOf_basic (P := P) (cfg := cfg) (C := C)).randomLoop (cfg := cfg) cfg.iterations
    (blockSeed P cfg.rngSeed k)
  rw [random]
  split
  · exact hbest.refineLoop _ hbest
  · exact hbest

/-- R231: with both centres at the block's colour every pixel is labelled 0. -/
theorem kmeansAssign_uniformBlock : kmeansAssign (uniformBlock C) ⟨C, C⟩ = List.replicate 16 false := by
  simp [kmeansAssign, uniformBlock]

/-- R233: label 1 is empty and no pixel is far from centre 0, so k-means falls back at its first iteration; only with no
iteration does it answer, and then its centres have not moved. -/
theorem eq_of_kmeansLoop_uniformBlock {n : Nat} {c : Centres}
    (h : kmeansLoop (uniformBlock C) n ⟨C, C⟩ none = some c) : c = ⟨C, C⟩ := by
  cases n with
  | zero => exact (Option.some.inj h).symm
  | succ n =>
    have hkeep : reseed (uniformBlock C) ⟨C, C⟩ false (List.replicate 16 false) = some (List.replicate 16 false) := rfl
    have hfall : reseed (uniformBlock C) ⟨C, C⟩ true (List.replicate 16 false) = none := by
      simp only [reseed, argmax, px_argmin_uniformBlock]
      simp [centre, d2, absDiff]
    simp only [kmeansLoop, kmeansAssign_uniformBlock, hkeep, hfall, reduceCtorEq, if_false] at h

theorem isOf_cluster : (cluster P cfg (uniformBlock C)).IsOf P C := by
  rw [cluster, kminBasic, kmaxBasic, argmax, px_argmin_uniformBlock, px_argmin_uniformBlock]
  split
  · exact isOf_basic
  · next c h =>
    rw [eq_of_kmeansLoop_uniformBlock h]
    exact (isOf_candidateOf _).guardBasic isOf_basic

/-- R243: whatever METHOD selects, both endpoints are the quantized colour. -/
theorem isOf_strategy (k : Nat) : (strategy P cfg (uniformBlock C) k).IsOf P C := by
  rw [strategy]
  cases cfg.method with
  | basic => exact isOf_basic
  | pca => exact isOf_pca
  | random => exact isOf_random k
  | cluster => exact isOf_cluster

/-! ## The emitted block -/

/-- R243: the emitted candidate has the quantized colour twice, and indices 0. -/
theorem emitted_uniformBlock (k : Nat) :
    emitted P cfg (uniformBlock C) k = ⟨pack565 P.quant C, pack565 P.quant C, List.replicate 16 0#2⟩ := by
  obtain ⟨h0, h1⟩ := isOf_strategy (P := P) (cfg := cfg) (C := C) k
  have hlen := (isAssigned_strategy (P := P) (cfg := cfg) (p := uniformBlock C) k).length_idx List.length_replicate
  rw [emitted, normalize_of_eq (h0.trans h1.symm), h0, h1, hlen]

end Uniform

/-- R143: two colours are at distance 0 only when they are equal. -/
theorem d2_eq_zero_iff (s t : RGB) : d2 s t = 0 ↔ s = t := by
  cases s
  cases t
  simp only [d2, absDiff, Nat.add_eq_zero_iff, pow_eq_zero_iff two_ne_zero, RGB.mk.injEq]
  omega

/-- R146: the error of a block of one colour against one decoded colour is 16 times their distance. -/
theorem SSE_uniformBlock (C : RGB) (c : C565) :
    SSE (uniformBlock C) ⟨c, c, List.replicate 16 0#2⟩ = 16 * d2 C (expand565to888 c) := by
  simp only [SSE_eq_sum_d2_decoded, Candidate.decoded, Candidate.palette, uniformBlock, List.map_replicate,
    entry_palette_self, List.zip_replicate', List.sum_replicate, smul_eq_mul]

/-- R170: with equal endpoints every pixel decodes to their colour, whatever the index word. -/
theorem rgb_of_mem_decodeBlock_self {c : C565} {w : Word} {q : RGBA} (hq : q ∈ decodeBlock c c w) :
    rgb q = expand565to888 c := by
  have hmem : rgb q ∈ colors (decodeBlock c c w) := List.mem_map_of_mem hq
  rw [colors_decodeBlock] at hmem
  obtain ⟨i, -, hi⟩ := List.mem_map.1 hmem
  rw [← hi, entry_palette_self]

/-- R138, R243: a colour is its own quantization exactly when it is the expansion of some endpoint. -/
theorem eq_expand_pack565_iff (q : Quant) (C : RGB) :
    C = expand565to888 (pack565 q C) ↔ ∃ d : C565, C = expand565to888 d := by
  refine ⟨fun h => ⟨_, h⟩, ?_⟩
  rintro ⟨d, rfl⟩
  rw [pack565_expand565to888]

/-- Settles O52, from the emitted candidate of a block of one colour. -/
theorem uniformBlocksEncodeToTheirColour : Obligations.UniformBlocksEncodeToTheirColour := by
  intro P cfg p k C hlen hp _ _ _
  have hemitted : encodeBlock P cfg p k =
      ⟨pack565 P.quant C, pack565 P.quant C, 0#32, 16 * d2 C (expand565to888 (pack565 P.quant C))⟩ := by
    simp only [encodeBlock, colors_eq_uniformBlock hlen hp, emitted_uniformBlock, packIndices_replicate_zero,
      SSE_uniformBlock]
  rw [hemitted]
  refine ⟨rfl, rfl, rfl, fun _ => rgb_of_mem_decodeBlock_self, ?_⟩
  rw [Nat.mul_eq_zero, or_iff_right (by decide), d2_eq_zero_iff, eq_expand_pack565_iff]

end Sys2Proof.Machine
end

section
/-! Exact candidates and the checkerboard (42_block_encoder R245): a candidate of error 0 is never replaced by refinement,
by a draw or by the guard. -/

namespace Sys2Proof.Machine

open Sys2Proof

/-! ## Candidates of error 0 -/

/-- R143: the distance of two colours counts the squared difference on each channel. -/
theorem absDiff_chan_sq_le_d2 (s t : RGB) (ch : Chan) : absDiff (chan s ch) (chan t ch) ^ 2 ≤ d2 s t := by
  cases ch <;> simp only [chan, d2] <;> omega

/-- R146, R148: the axis error is a part of the error. -/
theorem AE_le_SSE (p : List RGB) (c : Candidate) : AE p c ≤ SSE p c :=
  List.sum_le_sum fun _ _ => absDiff_chan_sq_le_d2 _ _ _

section Exact

variable {P : Params} {cfg : EncCfg} {p : List RGB} {c : Candidate}

/-- R149: a candidate of error 0 scores 0 under either metric. -/
theorem score_of_SSE_eq_zero (h : SSE p c = 0) (useMSE : Bool) : score useMSE p c = 0 := by
  have haxis := AE_le_SSE p c
  rw [score]
  split <;> omega

/-- R206, R224: a new candidate is kept only when its score is strictly lower, and no score is below 0. -/
theorem better_of_SSE_eq_zero (h : SSE p c = 0) (new : Candidate) : better cfg p new c = c :=
  if_neg (by rw [score_of_SSE_eq_zero h]; exact Nat.not_lt_zero _)

theorem refineLoop_of_SSE_eq_zero (h : SSE p c = 0) (n : Nat) (cur : Candidate) :
    refineLoop P cfg p n cur c = c := by
  induction n generalizing cur with
  | zero => rfl
  | succ n ih => simp only [refineLoop, better_of_SSE_eq_zero h, ih, ite_self]

theorem refine_of_SSE_eq_zero (h : SSE p c = 0) : refine P cfg p c = c := refineLoop_of_SSE_eq_zero h _ _

theorem randomLoop_of_SSE_eq_zero (h : SSE p c = 0) (n : Nat) (x : Word) : randomLoop P cfg p n x c = c := by
  induction n generalizing x with
  | zero => rfl
  | succ n ih => rw [randomLoop, better_of_SSE_eq_zero h, ih]

/-- R210: no error is below 0. -/
theorem guardBasic_of_SSE_eq_zero (h : SSE p c = 0) (bas : Candidate) : guardBasic p c bas = c :=
  if_neg (by rw [h]; exact Nat.not_lt_zero _)

/-- R224, R225: Random keeps a Basic candidate of error 0. -/
theorem random_of_SSE_eq_zero (h : SSE p (basic P cfg p) = 0) (k : Nat) : random P cfg p k = basic P cfg p := by
  simp only [random, randomLoop_of_SSE_eq_zero h, refine_of_SSE_eq_zero h, ite_self]

/-- R200: with or without refinement, PCA keeps a candidate of error 0. -/
theorem pcaFrom_of_SSE_eq_zero {v : Vec3}
    (hc : candidateOf P cfg p (px p (argmax (project p v) 15)) (px p (argmin (project p v) 15)) = c)
    (h : SSE p c = 0) : pcaFrom P cfg p v = c := by
  simp only [pcaFrom, hc, refine_of_SSE_eq_zero h, guardBasic_of_SSE_eq_zero h, ite_self]

/-! ## Smallest arguments and fixed points -/

/-- R12: on a block of the two colours x and y, the least value of f is taken at a pixel of colour x, if f is less
there. -/
theorem px_argmin_eq_of_lt {f : RGB → Int} {x y : RGB} (hp : ∀ k ≤ 15, px p k = x ∨ px p k = y)
    (hx : ∃ j ≤ 15, px p j = x) (hlt : f x < f y) : px p (argmin (fun k => f (px p k)) 15) = x := by
  obtain ⟨j, hj, hjx⟩ := hx
  have hmin := argmin_min (fun k => f (px p k)) 15 j hj
  refine (hp _ (argmin_le _ 15)).resolve_right fun hy => ?_
  simp only [hy, hjx] at hmin
  omega

/-- R12: the same for the greatest value. -/
theorem px_argmax_eq_of_lt {f : RGB → Int} {x y : RGB} (hp : ∀ k ≤ 15, px p k = x ∨ px p k = y)
    (hx : ∃ j ≤ 15, px p j = x) (hlt : f y < f x) : px p (argmax (fun k => f (px p k)) 15) = x :=
  px_argmin_eq_of_lt (f := fun z => -f z) hp hx (by omega)

/-- R232: centres with no empty cluster, which are the means of their own clusters, stay. -/
theorem kmeansLoop_of_fixed {cen : Centres} (h0 : (kmeansAssign p cen).contains false)
    (h1 : (kmeansAssign p cen).contains true) (hfix : kmeansUpdate p (kmeansAssign p cen) = cen) (n : Nat) :
    kmeansLoop p n cen none = some cen := by
  have hkeep (e : Bool) (h : (kmeansAssign p cen).contains e) :
      reseed p cen e (kmeansAssign p cen) = some (kmeansAssign p cen) := if_pos h
  have hstay (m : Nat) : kmeansLoop p m cen (some (kmeansAssign p cen)) = some cen := by
    cases m with
    | zero => rfl
    | succ m => exact if_pos rfl
  cases n with
  | zero => rfl
  | succ n => simp only [kmeansLoop, reduceCtorEq, if_false, hkeep false h0, hkeep true h1, hfix, hstay]

end Exact

/-! ## The checkerboard -/

/-- R245's first colour. -/
def red : RGB := ⟨255, 0, 0⟩

/-- R245's second colour. -/
def blue : RGB := ⟨0, 0, 255⟩

/-- The colours of R245's block. -/
def checkerboard : List RGB := (List.range 16).map fun j => if (j % 4 + j / 4) % 2 = 0 then red else blue

/-- R152: alpha is dropped. -/
theorem colors_checkerboard (alpha : Nat → Nat) :
    colors ((List.range 16).map fun j =>
      if (j % 4 + j / 4) % 2 = 0 then ⟨255, 0, 0, alpha j⟩ else ⟨0, 0, 255, alpha j⟩) = checkerboard := by
  rw [colors, List.map_map]
  refine List.map_congr_left fun j _ => ?_
  rw [Function.comp_apply]
  split <;> rfl

/-- The indices of R245 as its word holds them, pixel 0 first. -/
def checkerIdx : List Idx := unpackIndices 0x11441144#32

/-- The candidate R245 emits. -/
def redBlue : Candidate := ⟨0xF800#16, 0x001F#16, checkerIdx⟩

/-- The same colours with the endpoints exchanged: what Cluster finds, starting from the minimum. -/
def blueRed : Candidate := ⟨0x001F#16, 0xF800#16, checkerIdx.map fun i => i ^^^ 1#2⟩

theorem normalize_redBlue : normalize redBlue = redBlue := normalize_of_gt (by decide)

theorem normalize_blueRed : normalize blueRed = redBlue := by decide

theorem SSE_redBlue : SSE checkerboard redBlue = 0 := by decide

theorem SSE_blueRed : SSE checkerboard blueRed = 0 := by decide

/-- R131, R137: red and blue are expansions, so quantization gives their endpoints back. -/
theorem pack565_red (q : Quant) : pack565 q red = 0xF800#16 := pack565_expand565to888 q 0xF800#16

theorem pack565_blue (q : Quant) : pack565 q blue = 0x001F#16 := pack565_expand565to888 q 0x001F#16

/-- R145, R150: with or without the dither's offsets, every pixel is nearest to its own colour. -/
theorem candidateOf_red_blue (cfg : EncCfg) : candidateOf {} cfg checkerboard red blue = redBlue := by
  rw [candidateOf, pack565_red, pack565_blue]
  cases cfg.useDither <;> decide

theorem candidateOf_blue_red (cfg : EncCfg) : candidateOf {} cfg checkerboard blue red = blueRed := by
  rw [candidateOf, pack565_red, pack565_blue]
  cases cfg.useDither <;> decide

/-! ## The strategies on the checkerboard -/

theorem px_checkerboard : ∀ k ≤ 15, px checkerboard k = red ∨ px checkerboard k = blue := by decide

/-- R12: a value that is greater for red is greatest at a red pixel. -/
theorem px_argmax_checkerboard {f : RGB → Int} (hlt : f blue < f red) :
    px checkerboard (argmax (fun k => f (px checkerboard k)) 15) = red :=
  px_argmax_eq_of_lt px_checkerboard ⟨0, by decide, rfl⟩ hlt

/-- R12: and it is least at a blue pixel. -/
theorem px_argmin_checkerboard {f : RGB → Int} (hlt : f blue < f red) :
    px checkerboard (argmin (fun k => f (px checkerboard k)) 15) = blue :=
  px_argmin_eq_of_lt (fun k hk => (px_checkerboard k hk).symm) ⟨1, by decide, rfl⟩ hlt

/-- R147: the range of red is 255, which no channel exceeds, and a tie goes to red. -/
theorem axis_checkerboard : axis checkerboard = .r := by
  have hbyte (ch : Chan) : ∀ k ≤ 15, chan (px checkerboard k) ch ≤ 255 := by cases ch <;> decide
  have hle (ch : Chan) : rangeOf checkerboard ch ≤ 255 := by
    have hmax := hbyte ch _ (argmin_le (fun k => -(chan (px checkerboard k) ch : Int)) 15)
    simp only [rangeOf, argmax]
    omega
  have hred : rangeOf checkerboard .r = 255 := by
    have hlt : (chan blue .r : Int) < chan red .r := by decide
    simp only [rangeOf, px_argmax_checkerboard (f := fun c => chan c .r) hlt,
      px_argmin_checkerboard (f := fun c => chan c .r) hlt]
    rfl
  rw [axis, argmaxChan, hred]
  exact if_pos ⟨hle .g, hle .b⟩

/-- R192: the greatest value of the axis channel is that of a red pixel. -/
theorem px_kmaxBasic_checkerboard : px checkerboard (kmaxBasic checkerboard) = red :=
  px_argmax_checkerboard (f := fun c => chan c (axis checkerboard)) (by rw [axis_checkerboard]; decide)

/-- R192: the least value of the axis channel is that of a blue pixel. -/
theorem px_kminBasic_checkerboard : px checkerboard (kminBasic checkerboard) = blue :=
  px_argmin_checkerboard (f := fun c => chan c (axis checkerboard)) (by rw [axis_checkerboard]; decide)

theorem basic_checkerboard (cfg : EncCfg) : basic {} cfg checkerboard = redBlue := by
  rw [basic, px_kmaxBasic_checkerboard, px_kminBasic_checkerboard, candidateOf_red_blue]

theorem random_checkerboard (cfg : EncCfg) (k : Nat) : random {} cfg checkerboard k = redBlue := by
  have hSSE : SSE checkerboard (basic {} cfg checkerboard) = 0 := by rw [basic_checkerboard, SSE_redBlue]
  rw [random_of_SSE_eq_zero hSSE, basic_checkerboard]

/-- R195: the checkerboard is not flat. -/
theorem isFlat_checkerboard : isFlat {} checkerboard = false := by decide

/-- R196, R198: the vector that eight steps of the power iteration give, along red minus blue. -/
theorem powerIter_checkerboard : powerIter checkerboard 8 (startVec checkerboard) = some ⟨30536, 0, -30537⟩ := by
  decide

/-- The projection of a colour on the vector v. -/
def projectColour (v : Vec3) (c : RGB) : Int := v.r * c.r + v.g * c.g + v.b * c.b

/-- R199: the projection of pixel k is that of its colour. -/
theorem project_eq (p : List RGB) (v : Vec3) : project p v = fun k => projectColour v (px p k) := rfl

/-- R199: the extreme projections are those of a red and of a blue pixel, as in Basic. -/
theorem pca_checkerboard (cfg : EncCfg) : pca {} cfg checkerboard = redBlue := by
  have hlt : projectColour ⟨30536, 0, -30537⟩ blue < projectColour ⟨30536, 0, -30537⟩ red := by decide
  have hcand : candidateOf {} cfg checkerboard
      (px checkerboard (argmax (project checkerboard ⟨30536, 0, -30537⟩) 15))
      (px checkerboard (argmin (project checkerboard ⟨30536, 0, -30537⟩) 15)) = redBlue := by
    rw [project_eq, px_argmax_checkerboard hlt, px_argmin_checkerboard hlt, candidateOf_red_blue]
  rw [pca, isFlat_checkerboard, if_neg Bool.false_ne_true, powerIter_checkerboard]
  exact pcaFrom_of_SSE_eq_zero hcand SSE_redBlue

/-- R232: from the centres blue and red, k-means stays there. -/
theorem kmeansLoop_checkerboard (n : Nat) : kmeansLoop checkerboard n ⟨blue, red⟩ none = some ⟨blue, red⟩ :=
  kmeansLoop_of_fixed (by decide) (by decide) (by decide) n

theorem cluster_checkerboard (cfg : EncCfg) : cluster {} cfg checkerboard = blueRed := by
  simp only [cluster, px_kmaxBasic_checkerboard, px_kminBasic_checkerboard, kmeansLoop_checkerboard,
    candidateOf_blue_red, guardBasic_of_SSE_eq_zero SSE_blueRed]

/-- R190, R245: the four strategies agree once their candidates are normalised. -/
theorem emitted_checkerboard (cfg : EncCfg) (k : Nat) : emitted {} cfg checkerboard k = redBlue := by
  rw [emitted, strategy]
  cases cfg.method with
  | basic => exact (congrArg normalize (basic_checkerboard cfg)).trans normalize_redBlue
  | pca => exact (congrArg normalize (pca_checkerboard cfg)).trans normalize_redBlue
  | random => exact (congrArg normalize (random_checkerboard cfg k)).trans normalize_redBlue
  | cluster => exact (congrArg normalize (cluster_checkerboard cfg)).trans normalize_blueRed

/-- Settles O55: the emitted candidate of the checkerboard, whose indices pack to the word they were taken from. -/
theorem checkerboardIsEncodedExactly : Obligations.CheckerboardIsEncodedExactly := by
  intro cfg k alpha
  simp only [encodeBlock, colors_checkerboard, emitted_checkerboard, SSE_redBlue]
  simp only [redBlue, checkerIdx, packIndices_unpackIndices, BitVec.ofNat_toNat, BitVec.setWidth_eq]

end Sys2Proof.Machine
end

section
/-! The block grid of an image (43_image_tiler R260) and the compression ratio (R281): the blocks cover the image, and cover
nothing more exactly when both dimensions are multiples of 4. -/

namespace Sys2Proof.Machine

open Sys2Proof

/-! ## The pixels of the grid -/

theorem le_four_mul_blocksOf (n : Nat) : n ≤ 4 * blocksOf n := by
  unfold blocksOf
  omega

theorem four_mul_blocksOf_eq_iff {n : Nat} : 4 * blocksOf n = n ↔ n % 4 = 0 := by
  unfold blocksOf
  omega

theorem lt_four_mul_blocksOf {n : Nat} (h : n % 4 ≠ 0) : n < 4 * blocksOf n :=
  lt_of_le_of_ne (le_four_mul_blocksOf n) fun heq => h (four_mul_blocksOf_eq_iff.mp heq.symm)

/-- Half a byte for each pixel of the grid. -/
theorem two_mul_payload_eq (W H : Nat) :
    2 * (blocksOf W * blocksOf H * 8) = (4 * blocksOf W) * (4 * blocksOf H) := by ring

theorem two_mul_payload_of_multiples {W H : Nat} (hW : W % 4 = 0) (hH : H % 4 = 0) :
    2 * (blocksOf W * blocksOf H * 8) = W * H := by
  rw [two_mul_payload_eq, four_mul_blocksOf_eq_iff.mpr hW, four_mul_blocksOf_eq_iff.mpr hH]

/-- The other dimension must not be 0: an empty image has as many pixels as its empty grid. -/
theorem lt_two_mul_payload {W H : Nat} (hW : 0 < W) (hH : 0 < H) (h : W % 4 ≠ 0 ∨ H % 4 ≠ 0) :
    W * H < 2 * (blocksOf W * blocksOf H * 8) := by
  rw [two_mul_payload_eq]
  cases h with
  | inl hW4 => exact mul_lt_mul (lt_four_mul_blocksOf hW4) (le_four_mul_blocksOf H) hH (Nat.zero_le _)
  | inr hH4 =>
    exact Nat.mul_lt_mul_of_le_of_lt (le_four_mul_blocksOf W) (lt_four_mul_blocksOf hH4)
      (hW.trans_le (le_four_mul_blocksOf W))

/-! ## The ratio -/

/-- Settles O38: four bytes for each pixel of the image against half a byte for each pixel of the grid. -/
theorem compressionRatio : Obligations.CompressionRatio := by
  intro W H hW hH payload
  constructor
  · intro hW4 hH4
    have hpayload : 2 * payload = W * H := two_mul_payload_of_multiples hW4 hH4
    exact ⟨hpayload, by omega⟩
  · intro h
    have hpayload : W * H < 2 * payload := lt_two_mul_payload hW hH h
    omega

end Sys2Proof.Machine
end

section
/-! A host register write in the step of a completion (60_exceptions R378): the write takes effect first, on a busy engine,
and the engine then ends its command on what the write left. -/

namespace Sys2Proof.Machine

open Sys2Proof

/-! ## The completion -/

/-- R45, R361: the STATUS that the end of a command leaves over the STATUS `f`, without an error or with one. -/
def Status.endsAs (f g : Status) : Prop := g = f.completed ∨ ∃ e : ErrCode, g = f.failed e

theorem Status.endsAs_busy {f g : Status} (h : f.endsAs g) : g.busy = false := by
  rcases h with rfl | ⟨e, rfl⟩ <;> rfl

theorem Status.endsAs_done {f g : Status} (h : f.endsAs g) : g.done = true := by
  rcases h with rfl | ⟨e, rfl⟩ <;> rfl

theorem Status.endsAs_ovr {f g : Status} (h : f.endsAs g) : g.ovr = f.ovr := by
  rcases h with rfl | ⟨e, rfl⟩ <;> rfl

/-- R378: a running command, its word legal or not, ends on a STATUS changed in the same step as it ends without the
change, and an error it newly sets does not depend on the flags the change cleared. -/
theorem engineStep_withStatus {s : State} (f : Status) (hbusy : s.status.busy = true) (hf : f.busy = true) :
    ∃ u g, engineStep s = .next u ∧ engineStep { s with status := f } = .next { u with status := g } ∧ f.endsAs g ∧
      (u.status.err = true → s.status.err = false → g.err = true ∧ g.errCode = u.status.errCode) := by
  obtain ⟨u, g, hstep, hstep', ⟨e, hu, hg⟩ | ⟨hu, hg⟩⟩ := engineStep_setStatus f hbusy hf
  · exact ⟨u, g, hstep, hstep', .inr ⟨e, hg⟩, fun _ _ => by simp [hu, hg]⟩
  · have hold : u.status.err = s.status.err := by rw [hu, completed_err]
    exact ⟨u, g, hstep, hstep', .inl hg, fun hnew hnone => by simp [hold, hnone] at hnew⟩

/-- R24: CMD holds the last word accepted, whatever becomes of its command. -/
theorem engineStep_cmd {s t : State} (h : engineStep s = .next t) : t.cmd = s.cmd := by
  rcases engineStep_cases s with ⟨-, hidle⟩ | ⟨-, -, hillegal⟩ | ⟨-, i, -, hlegal⟩
  · cases hidle.symm.trans h; rfl
  · cases hillegal.symm.trans h; rfl
  · obtain ⟨⟨-, -, -, hcmd, -⟩, -⟩ := exec_frame (hlegal.symm.trans h)
    exact hcmd

/-- R401: an idle engine waits. -/
theorem engineStep_of_idle {s : State} (hidle : s.status.busy = false) : engineStep s = .next s := by
  simp [engineStep, hidle]

/-! ## The write -/

theorem andThen_next (o : Out) : Out.andThen o (fun s => .next s) = o := by
  cases o <;> rfl

/-- R378: with a command running, a register write in the step of its end is the write and then the engine's step. -/
theorem togetherStep_regWrite {s : State} (r : Reg) (w : Word) (hbusy : s.status.busy = true) :
    togetherStep (.regWrite (s.params.regBase + BitVec.ofNat 32 r.offset) 4 w) s =
      Out.andThen (s.writeReg r w) engineStep := by
  have hwrite : hostStep (.regWrite (s.params.regBase + BitVec.ofNat 32 r.offset) 4 w) s = s.writeReg r w :=
    wrReg_eq s r w
  rw [togetherStep, if_pos hbusy, hwrite]
  exact congrArg (Out.andThen (s.writeReg r w)) (funext fun s1 => andThen_next (engineStep s1))

/-- R24: a CMD write while a command runs only sets OVR. -/
theorem writeCmd_of_busy {s : State} (w : Word) (hbusy : s.status.busy = true) :
    s.writeCmd w = .next { s with status := s.status.dropped } :=
  if_pos hbusy

theorem togetherStep_status {s : State} (w : Word) (hbusy : s.status.busy = true) :
    togetherStep (.regWrite (s.params.regBase + 0x008#32) 4 w) s =
      engineStep { s with status := s.status.hostWrite w } :=
  togetherStep_regWrite .status w hbusy

theorem togetherStep_cmd {s : State} (w : Word) (hbusy : s.status.busy = true) :
    togetherStep (.regWrite (s.params.regBase + 0x00C#32) 4 w) s = engineStep { s with status := s.status.dropped } := by
  calc togetherStep (.regWrite (s.params.regBase + 0x00C#32) 4 w) s
    _ = Out.andThen (s.writeCmd w) engineStep := togetherStep_regWrite .cmd w hbusy
    _ = engineStep { s with status := s.status.dropped } := by rw [writeCmd_of_busy w hbusy]; rfl

/-- R378: a soft reset leaves no command to end. -/
theorem togetherStep_softReset {s : State} {w : Word} (hbusy : s.status.busy = true) (hset : w.getLsbD 1 = true) :
    togetherStep (.regWrite (s.params.regBase + 0x004#32) 4 w) s = .next s.resetEngine := by
  calc togetherStep (.regWrite (s.params.regBase + 0x004#32) 4 w) s
    _ = engineStep (s.writeCtrl w) := togetherStep_regWrite .ctrl w hbusy
    _ = engineStep s.resetEngine := by rw [writeCtrl_of_bit1_set s hset]
    _ = .next s.resetEngine := engineStep_of_idle rfl

/-- Settles O21: the end of the command on the STATUS that each of the first two writes leaves, and on the reset state. -/
theorem sameStepEventsFollowTheirPriority : Obligations.SameStepEventsFollowTheirPriority := by
  intro s w hbusy
  refine ⟨?statusWrite, ?cmdWrite, togetherStep_softReset hbusy⟩
  case statusWrite =>
    obtain ⟨u, g, hu, ht, hend, herr⟩ := engineStep_withStatus (s.status.hostWrite w) hbusy hbusy
    exact ⟨_, u, (togetherStep_status w hbusy).trans ht, hu, Status.endsAs_busy hend, Status.endsAs_done hend, herr⟩
  case cmdWrite =>
    obtain ⟨u, g, hu, ht, hend, -⟩ := engineStep_withStatus s.status.dropped hbusy hbusy
    have hcmd : u.cmd = s.cmd := engineStep_cmd hu
    exact ⟨_, (togetherStep_cmd w hbusy).trans ht, hcmd, Status.endsAs_busy hend,
      Status.endsAs_done hend, Status.endsAs_ovr hend⟩

end Sys2Proof.Machine
end

section
/-! Reset (70_reset_and_hazards R400, R401): every way to reset the engine leads to one engine state, and the registers
and the interrupt line are read off that state. -/

namespace Sys2Proof.Machine

open Sys2Proof

/-- The engine's own part of the state is as the table of R401 gives it; memory, platform and pending turns are free. -/
structure State.AtReset (t : State) : Prop where
  irqEn : t.irqEn = false
  status : t.status = {}
  cmd : t.cmd = 0#32
  ops : t.ops = {}
  res : t.res = {}
  latch : t.latch = {}
  race : t.race = {}

/-! ## The ways to reset -/

theorem atReset_reset : State.reset.AtReset := ⟨rfl, rfl, rfl, rfl, rfl, rfl, rfl⟩

/-- R400: whatever the engine was doing, nothing of it is left. -/
theorem atReset_resetEngine (s : State) : s.resetEngine.AtReset :=
  ⟨resetEngine_irqEn s, resetEngine_status s, resetEngine_cmd s, resetEngine_ops s, resetEngine_res s,
    resetEngine_latch s, resetEngine_race s⟩

/-- R400 (b): the soft reset is the reset input's reset, whatever the other bits of the written word. -/
theorem wrReg_ctrl_softReset (s : State) {w : Word} (hset : w.getLsbD 1 = true) :
    s.wrReg .ctrl w = .next s.resetEngine := by
  rw [wrReg_ctrl, writeCtrl_of_bit1_set s hset]

/-! ## What an engine at reset shows -/

@[simp] theorem operands_get_default (r : OpReg) : ({} : Operands).get r = 0#32 := by
  cases r <;> rfl

@[simp] theorem results_get_default (r : ResReg) : ({} : Results).get r = 0#32 := by
  cases r <;> rfl

@[simp] theorem status_word_default : ({} : Status).word = 0#32 := by decide

/-- R401: ID is a constant; every other register of the window reads 0. -/
theorem State.AtReset.readReg {t : State} (h : t.AtReset) (r : Reg) :
    t.readReg r = if r = .id then 0xBC1C0007#32 else 0x00000000#32 := by
  cases r with
  | id => rfl
  | ctrl => simp [State.readReg, h.irqEn, ctrlWord_eq]
  | status => simp [State.readReg, h.status]
  | cmd => simp [State.readReg, h.cmd]
  | operand r => simp [State.readReg, h.ops]
  | result r => simp [State.readReg, h.res]

/-- R403: the line is low after reset. -/
theorem State.AtReset.irq {t : State} (h : t.AtReset) : t.irq = false := by
  simp [State.irq, h.irqEn]

/-- R401: no command runs after reset. -/
theorem State.AtReset.idle {t : State} (h : t.AtReset) : t.status.busy = false := by
  simp [h.status]

/-- Settles O12, by the three ways to reach an engine at reset. -/
theorem eitherResetGivesTheResetValues : Obligations.EitherResetGivesTheResetValues := by
  intro s t hreset
  have hat : t.AtReset := by
    obtain rfl | rfl | ⟨w, hset, hwrite⟩ := hreset
    · exact atReset_reset
    · exact atReset_resetEngine s
    · obtain rfl : s.resetEngine = t := Host.Outcome.next.inj ((wrReg_ctrl_softReset s hset).symm.trans hwrite)
      exact atReset_resetEngine s
  exact ⟨hat.readReg, hat.irq, hat.idle, hat.latch, hat.race⟩

end Sys2Proof.Machine
end

section
/-! Encoding undoes decoding (30_encoding R102-R109): a word that the decoder accepts is put together again from the
fields it was read into. -/

namespace Sys2Proof

/-- R105: every 2-bit code is the code of its method. -/
@[simp] theorem Method.code_ofCode (c : BitVec 2) : (Method.ofCode c).code = c := by
  revert c
  decide

/-- R102: the bits of a format P word are its opcode's. -/
theorem getLsbD_encodeP (opcode : BitVec 8) (j : Nat) :
    (encodeP opcode).getLsbD j = if j < 8 then opcode.getLsbD j else false := by
  change (0#24 ++ opcode).getLsbD j = _
  rw [BitVec.getLsbD_append, BitVec.getLsbD_zero]

/-- A bit of a field that is known to be `v` is the bit of `v` at its place in the field. -/
theorem getLsbD_of_field {w : Word} {start len : Nat} {v : BitVec len} (h : w.extractLsb' start len = v) {j : Nat}
    (hlo : start ≤ j) (hhi : j < start + len) : w.getLsbD j = v.getLsbD (j - start) := by
  rw [← h, BitVec.getLsbD_extractLsb', decide_eq_true (by omega), Bool.true_and, Nat.add_sub_cancel' hlo]

/-- R102: a word with bits 31:8 clear is the format P word of its opcode. -/
theorem eq_encodeP {w : Word} {opcode : BitVec 8} (hop : w.extractLsb' 0 8 = opcode)
    (hreserved : w.extractLsb' 8 24 = 0#24) : w = encodeP opcode := by
  refine BitVec.eq_of_getLsbD_eq fun j hj => ?_
  rw [getLsbD_encodeP]
  split
  · exact getLsbD_of_field hop (Nat.zero_le j) (by omega)
  · rw [getLsbD_of_field hreserved (by omega) (by omega), BitVec.getLsbD_zero]

/-- R103: a word with bits 31:13 clear is the format E word of its opcode and its four fields. -/
theorem eq_encodeE {w : Word} {opcode : BitVec 8} (hop : w.extractLsb' 0 8 = opcode)
    (hreserved : w.extractLsb' 13 19 = 0#19) :
    w = encodeE opcode (.ofCode (w.extractLsb' 8 2)) (w.getLsbD 10) (w.getLsbD 11) (w.getLsbD 12) := by
  refine BitVec.eq_of_getLsbD_eq fun j hj => ?_
  rw [getLsbD_encodeE, Method.code_ofCode]
  split
  · exact getLsbD_of_field hop (Nat.zero_le j) (by omega)
  · split
    · exact getLsbD_of_field rfl (by omega) (by omega)
    · split_ifs with h10 h11 h12
      · rw [h10]
      · rw [h11]
      · rw [h12]
      · rw [getLsbD_of_field hreserved (by omega) (by omega), BitVec.getLsbD_zero]

/-- R102: the words that decode by format P. -/
theorem encodeP_of_decodeP {w : Word} {opcode : BitVec 8} {i j : Instr} (hop : w.extractLsb' 0 8 = opcode)
    (h : decodeP w j = .ok i) : i = j ∧ w = encodeP opcode := by
  rw [decodeP] at h
  split at h
  · next hreserved => exact ⟨(Except.ok.inj h).symm, eq_encodeP hop hreserved⟩
  · cases h

/-- R103: the words that decode by format E. -/
theorem encodeE_of_decodeE {w : Word} {opcode : BitVec 8} {i : Instr} {mk : Method → Bool → Bool → Bool → Instr}
    (hop : w.extractLsb' 0 8 = opcode) (h : decodeE w mk = .ok i) :
    ∃ m e d r, i = mk m e d r ∧ w = encodeE opcode m e d r := by
  rw [decodeE] at h
  split at h
  · next hreserved => exact ⟨_, _, _, _, (Except.ok.inj h).symm, eq_encodeE hop hreserved⟩
  · cases h

/-- R109: no word decodes to a command that it does not encode; OPCODE selects the format and the command. -/
theorem eq_encode_of_decode {w : Word} {i : Instr} (h : decode w = .ok i) : w = encode i := by
  have hopcode (n : Nat) (hn : (w.extractLsb' 0 8).toNat = n) : w.extractLsb' 0 8 = BitVec.ofNat 8 n := by
    rw [← hn, BitVec.ofNat_toNat, BitVec.setWidth_eq]
  unfold decode at h
  split at h
  case h_3 hop =>
    obtain ⟨m, e, d, r, rfl, hw⟩ := encodeE_of_decodeE (hopcode _ hop) h
    exact hw
  case h_6 hop =>
    obtain ⟨m, e, d, r, rfl, hw⟩ := encodeE_of_decodeE (hopcode _ hop) h
    exact hw
  case h_10 => cases h
  all_goals
    next hop =>
      obtain ⟨rfl, hw⟩ := encodeP_of_decodeP (hopcode _ hop) h
      exact hw

/-- Settles O2: the decoder reads back every encoded command, and accepts no other word. -/
theorem decodeExactlyInvertsEncode : Obligations.DecodeExactlyInvertsEncode := by
  refine fun w i => ⟨eq_encode_of_decode, ?_⟩
  rintro rfl
  exact decode_encode i

end Sys2Proof
end

section
/-! Memory (00_scope R14, 20_memory R60-R62): the canonical form determines the data, and a field that a list of writes
leaves in memory reads back. -/

namespace Sys2Proof.Machine

open Sys2Proof

/-! ## The canonical form -/

theorem risingFrom_cons {lo a : Nat} {v : Byte} {m : Memory} :
    Memory.risingFrom lo ((a, v) :: m) = true ↔ lo ≤ a ∧ Memory.risingFrom (a + 1) m = true := by
  simp [Memory.risingFrom]

/-- In rising order, nothing is listed below the first address. -/
theorem lookup_of_lt_rising {m : Memory} {lo a : Nat} (h : Memory.risingFrom lo m = true) (ha : a < lo) :
    Memory.lookup m a = none := by
  induction m generalizing lo with
  | nil => rfl
  | cons c m ih =>
    obtain ⟨hle, htail⟩ := risingFrom_cons.1 h
    rw [Memory.lookup, if_neg (by omega)]
    exact ih htail (by omega)

/-- The entries of a rising list, without its first cell. -/
theorem lookup_tail_rising {m : Memory} {b : Nat} {v : Byte} (h : Memory.risingFrom (b + 1) m = true) (a : Nat) :
    Memory.lookup m a = if a = b then none else Memory.lookup ((b, v) :: m) a := by
  split
  · exact lookup_of_lt_rising h (by omega)
  · next hne => rw [Memory.lookup, if_neg hne]

/-- Rising lists with equal entries have the same first cell, and tails with equal entries. -/
theorem eq_of_rising {m n : Memory} {lo lo' : Nat} (hm : Memory.risingFrom lo m = true)
    (hn : Memory.risingFrom lo' n = true) (h : ∀ a, Memory.lookup m a = Memory.lookup n a) : m = n := by
  induction m generalizing lo lo' n with
  | nil =>
    cases n with
    | nil => rfl
    | cons d n => have := h d.1; simp [Memory.lookup] at this
  | cons c m ih =>
    cases n with
    | nil => have := h c.1; simp [Memory.lookup] at this
    | cons d n =>
      obtain ⟨b, u⟩ := c
      obtain ⟨b', u'⟩ := d
      obtain ⟨-, htm⟩ := risingFrom_cons.1 hm
      obtain ⟨-, htn⟩ := risingFrom_cons.1 hn
      have hb : b = b' := by
        by_contra hne
        obtain hlt | hgt := Nat.lt_or_gt_of_ne hne
        · have := h b
          simp [Memory.lookup, hne, lookup_of_lt_rising htn (by omega : b < b' + 1)] at this
        · have := h b'
          simp [Memory.lookup, Ne.symm hne, lookup_of_lt_rising htm (by omega : b' < b + 1)] at this
      subst hb
      have hu : u = u' := by simpa [Memory.lookup] using h b
      subst hu
      have htail : m = n := ih htm htn fun a => by
        rw [lookup_tail_rising (v := u) htm, lookup_tail_rising (v := u) htn, h a]
      rw [htail]

theorem risingFrom_of_wf {m : Memory} (h : Memory.wf m = true) : Memory.risingFrom 0 m = true := by
  simp only [Memory.wf, Bool.and_eq_true] at h
  exact h.1

/-- Settles O60: two rising lists with equal entries are equal, cell by cell. -/
theorem canonicalMemoriesAreEqualData : Obligations.CanonicalMemoriesAreEqualData :=
  fun _ _ hm hn h => eq_of_rising (risingFrom_of_wf hm) (risingFrom_of_wf hn) h

/-! ## Reading fields -/

/-- R14: a one-byte field is the byte. -/
@[simp] theorem memRead_one (s : State) (a : Nat) : s.memRead a 1 = (s.readByte a).toNat := by
  simp [State.memRead]

/-- R14: a field of n bytes is a number below 256^n. -/
theorem memRead_lt (s : State) (a n : Nat) : s.memRead a n < 256 ^ n := by
  induction n generalizing a with
  | zero => exact Nat.one_pos
  | succ n ih =>
    have hbyte := (s.readByte a).isLt
    have htail := ih (a + 1)
    rw [State.memRead, Nat.pow_succ']
    omega

/-- A field depends on its own bytes alone. -/
theorem memRead_congr {s t : State} {a n : Nat} (h : ∀ b, a ≤ b → b < a + n → t.readByte b = s.readByte b) :
    t.memRead a n = s.memRead a n := by
  induction n generalizing a with
  | zero => rfl
  | succ n ih =>
    have htail := ih (a := a + 1) fun b hlo hhi => h b (by omega) (by omega)
    rw [State.memRead, State.memRead, htail, h a (le_refl a) (by omega)]

/-- R14: bytes that are the digits of v in base 256 read as v, modulo the width. -/
theorem memRead_of_digits {s : State} {a n v : Nat}
    (h : ∀ i < n, s.readByte (a + i) = BitVec.ofNat 8 (v / 256 ^ i)) : s.memRead a n = v % 256 ^ n := by
  induction n generalizing a v with
  | zero => simp [State.memRead, Nat.mod_one]
  | succ n ih =>
    have hfirst : s.readByte a = BitVec.ofNat 8 v := by simpa using h 0 (by omega)
    have htail : s.memRead (a + 1) n = v / 256 % 256 ^ n := ih fun i hi => by
      rw [Nat.div_div_eq_div_mul, ← Nat.pow_succ', ← h (i + 1) (by omega), Nat.add_right_comm, Nat.add_assoc]
    rw [State.memRead, hfirst, htail, BitVec.toNat_ofNat, Nat.pow_succ' (m := 256), Nat.mod_mul]

/-! ## The fields a list of writes leaves -/

/-- The writes leave, in the n bytes at a, the little-endian digits of v (R14). -/
def LeavesField (cs : List Host.Cell) (a n v : Nat) : Prop :=
  ∀ i < n, lastCell cs (a + i) = some (BitVec.ofNat 8 (v / 256 ^ i))

/-- The writes name no byte of the n at a. -/
def Avoids (cs : List Host.Cell) (a n : Nat) : Prop := ∀ c ∈ cs, c.1 < a ∨ a + n ≤ c.1

theorem leavesField_cellsLE (a n v : Nat) : LeavesField (cellsLE a n v) a n v := fun i => lastCell_cellsLE n a v i

theorem Avoids.lastCell_eq_none {cs : List Host.Cell} {a n i : Nat} (h : Avoids cs a n) (hi : i < n) :
    lastCell cs (a + i) = none := by
  refine Machine.lastCell_eq_none fun hmem => ?_
  obtain ⟨c, hc, hca⟩ := List.mem_map.1 hmem
  have := h c hc
  omega

/-- Later writes hide earlier ones. -/
theorem LeavesField.append_right {ys : List Host.Cell} {a n v : Nat} (h : LeavesField ys a n v)
    (xs : List Host.Cell) : LeavesField (xs ++ ys) a n v := fun i hi => by
  rw [lastCell_append, h i hi, Option.some_or]

/-- A field survives later writes elsewhere. -/
theorem LeavesField.append_left {xs ys : List Host.Cell} {a n v : Nat} (h : LeavesField xs a n v)
    (hys : Avoids ys a n) : LeavesField (xs ++ ys) a n v := fun i hi => by
  rw [lastCell_append, hys.lastCell_eq_none hi, Option.none_or, h i hi]

/-- One of several groups of writes leaves the field, when no other group names its bytes. -/
theorem LeavesField.flatMap {α : Type} {f : α → List Host.Cell} {l : List α} {x : α} {a n v : Nat} (hx : x ∈ l)
    (h : LeavesField (f x) a n v) (hother : ∀ y ∈ l, y ≠ x → Avoids (f y) a n) :
    LeavesField (l.flatMap f) a n v := by
  induction l with
  | nil => cases hx
  | cons y ys ih =>
    rw [List.flatMap_cons]
    have hys := fun z hz => hother z (List.mem_cons_of_mem y hz)
    by_cases hmem : x ∈ ys
    · exact (ih hmem hys).append_right _
    · obtain rfl : x = y := (List.mem_cons.1 hx).resolve_right hmem
      refine h.append_left fun c hc => ?_
      obtain ⟨z, hz, hcz⟩ := List.mem_flatMap.1 hc
      exact hys z hz (fun heq => hmem (heq ▸ hz)) c hcz

/-- The byte at each place of a field that was stored. -/
theorem LeavesField.readByte_store {cs : List Host.Cell} {a n v i : Nat} (h : LeavesField cs a n v) (s : State)
    (hi : i < n) : (s.store cs).readByte (a + i) = BitVec.ofNat 8 (v / 256 ^ i) := by
  rw [Machine.readByte_store, h i hi, Option.getD_some]

/-- A one-byte field that was stored. -/
theorem LeavesField.readByte_store_one {cs : List Host.Cell} {a v : Nat} (h : LeavesField cs a 1 v) (s : State) :
    (s.store cs).readByte a = BitVec.ofNat 8 v := by
  simpa using h.readByte_store s Nat.one_pos

/-- R14: a stored field reads back. -/
theorem LeavesField.memRead_store {cs : List Host.Cell} {a n v : Nat} (h : LeavesField cs a n v) (s : State) :
    (s.store cs).memRead a n = v % 256 ^ n := memRead_of_digits fun _ hi => h.readByte_store s hi

/-- A stored field that fits its width reads back whole. -/
theorem LeavesField.memRead_store_of_lt {cs : List Host.Cell} {a n v : Nat} (h : LeavesField cs a n v) (s : State)
    (hv : v < 256 ^ n) : (s.store cs).memRead a n = v := by
  rw [h.memRead_store, Nat.mod_eq_of_lt hv]

/-- The frame of a list of writes that all fall in a range. -/
theorem unchangedOutside_store {s : State} {cs : List Host.Cell} {x : Span} (h : ∀ c ∈ cs, x.holds c.1 = true) :
    unchangedOutside x s (s.store cs) := fun a ha => by
  refine readByte_store_of_not_mem s cs a fun hmem => ?_
  obtain ⟨c, hc, rfl⟩ := List.mem_map.1 hmem
  exact absurd (h c hc) (by simp [ha])

/-- Settles O59: a field's own writes leave its digits, at its own bytes only. -/
theorem fieldReadsBackAsWritten : Obligations.FieldReadsBackAsWritten := fun s a n v =>
  ⟨(leavesField_cellsLE a n v).memRead_store s,
    unchangedOutside_store fun _ hc => (holds_iff _ _ _).2 (holds_of_cellsLE hc)⟩

/-! ## Free bytes -/

/-- R86, R343, R371: an address made "any value" reads as one of the free bytes drawn. -/
theorem readByte_anyBytes_of_mem (s : State) {as : List Nat} {a : Nat} (h : a ∈ as) :
    isFreeByte s (s.anyBytes as) ((s.anyBytes as).readByte a) := by
  obtain ⟨v, hlast, hcell⟩ := lastCell_mem (cs := anyCells as s.free) (a := a) (by simpa using h)
  obtain ⟨m, hlo, hhi, hv⟩ := anyCells_value as s.free _ hcell
  have hread : (s.anyBytes as).readByte a = v := by
    rw [show (s.anyBytes as).readByte a = (s.store (anyCells as s.free)).readByte a from rfl, readByte_store, hlast,
      Option.getD_some]
  exact ⟨m, hlo, hhi, hread.trans hv⟩

/-- Free bytes drawn early stay drawn. -/
theorem isFreeByte.mono {s t u : State} {v : Byte} (h : isFreeByte s t v) (hle : t.free ≤ u.free) :
    isFreeByte s u v := by
  obtain ⟨n, hlo, hhi, hv⟩ := h
  exact ⟨n, hlo, Nat.lt_of_lt_of_le hhi hle, hv⟩

theorem unchangedOutside_anyBytes {s : State} {as : List Nat} {x : Span} (h : ∀ a ∈ as, x.holds a = true) :
    unchangedOutside x s (s.anyBytes as) := fun a ha =>
  readByte_anyBytes_of_not_mem s as a fun hmem => absurd (h a hmem) (by simp [ha])

/-- Two changes inside a range are one. -/
theorem unchangedOutside.trans {x : Span} {s t u : State} (h : unchangedOutside x s t) (h' : unchangedOutside x t u) :
    unchangedOutside x s u := fun a ha => (h' a ha).trans (h a ha)

/-- Drawing no free byte changes nothing. -/
@[simp] theorem anyBytes_nil (s : State) : s.anyBytes [] = s := rfl

end Sys2Proof.Machine
end

section
/-! The invariant (10_state R49, 60_exceptions R43-R45): memory canonical, STATUS legal, hidden state only while a command
runs. Each part of a step keeps it. -/

namespace Sys2Proof.Machine

open Sys2Proof

/-! ## STATUS -/

theorem legal_default : ({} : Status).legal = true := rfl

/-- R360: the nine codes are 1 to 9. -/
theorem code_range (e : ErrCode) : 1 ≤ e.code.toNat ∧ e.code.toNat ≤ 9 := by
  cases e <;> decide

theorem legal_failed (f : Status) (e : ErrCode) : (f.failed e).legal = true := by
  simp [Status.legal, code_range e]

theorem legal_accepted (f : Status) : f.accepted.legal = true := by
  simp [Status.legal]

section

variable {f : Status} (h : f.legal = true)

include h

theorem legal_completed : f.completed.legal = true := by
  simp only [Status.legal, Bool.and_eq_true] at h ⊢
  exact ⟨by simp, h.2⟩

theorem legal_dropped : f.dropped.legal = true := h

/-- R23, R341: a STATUS write that clears ERR clears ERRCODE, and no write sets DONE or ERR. -/
theorem legal_hostWrite (w : Word) : (f.hostWrite w).legal = true := by
  simp only [Status.legal, Bool.and_eq_true] at h ⊢
  obtain ⟨hrunning, hcode⟩ := h
  constructor
  · simp only [hostWrite_busy, hostWrite_done, hostWrite_err]
    cases hbusy : f.busy
    · rfl
    · have hnone : f.done = false ∧ f.err = false := by simpa [hbusy] using hrunning
      simp [hnone]
  · cases hclear : w.getLsbD 2
    · simpa only [hostWrite_err, hostWrite_errCode, hclear, Bool.not_false, Bool.and_true, Bool.false_eq_true, if_false]
        using hcode
    · simp [hclear]

end

/-! ## The parts of the invariant -/

theorem inv_iff (s : State) : s.Inv = true ↔
    Memory.wf s.mem = true ∧ s.status.legal = true ∧ s.hiddenLegal = true ∧ s.raceLegal = true := by
  simp [State.Inv, and_assoc]

/-- An idle engine whose hidden state is gone: only memory and STATUS are left to check. -/
theorem inv_of_idle {t : State} (hwf : Memory.wf t.mem = true) (hlegal : t.status.legal = true)
    (hidle : t.status.busy = false) (hlatch : t.latch = {}) (hrace : t.race = {}) : t.Inv = true :=
  (inv_iff t).2 ⟨hwf, hlegal, by simp [State.hiddenLegal, hidle, hlatch, hrace], by simp [State.raceLegal, hrace]⟩

theorem mem_running_of_raceLegal {s : State} (h : s.raceLegal = true) {a : Nat} (ha : a ∈ s.race.dst) :
    s.inRunningDst a = true := List.all_eq_true.1 h a ha

/-! ## The engine -/

/-- The end of a command that passed its checks writes its destination range, and the raced bytes. -/
theorem wf_finish {s : State} {i : Instr} (hpre : preError i s.latch.ops = none)
    (hrace : ∀ a ∈ s.race.dst, a < 2 ^ 32) (hwf : Memory.wf s.mem = true) :
    Memory.wf (s.finish (jobOf i s)).mem = true := by
  have hdst (a : Nat) (ha : a ∈ (jobOf i s).dst.addrs) : a < 2 ^ 32 := by
    rw [mem_addrs, jobOf_dst] at ha
    exact dst_lt_of_preError_none hpre ha
  have hcells (c : Host.Cell) (hc : c ∈ (jobOf i s).cells) : c.1 < 2 ^ 32 :=
    dst_lt_of_preError_none hpre (jobOf_cells i s c hc)
  obtain ⟨-, h⟩ | ⟨-, -, n, h⟩ | ⟨-, -, h⟩ := finish_cases s (jobOf i s)
  · rw [h]; exact wf_anyBytes s _ hdst hwf
  · rw [h]; exact wf_anyBytes s _ hdst hwf
  · rw [h]; exact wf_anyBytes _ _ hrace (wf_store s _ hcells hwf)

/-- Every command keeps memory canonical, so long as the raced bytes exist. -/
theorem wf_exec {s t : State} {i : Instr} (hrace : ∀ a ∈ s.race.dst, a < 2 ^ 32) (hwf : Memory.wf s.mem = true)
    (h : exec i s = .next t) : Memory.wf t.mem = true := by
  obtain ⟨u, hu, hcases⟩ := exec_cases i s
  cases hu.symm.trans h
  obtain ⟨e, -, rfl⟩ | ⟨-, -, rfl⟩ | ⟨hpre, -, rfl⟩ := hcases
  · exact wf_anyBytes s _ hrace hwf
  · rw [finishParse_mem]; exact hwf
  · exact wf_finish hpre hrace hwf

theorem legal_exec {s t : State} {i : Instr} (hlegal : s.status.legal = true) (h : exec i s = .next t) :
    t.status.legal = true := by
  obtain ⟨e, ht⟩ | ht := exec_status h
  · rw [ht]; exact legal_failed _ e
  · rw [ht]; exact legal_completed hlegal

theorem inv_exec {s t : State} {i : Instr} (hinv : s.Inv = true) (h : exec i s = .next t) : t.Inv = true := by
  obtain ⟨hwf, hlegal, -, hrace⟩ := (inv_iff s).1 hinv
  obtain ⟨-, hidle, -, hlatch, hnorace⟩ := exec_frame h
  have hraced (a : Nat) (ha : a ∈ s.race.dst) : a < 2 ^ 32 := lt_of_inRunningDst (mem_running_of_raceLegal hrace ha)
  exact inv_of_idle (wf_exec hraced hwf h) (legal_exec hlegal h) hidle hlatch hnorace

theorem inv_engineStep {s t : State} (hinv : s.Inv = true) (h : engineStep s = .next t) : t.Inv = true := by
  obtain ⟨-, hstep⟩ | ⟨-, -, hstep⟩ | ⟨-, i, -, hstep⟩ := engineStep_cases s
  · cases hstep.symm.trans h; exact hinv
  · cases hstep.symm.trans h
    exact inv_of_idle ((inv_iff s).1 hinv).1 (legal_failed _ _) rfl rfl rfl
  · exact inv_exec hinv (hstep.symm.trans h)

/-! ## Reset -/

/-- R343: the bytes a reset leaves free exist. -/
theorem inv_resetEngine {s : State} (hwf : Memory.wf s.mem = true) : s.resetEngine.Inv = true :=
  inv_of_idle (wf_anyBytes s s.runningDst (fun a ha => lt_of_inRunningDst ((mem_runningDst s a).1 ha)) hwf)
    legal_default rfl rfl rfl

/-- Settles O9: nothing is written, and no command runs. -/
theorem resetMeetsTheInvariant : Obligations.ResetMeetsTheInvariant :=
  inv_of_idle wf_reset legal_default rfl rfl rfl

/-! ## The host -/

/-- R43: acceptance latches the word that CMD shows, and starts with no race. -/
theorem inv_accept {s : State} (hwf : Memory.wf s.mem = true) (w : Word) : (s.accept w).Inv = true :=
  (inv_iff _).2 ⟨hwf, legal_accepted _, by simp [State.hiddenLegal], by simp [State.raceLegal]⟩

/-- Only the STATUS of a state changes, and BUSY does not. -/
theorem inv_withStatus {s : State} {f : Status} (hinv : s.Inv = true) (hf : f.legal = true)
    (hbusy : f.busy = s.status.busy) : ({ s with status := f } : State).Inv = true := by
  obtain ⟨hwf, -, hhidden, hrace⟩ := (inv_iff s).1 hinv
  refine (inv_iff _).2 ⟨hwf, hf, ?_, ?_⟩
  · simpa [State.hiddenLegal, hbusy] using hhidden
  · simpa [State.raceLegal, State.inRunningDst, hbusy] using hrace

theorem inv_writeReg {s t : State} {r : Reg} {w : Word} (hinv : s.Inv = true) (h : s.writeReg r w = .next t) :
    t.Inv = true := by
  obtain ⟨hwf, hlegal, -, -⟩ := (inv_iff s).1 hinv
  obtain rfl | rfl | rfl | rfl | ⟨-, rfl⟩ | ⟨-, rfl⟩ | ⟨a, rfl⟩ := writeReg_cases h
  · exact hinv
  · exact inv_resetEngine hwf
  · exact hinv
  · exact inv_withStatus hinv (legal_hostWrite hlegal w) rfl
  · exact inv_withStatus hinv (legal_dropped hlegal) rfl
  · exact inv_accept hwf w
  · exact hinv

/-- R86: a host write inside the running ranges is recorded; only one in the destination range adds a raced byte. -/
theorem inv_hostMemWrite {s t : State} {a : Word} {v : Byte} (hinv : s.Inv = true)
    (h : s.hostMemWrite a v = .next t) : t.Inv = true := by
  obtain ⟨hwf, hlegal, hhidden, hrace⟩ := (inv_iff s).1 hinv
  have hwf' : Memory.wf (s.store [(a.toNat, v)]).mem = true :=
    wf_store s _ (fun c hc => by rw [List.mem_singleton.1 hc]; exact a.isLt) hwf
  have hbusy {b : Nat} (hrun : (s.inRunningDst b || s.inRunningSrc b) = true) : s.status.busy = true := by
    by_contra hidle
    simp [State.inRunningDst, State.inRunningSrc, hidle] at hrun
  have hlatched (hb : s.status.busy = true) : (s.latch.cmd == s.cmd) = true := by
    simpa [State.hiddenLegal, hb] using hhidden
  obtain ⟨hdst, rfl⟩ | ⟨-, hsrc, rfl⟩ | ⟨-, -, rfl⟩ := hostMemWrite_cases h
  · have hb := hbusy (b := a.toNat) (by simp [hdst])
    refine (inv_iff _).2 ⟨hwf, hlegal, by simpa [State.hiddenLegal, hb] using hlatched hb, ?_⟩
    refine List.all_eq_true.2 fun b hmem => ?_
    obtain rfl | hold := (mem_insertAddr _ _ _).1 hmem
    · exact hdst
    · exact mem_running_of_raceLegal hrace hold
  · have hb := hbusy (b := a.toNat) (by simp [hsrc])
    exact (inv_iff _).2 ⟨hwf', hlegal, by simpa [State.hiddenLegal, hb] using hlatched hb, hrace⟩
  · exact (inv_iff _).2 ⟨hwf', hlegal, hhidden, hrace⟩

theorem inv_hostStep {s t : State} {op : HostOp} (hinv : s.Inv = true) (h : hostStep op s = .next t) :
    t.Inv = true := by
  cases op with
  | regRead addr size => rw [hostRegRead_cases h]; exact hinv
  | regWrite addr size w =>
    obtain ⟨-, rfl | ⟨r, -, hwrite⟩⟩ := hostRegWrite_cases h
    · exact hinv
    · exact inv_writeReg hinv hwrite
  | memRead a => obtain ⟨v, n, rfl⟩ := hostMemRead_cases h; exact hinv
  | memWrite a v => exact inv_hostMemWrite hinv h

/-! ## A step -/

/-- R414: the value a read returns is all that the order of a same-step read decides. -/
theorem sameStepRead_cases (t : State) (op : HostOp) : ∃ v n, t.free ≤ n ∧
    t.sameStepRead op = { t with rdata := v, free := n } := by
  cases op with
  | regRead addr size => exact ⟨_, t.free + 1, by omega, rfl⟩
  | regWrite addr size w => exact ⟨t.rdata, t.free, le_refl _, rfl⟩
  | memRead a => exact ⟨t.rdata, t.free, le_refl _, rfl⟩
  | memWrite a v => exact ⟨t.rdata, t.free, le_refl _, rfl⟩

/-- R378: a host access and the engine's step in one: the access, and while a command runs the engine's step after it. -/
theorem togetherStep_cases {s t : State} {op : HostOp} (h : togetherStep op s = .next t) :
    (s.status.busy = false ∧ hostStep op s = .next t) ∨
    (s.status.busy = true ∧ ∃ s1 s2, hostStep op s = .next s1 ∧ engineStep s1 = .next s2 ∧
      t = s2.sameStepRead op) := by
  rw [togetherStep] at h
  split at h
  · next hbusy =>
    obtain ⟨s1, hhost, h⟩ := andThen_eq_next h
    obtain ⟨s2, hengine, h⟩ := andThen_eq_next h
    exact .inr ⟨hbusy, s1, s2, hhost, hengine, (Host.Outcome.next.inj h).symm⟩
  · next hidle => exact .inl ⟨by simpa using hidle, h⟩

theorem inv_togetherStep {s t : State} {op : HostOp} (hinv : s.Inv = true) (h : togetherStep op s = .next t) :
    t.Inv = true := by
  obtain ⟨-, hhost⟩ | ⟨-, s1, s2, hhost, hengine, rfl⟩ := togetherStep_cases h
  · exact inv_hostStep hinv hhost
  · obtain ⟨v, n, -, hread⟩ := sameStepRead_cases s2 op
    have hs2 : s2.Inv = true := inv_engineStep (inv_hostStep hinv hhost) hengine
    rw [hread]
    exact hs2

/-- The state a turn acts on: the oldest pending turn, if any, is used up. -/
def State.rest (s : State) : State := { s with turns := s.turns.tail }

theorem rest_of_cons {s : State} {x : Turn} {ts : List Turn} (h : s.turns = x :: ts) : s.rest = { s with turns := ts } := by
  rw [State.rest, h, List.tail_cons]

theorem rest_of_nil {s : State} (h : s.turns = []) : s.rest = s := by
  cases s
  subst h
  rfl

/-- R415, log 3: a step is the turn of the reset input, of the engine, of the host, or of the host and the engine. -/
theorem step_cases {s t : State} (h : step s = .next t) :
    ((∃ ts, s.turns = .powerOn :: ts) ∧ t = s.rest.resetEngine) ∨
    ((s.turns = [] ∨ ∃ ts, s.turns = .engine :: ts) ∧ engineStep s.rest = .next t) ∨
    (∃ op ts, s.turns = .host op :: ts ∧ hostStep op s.rest = .next t) ∨
    (∃ op ts, s.turns = .together op :: ts ∧ togetherStep op s.rest = .next t) := by
  rw [step] at h
  split at h
  · next ht => exact .inr (.inl ⟨.inl ht, by rw [rest_of_nil ht]; exact h⟩)
  · next ts ht => exact .inr (.inl ⟨.inr ⟨ts, ht⟩, by rw [rest_of_cons ht]; exact h⟩)
  · next op ts ht => exact .inr (.inr (.inl ⟨op, ts, ht, by rw [rest_of_cons ht]; exact h⟩))
  · next op ts ht => exact .inr (.inr (.inr ⟨op, ts, ht, by rw [rest_of_cons ht]; exact h⟩))
  · next ts ht => exact .inl ⟨⟨ts, ht⟩, by rw [rest_of_cons ht]; exact (Host.Outcome.next.inj h).symm⟩

/-- Settles O8: each kind of turn keeps the invariant, in which the pending turns have no part. -/
theorem stepKeepsTheInvariant : Obligations.StepKeepsTheInvariant := by
  intro s t hinv h
  have hrest : s.rest.Inv = true := hinv
  obtain ⟨-, rfl⟩ | ⟨-, hengine⟩ | ⟨op, ts, -, hhost⟩ | ⟨op, ts, -, hboth⟩ := step_cases h
  · exact inv_resetEngine ((inv_iff s.rest).1 hrest).1
  · exact inv_engineStep hrest hengine
  · exact inv_hostStep hrest hhost
  · exact inv_togetherStep hrest hboth

end Sys2Proof.Machine
end

section
/-! The register window (10_state R20-R24, 45_control R341): reads, ignored writes, operand registers, STATUS, and the
CMD writes that are dropped or refused. -/

namespace Sys2Proof.Machine

open Sys2Proof

/-! ## Offsets and shapes -/

/-- R20: a register is found at its own offset only. -/
theorem offset_of_regAt {off : Nat} {r : Reg} (h : regAt off = some r) : r.offset = off := by
  unfold regAt at h
  split at h <;> cases h <;> rfl

/-- R20: the offsets of no register are the reserved ones. -/
theorem regAt_of_reserved {off : Nat} (h : ∀ r : Reg, r.offset ≠ off) : regAt off = none :=
  Option.eq_none_iff_forall_ne_some.2 fun r hr => h r (offset_of_regAt hr)

/-- An aligned 32-bit access of the window goes through (R20). -/
theorem regAccessRefusal_base (P : Params) {off : Nat} (hoff : off < 4096) (halign : off % 4 = 0) :
    regAccessRefusal P (P.regBase + BitVec.ofNat 32 off) 4 = none := by
  have hoffset := regOffset_base P off (by omega)
  exact (regAccessRefusal_eq_none _ _ _).2 ⟨by rw [hoffset]; exact hoff, rfl, by rw [hoffset]; exact halign⟩

/-- R20, U1: any other access of the window is refused. -/
theorem regAccessRefusal_of_malformed {P : Params} {addr : Word} {size : Nat} (hwindow : regOffset P addr < 4096)
    (hshape : size ≠ 4 ∨ regOffset P addr % 4 ≠ 0) : regAccessRefusal P addr size = some .registerAccessShape := by
  rw [regAccessRefusal, if_neg (by simpa [Config.regWindow] using hwindow), if_pos hshape]

/-- Settles O16: a read changes the value read, which is 0 where no register stands. -/
theorem registerReadHasNoSideEffect : Obligations.RegisterReadHasNoSideEffect := by
  refine fun s => ⟨rdReg_eq s, fun off hoff halign hreserved => ?_⟩
  simp only [hostStep, State.hostRegRead, regAccessRefusal_base s.params hoff halign, State.windowRead,
    regOffset_base s.params off (by omega), regAt_of_reserved hreserved]

/-- Settles O17: the shape of an access is looked at before its register. -/
theorem malformedRegisterAccessIsRefused : Obligations.MalformedRegisterAccessIsRefused := by
  intro s addr size w hwindow hshape
  have hrefusal := regAccessRefusal_of_malformed hwindow hshape
  constructor
  · simp only [hostStep, State.hostRegRead, hrefusal]
  · simp only [hostStep, State.hostRegWrite, hrefusal]

/-- R20: a write of a reserved offset is ignored. -/
theorem hostStep_write_of_reserved (s : State) {off : Nat} (w : Word) (hoff : off < 4096) (halign : off % 4 = 0)
    (hreserved : ∀ r : Reg, r.offset ≠ off) :
    hostStep (.regWrite (s.params.regBase + BitVec.ofNat 32 off) 4 w) s = .next s := by
  simp only [hostStep, State.hostRegWrite, regAccessRefusal_base s.params hoff halign,
    regOffset_base s.params off (by omega), regAt_of_reserved hreserved]

/-- Settles O18, by the kind of the register written. -/
theorem readOnlyAndOperandRegisterWrites : Obligations.ReadOnlyAndOperandRegisterWrites := fun s w =>
  ⟨wrReg_eq s .id w, fun r => wrReg_eq s (.result r) w, fun _ => hostStep_write_of_reserved s w,
    fun r => ⟨_, wrReg_eq s (.operand r) w, rfl, operands_get_set s.ops w r⟩⟩

/-! ## STATUS -/

/-- R23: the bits of STATUS, field by field. -/
theorem getLsbD_word (f : Status) (j : Nat) : f.word.getLsbD j =
    if j = 0 then f.busy else if j = 1 then f.done else if j = 2 then f.err else if j = 3 then f.ovr else
    if 8 ≤ j ∧ j < 16 then f.errCode.getLsbD (j - 8) else false := by
  change (0#16 ++ f.errCode ++ 0#4 ++ BitVec.ofBool f.ovr ++ BitVec.ofBool f.err ++ BitVec.ofBool f.done ++
    BitVec.ofBool f.busy).getLsbD j = _
  simp only [BitVec.getLsbD_append, BitVec.getLsbD_ofBool, BitVec.getLsbD_zero]
  grind

/-- The bits of STATUS that a written 1 clears: DONE, ERR and OVR (R23). -/
def clearedFlags (w : Word) : Word := w &&& 0x0000000E#32

/-- The bits of STATUS that go with ERR: ERRCODE (R23). -/
def clearedCode (w : Word) : Word := if w.getLsbD 2 then 0x0000FF00#32 else 0#32

theorem getLsbD_clearedFlags (w : Word) {j : Nat} (hj : j < 32) :
    (clearedFlags w).getLsbD j = (w.getLsbD j && decide (j = 1 ∨ j = 2 ∨ j = 3)) := by
  have hmask : ∀ j < 32, (0x0000000E#32).getLsbD j = decide (j = 1 ∨ j = 2 ∨ j = 3) := by decide
  rw [clearedFlags, BitVec.getLsbD_and, hmask j hj]

theorem getLsbD_clearedCode (w : Word) {j : Nat} (hj : j < 32) :
    (clearedCode w).getLsbD j = (w.getLsbD 2 && decide (8 ≤ j ∧ j < 16)) := by
  have hmask : ∀ j < 32, (0x0000FF00#32).getLsbD j = decide (8 ≤ j ∧ j < 16) := by decide
  rw [clearedCode]
  split
  · next hset => rw [hmask j hj, hset, Bool.true_and]
  · next hclear => rw [BitVec.getLsbD_zero, Bool.eq_false_iff.2 hclear, Bool.false_and]

/-- R23, R341: the word STATUS reads after a write is the word before without the cleared bits. -/
theorem word_hostWrite (f : Status) (w : Word) :
    (f.hostWrite w).word = f.word &&& ~~~clearedFlags w &&& ~~~clearedCode w := by
  refine BitVec.eq_of_getLsbD_eq fun j hj => ?_
  simp only [BitVec.getLsbD_and, BitVec.getLsbD_not, hj, decide_true, Bool.true_and, getLsbD_clearedFlags w hj,
    getLsbD_clearedCode w hj, getLsbD_word, hostWrite_busy, hostWrite_done, hostWrite_err, hostWrite_ovr,
    hostWrite_errCode]
  by_cases hfield : 8 ≤ j
  · cases w.getLsbD 2 <;> grind
  · grind

/-- Settles O19: the write's clears on the word, and on DONE for the interrupt line. -/
theorem statusWriteClearsTheNamedBits : Obligations.StatusWriteClearsTheNamedBits := by
  intro s w
  refine ⟨_, wrReg_eq s .status w, rfl, congrArg BitVec.toNat (word_hostWrite s.status w), ?_⟩
  simp [State.irq, Bool.and_assoc]

/-! ## CMD -/

/-- Settles O15: a busy engine drops the word. -/
theorem busyCommandWriteIsDropped : Obligations.BusyCommandWriteIsDropped := fun s w hbusy =>
  ⟨_, (wrReg_eq s .cmd w).trans (writeCmd_of_busy w hbusy), rfl, rfl⟩

/-- R367: two ranges share a byte exactly when some address lies in both. -/
theorem meets_iff (x y : Span) : x.meets y = true ↔ ∃ a, x.holds a = true ∧ y.holds a = true := by
  obtain ⟨b, n⟩ := x
  obtain ⟨c, m⟩ := y
  simp only [Span.meets, holds_iff, decide_eq_true_eq]
  refine ⟨fun h => ⟨max b c, by omega⟩, ?_⟩
  rintro ⟨a, hx, hy⟩
  omega

/-- R66: a range with an address of a device lies on the device. -/
theorem onDevice_of_holds {p : Platform} {xs : List Span} {x d : Span} {a : Nat} (hx : x ∈ xs) (hd : d ∈ p.devices)
    (hxa : x.holds a = true) (hda : d.holds a = true) : p.onDevice xs = true :=
  List.any_eq_true.2 ⟨x, hx, List.any_eq_true.2 ⟨d, hd, (meets_iff x d).2 ⟨a, hxa, hda⟩⟩⟩

/-- The ranges that a word accesses once its checks pass (log 15). -/
theorem accessedSpans_of_pass {w : Word} {i : Instr} {o : Operands} (hdecode : decode w = .ok i)
    (hpre : preError i o = none) : accessedSpans w o = some (srcSpan i o, dstSpan i o) := by
  simp [accessedSpans, hdecode, hpre]

/-- Settles O22: one of the two ranges that the command would access lies on the device. -/
theorem launchOnADeviceIsRefused : Obligations.LaunchOnADeviceIsRefused := by
  intro s w i d a hidle hdecode hpre hd hda hrange
  have hdevice : s.platform.onDevice [srcSpan i s.ops, dstSpan i s.ops] = true := by
    obtain hsrc | hdst := hrange
    · exact onDevice_of_holds List.mem_cons_self hd hsrc hda
    · exact onDevice_of_holds (List.mem_cons_of_mem _ List.mem_cons_self) hd hdst hda
  have hwrite : s.wrReg .cmd w = s.writeCmd w := wrReg_eq s .cmd w
  rw [hwrite, State.writeCmd, if_neg (by simp [hidle]), accessedSpans_of_pass hdecode hpre]
  exact if_pos hdevice

end Sys2Proof.Machine
end

section
/-! Steps (70_reset_and_hazards R415): what the parts of a step can change in the registers, and that the pending turns run
out (10_state R22-R24, R47, R50, 60_exceptions R375). -/

namespace Sys2Proof.Machine

open Sys2Proof

/-! ## One step -/

/-- Settles O4: with no turn pending, or the engine's first, the step is the engine's. -/
theorem stepRunsTheLatchedCommand : Obligations.StepRunsTheLatchedCommand := by
  intro s i hrunning
  constructor
  · intro hturns
    rw [step, hturns]
    exact engineStep_of_running hrunning
  · intro ts hturns
    rw [step, hturns]
    exact engineStep_of_running (s := { s with turns := ts }) hrunning

/-- Settles O5, turn by turn. -/
theorem stepTakesTheOldestTurn : Obligations.StepTakesTheOldestTurn := by
  intro s ts
  refine ⟨fun op h => ?_, fun op h => ?_, fun h => ?_, fun h => ?_, fun h hidle => ?_⟩
  · rw [step, h]
  · rw [step, h]
  · rw [step, h]
  · rw [step, h]
  · rw [step, h]
    exact engineStep_of_idle hidle

/-! ## What may change a register -/

/-- From s to t each register changes only by its writers (R47): `resets` says that a reset may take place, `ends` that a
command may end, and `writes off w` that the host may write w at the offset off of the window. -/
structure RegChanges (resets ends : Prop) (writes : Nat → Word → Prop) (s t : State) : Prop where
  params : t.params = s.params
  platform : t.platform = s.platform
  turns : t.turns = s.turns
  ops : ∀ r, t.ops.get r ≠ s.ops.get r → resets ∨ writes (Reg.operand r).offset (t.ops.get r)
  res : t.res ≠ s.res → ends ∨ resets
  irqEn : t.irqEn ≠ s.irqEn → resets ∨ ∃ w : Word, writes 0x004 w ∧ t.irqEn = w.getLsbD 0
  cmd : t.cmd ≠ s.cmd → resets ∨ (s.status.busy = false ∧ writes 0x00C t.cmd)
  status : t.status ≠ s.status → ends ∨ resets ∨ ∃ w, writes 0x008 w ∨ writes 0x00C w
  ovr : s.status.ovr = true → t.status.ovr = false → resets ∨ ∃ w : Word, writes 0x008 w ∧ w.getLsbD 3 = true

section

variable {resets ends : Prop} {writes : Nat → Word → Prop} {s t u : State}

/-- Memory, the race record, the value read and the free counter are no registers. -/
theorem regChanges_of_data (s : State) (m : Memory) (c : Race) (v : Word) (n : Nat) :
    RegChanges resets ends writes s { s with mem := m, race := c, rdata := v, free := n } where
  params := rfl
  platform := rfl
  turns := rfl
  ops _ h := absurd rfl h
  res h := absurd rfl h
  irqEn h := absurd rfl h
  cmd h := absurd rfl h
  status h := absurd rfl h
  ovr h h' := absurd (h.symm.trans h') (by decide)

theorem regChanges_refl (s : State) : RegChanges resets ends writes s s :=
  regChanges_of_data s s.mem s.race s.rdata s.free

/-- A reset may change every register, but neither the configuration nor the platform (R50). -/
theorem regChanges_resetEngine (s : State) (h : resets) : RegChanges resets ends writes s s.resetEngine where
  params := rfl
  platform := rfl
  turns := rfl
  ops _ _ := .inl h
  res _ := .inr h
  irqEn _ := .inl h
  cmd _ := .inl h
  status _ := .inr (.inl h)
  ovr _ _ := .inl h

/-- The end of a command changes the result registers and STATUS, and of STATUS not OVR (R45, R375). -/
theorem RegChanges.endsCommand (h : RegChanges resets ends writes s t) (hends : ends) (hside : sameHostSide t u) :
    RegChanges resets ends writes s u := by
  obtain ⟨hparams, hplatform, hirq, hcmd, hops, hovr, hturns, -⟩ := hside
  exact
    { params := hparams.trans h.params
      platform := hplatform.trans h.platform
      turns := hturns.trans h.turns
      ops := by rw [hops]; exact h.ops
      res := fun _ => .inl hends
      irqEn := by rw [hirq]; exact h.irqEn
      cmd := by rw [hcmd]; exact h.cmd
      status := fun _ => .inl hends
      ovr := by rw [hovr]; exact h.ovr }

/-! ## The host's accesses -/

/-- R341: what a host write of each register changes. -/
theorem regChanges_writeReg {r : Reg} {w : Word} (hwrites : writes r.offset w)
    (hresets : ∀ w : Word, writes 0x004 w → w.getLsbD 1 = true → resets) (h : s.writeReg r w = .next t) :
    RegChanges resets ends writes s t := by
  cases r with
  | id => cases h; exact regChanges_refl s
  | result r => cases h; exact regChanges_refl s
  | ctrl =>
    cases hreset : w.getLsbD 1
    · rw [State.writeReg, writeCtrl_of_bit1_clear s hreset] at h
      cases h
      exact { regChanges_refl s with irqEn := fun _ => .inr ⟨w, hwrites, rfl⟩ }
    · rw [State.writeReg, writeCtrl_of_bit1_set s hreset] at h
      cases h
      exact regChanges_resetEngine s (hresets w hwrites hreset)
  | status =>
    cases h
    exact
      { regChanges_refl s with
        status := fun _ => .inr (.inr ⟨w, .inl hwrites⟩)
        ovr := fun hset hclear => .inr ⟨w, hwrites, by simpa [hset] using hclear⟩ }
  | cmd =>
    have hstatus : ∃ w, writes 0x008 w ∨ writes 0x00C w := ⟨w, .inr hwrites⟩
    obtain ⟨-, rfl⟩ | ⟨hidle, rfl⟩ := writeCmd_cases h
    · exact { regChanges_refl s with status := fun _ => .inr (.inr hstatus), ovr := fun _ h => absurd h (by simp) }
    · exact
        { regChanges_refl s with
          cmd := fun _ => .inr ⟨hidle, hwrites⟩
          status := fun _ => .inr (.inr hstatus)
          ovr := fun hset hclear => absurd (hset.symm.trans hclear) (by decide) }
  | operand a =>
    cases h
    refine { regChanges_refl s with ops := fun r hne => .inr ?_ }
    have hget := operands_get_set s.ops w a r
    by_cases hra : r = a
    · subst hra
      rw [hget, if_pos rfl]
      exact hwrites
    · rw [if_neg hra] at hget
      exact absurd hget hne

/-- A host access writes at most the register it names. -/
theorem regChanges_hostStep {op : HostOp}
    (hwrites : ∀ addr w, op = .regWrite addr 4 w → writes (regOffset s.params addr) w)
    (hresets : ∀ w : Word, writes 0x004 w → w.getLsbD 1 = true → resets) (h : hostStep op s = .next t) :
    RegChanges resets ends writes s t := by
  cases op with
  | regRead addr size => rw [hostRegRead_cases h]; exact regChanges_of_data s s.mem s.race _ s.free
  | memRead a => obtain ⟨v, n, rfl⟩ := hostMemRead_cases h; exact regChanges_of_data s s.mem s.race v n
  | memWrite a v =>
    obtain ⟨-, rfl⟩ | ⟨-, -, rfl⟩ | ⟨-, -, rfl⟩ := hostMemWrite_cases h
    · exact regChanges_of_data s s.mem _ s.rdata s.free
    · exact regChanges_of_data s _ _ s.rdata s.free
    · exact regChanges_of_data s _ s.race s.rdata s.free
  | regWrite addr size w =>
    obtain ⟨rfl, rfl | ⟨r, hr, hwrite⟩⟩ := hostRegWrite_cases h
    · exact regChanges_refl t
    · have hoff := offset_of_regAt hr
      exact regChanges_writeReg (by rw [hoff]; exact hwrites addr w rfl) hresets hwrite

end

/-! ## The engine -/

/-- The engine's step does nothing on an idle engine, and else ends the command (R45, R361). -/
theorem engineStep_frame {s t : State} (h : engineStep s = .next t) :
    (s.status.busy = false ∧ t = s) ∨ (s.status.busy = true ∧ t.status.busy = false ∧ sameHostSide s t) := by
  obtain ⟨hidle, hstep⟩ | ⟨hbusy, -, hstep⟩ | ⟨hbusy, i, -, hstep⟩ := engineStep_cases s
  · cases hstep.symm.trans h; exact .inl ⟨hidle, rfl⟩
  · cases hstep.symm.trans h; exact .inr ⟨hbusy, rfl, by simp [sameHostSide]⟩
  · obtain ⟨hside, hend, -⟩ := exec_frame (hstep.symm.trans h)
    exact .inr ⟨hbusy, hend, hside⟩

/-- After the engine has moved, no command runs. -/
theorem idle_of_engineStep {s t : State} (h : engineStep s = .next t) : t.status.busy = false := by
  obtain ⟨hidle, rfl⟩ | ⟨-, hend, -⟩ := engineStep_frame h
  · exact hidle
  · exact hend

theorem RegChanges.engineStep {resets ends : Prop} {writes : Nat → Word → Prop} {s t u : State}
    (h : RegChanges resets ends writes s t) (hends : u.status.busy = false → ends)
    (hengine : engineStep t = .next u) : RegChanges resets ends writes s u := by
  obtain ⟨-, rfl⟩ | ⟨-, hend, hside⟩ := engineStep_frame hengine
  · exact h
  · exact h.endsCommand (hends hend) hside

/-- The registers do not depend on the value read and the free counter. -/
theorem RegChanges.sameStepRead {resets ends : Prop} {writes : Nat → Word → Prop} {s t : State}
    (h : RegChanges resets ends writes s t) (op : HostOp) : RegChanges resets ends writes s (t.sameStepRead op) := by
  obtain ⟨v, n, -, hread⟩ := sameStepRead_cases t op
  rw [hread]
  exact { h with }

/-! ## A whole step -/

/-- R47: in a step the registers change by the turn's write or reset, or by the end of the running command. -/
theorem regChanges_step {s t : State} (h : step s = .next t) :
    RegChanges s.turnResets (endsBetween s t) s.hostWrites s.rest t := by
  have hresets (w : Word) (hwrite : s.hostWrites 0x004 w) (hset : w.getLsbD 1 = true) : s.turnResets :=
    .inr ⟨w, hwrite, hset⟩
  obtain ⟨⟨ts, hturns⟩, rfl⟩ | ⟨-, hengine⟩ | ⟨op, ts, hturns, hhost⟩ | ⟨op, ts, hturns, hboth⟩ := step_cases h
  · exact regChanges_resetEngine s.rest (.inl ⟨ts, hturns⟩)
  · obtain ⟨-, rfl⟩ | ⟨hbusy, hend, hside⟩ := engineStep_frame hengine
    · exact regChanges_refl s.rest
    · exact (regChanges_refl s.rest).endsCommand ⟨hbusy, hend⟩ hside
  · exact regChanges_hostStep (fun addr w hop => ⟨addr, ts, rfl, .inl (by rw [hturns, hop])⟩) hresets hhost
  · have hwrites (addr : Word) (w : Word) (hop : op = .regWrite addr 4 w) :
        s.hostWrites (regOffset s.rest.params addr) w := ⟨addr, ts, rfl, .inr (by rw [hturns, hop])⟩
    obtain ⟨-, hhost⟩ | ⟨hbusy, s1, s2, hhost, hengine, rfl⟩ := togetherStep_cases hboth
    · exact regChanges_hostStep hwrites hresets hhost
    · have hkeep : (s2.sameStepRead op).status = s2.status := by
        obtain ⟨v, n, -, hread⟩ := sameStepRead_cases s2 op
        rw [hread]
      exact ((regChanges_hostStep hwrites hresets hhost).engineStep
        (fun hend => ⟨hbusy, by rw [hkeep]; exact hend⟩) hengine).sameStepRead op

/-- Settles O10: the changes a step may make, register by register. -/
theorem eachRegisterChangesOnlyByItsWriters : Obligations.EachRegisterChangesOnlyByItsWriters := by
  intro s t h
  have hchanges := regChanges_step h
  exact ⟨hchanges.params, hchanges.platform, hchanges.ops, hchanges.res, hchanges.irqEn, hchanges.cmd, hchanges.status⟩

/-- Settles O11: of the changes a step may make, only a reset and a STATUS write clear OVR. -/
theorem overrunStaysUntilTheHostClearsIt : Obligations.OverrunStaysUntilTheHostClearsIt := by
  intro s t h hset hclear
  obtain (⟨ts, hreset⟩ | ⟨w, ⟨addr, ts, hoff, hturns⟩, hbit⟩) | ⟨w, ⟨addr, ts, hoff, hturns⟩, hbit⟩ :=
    (regChanges_step h).ovr hset hclear
  · exact ⟨ts, .inl hreset⟩
  · exact ⟨ts, .inr ⟨addr, w, hturns, .inr ⟨hoff, hbit⟩⟩⟩
  · exact ⟨ts, .inr ⟨addr, w, hturns, .inl ⟨hoff, hbit⟩⟩⟩

/-! ## The end of the pending turns -/

/-- A step uses up one pending turn. -/
theorem turns_of_step {s t : State} (h : step s = .next t) : t.turns = s.turns.tail := (regChanges_step h).turns

/-- A run of one more step is a step and then the run. -/
theorem run_succ {M : Host.Core} {n : Nat} {s t : M.State} (h : M.run (n + 1) s = .next t) :
    ∃ u, M.step s = .next u ∧ M.run n u = .next t := by
  rw [Host.Core.run] at h
  split at h
  · next u hu => exact ⟨u, hu, h⟩
  · cases h
  · cases h

/-- R415: a run as long as its pending turns takes them all, and one more step is the engine's. -/
theorem idle_of_run {n : Nat} {s t : State} (hn : s.turns.length = n) (h : Host.Core.run core (n + 1) s = .next t) :
    t.status.busy = false ∧ t.turns = [] := by
  induction n generalizing s with
  | zero =>
    obtain ⟨u, hstep, hrun⟩ := run_succ h
    cases hrun
    have hnone := List.eq_nil_of_length_eq_zero hn
    have hengine : step s = engineStep s := by rw [step, hnone]
    exact ⟨idle_of_engineStep (hengine.symm.trans hstep), by rw [turns_of_step hstep, hnone, List.tail_nil]⟩
  | succ n ih =>
    obtain ⟨u, hstep, hrun⟩ := run_succ h
    exact ih (by rw [turns_of_step hstep, List.length_tail, hn, Nat.add_sub_cancel]) hrun

/-- Settles O7, by induction on the number of pending turns. -/
theorem pendingTurnsThenIdle : Obligations.PendingTurnsThenIdle := fun _ _ h => idle_of_run rfl h

end Sys2Proof.Machine
end

section
/-! The checks before a command's first memory access (60_exceptions R362-R369), and the addresses that the platform
backs (20_memory R61, R371). -/

namespace Sys2Proof.Machine

open Sys2Proof

/-! ## The order of the checks -/

section

open Classical

/-- R366, R367: the checks on the two ranges. -/
theorem firstFailure_rangeChecks (i : Instr) (o : Operands) : firstFailure (rangeChecks i o) =
    if tooFar (srcSpan i o) (dstSpan i o) then some .addrOverflow
    else if shareByte (srcSpan i o) (dstSpan i o) then some .bufferOverlap else none := by
  have hmeets : (srcSpan i o).meets (dstSpan i o) = true ↔ shareByte (srcSpan i o) (dstSpan i o) := meets_iff _ _
  simp only [rangeChecks, firstFailure, checkRange, checkDisjoint, decide_eq_true_eq, hmeets]
  by_cases hfar : tooFar (srcSpan i o) (dstSpan i o)
  · rw [if_pos hfar]
    obtain hsrc | hdst := hfar
    · rw [if_pos hsrc]
    · rw [if_pos hdst, ite_self]
  · obtain ⟨hsrc, hdst⟩ := not_or.1 hfar
    rw [if_neg hfar, if_neg hsrc, if_neg hdst]

/-- R369: dimensions, then the block, then the ranges' ends, then their overlap; NOP has no range, and DDS_WRITE_HDR no
source range, so neither can overlap. -/
theorem preError_eq {i : Instr} (hi : i ≠ .ddsParseHdr) (o : Operands) : preError i o =
    if badDims i o then some .invalidDimensions
    else if badBlock i o then some .blockOutOfRange
    else if tooFar (srcSpan i o) (dstSpan i o) then some .addrOverflow
    else if shareByte (srcSpan i o) (dstSpan i o) then some .bufferOverlap else none := by
  cases i with
  | ddsParseHdr => exact absurd rfl hi
  | nop => simp [preError, checks, firstFailure, badDims, takesDims, badBlock, isTile, tooFar, shareByte, srcSpan,
      dstSpan, Span.holds]
  | ddsWriteHdr =>
    simp [preError, checks, firstFailure, badDims, takesDims, badBlock, isTile, tooFar, shareByte, srcSpan, dstSpan,
      Span.holds, checkDims, checkPayloadFits, checkRange, Operands.payloadSize, Operands.BW, Operands.BH, blocksOf,
      ite_or]
  | _ => simp [preError, checks, firstFailure, firstFailure_rangeChecks, badDims, takesDims, badBlock, isTile,
      checkDims, checkBlock, Operands.BW, Operands.BH, blocksOf]

end

/-- A command passes its checks when none of the four errors is due. -/
theorem preError_eq_none {i : Instr} {o : Operands} (hi : i ≠ .ddsParseHdr) (hdims : ¬badDims i o)
    (hblock : ¬badBlock i o) (hranges : rangesOk (srcSpan i o) (dstSpan i o)) : preError i o = none := by
  obtain ⟨hsrc, hdst, hapart⟩ := hranges
  have hfar : ¬tooFar (srcSpan i o) (dstSpan i o) := by
    unfold tooFar
    omega
  have hshare : ¬shareByte (srcSpan i o) (dstSpan i o) := by
    rintro ⟨a, hx, hy⟩
    simp only [Span.holds, decide_eq_true_eq] at hx hy
    omega
  rw [preError_eq hi, if_neg hdims, if_neg hblock, if_neg hfar, if_neg hshare]

/-- R370: a command that fails a check ends with its error, and without a race changes nothing else. -/
theorem failedWith_of_preError {i : Instr} {s : State} {e : ErrCode} (hrace : s.race.dst = [])
    (h : preError i s.latch.ops = some e) : failedWith (exec i s) s e.code := by
  rw [exec_of_preError h, failCheck_quiet s e hrace]
  exact failedWith_raiseError s e

/-- Settles O26: the order in which the checks' errors are due. -/
theorem checkErrorsFollowTheirPriority : Obligations.CheckErrorsFollowTheirPriority := by
  intro i s hi hrace
  have hpre := preError_eq hi s.latch.ops
  refine ⟨fun hdims => ?_, fun hdims hblock => ?_, fun hdims hblock hfar => ?_, fun hdims hblock hfar hshare => ?_⟩
  · rw [if_pos hdims] at hpre
    exact failedWith_of_preError hrace hpre
  · rw [if_neg hdims, if_pos hblock] at hpre
    exact failedWith_of_preError hrace hpre
  · rw [if_neg hdims, if_neg hblock, if_pos hfar] at hpre
    exact failedWith_of_preError hrace hpre
  · rw [if_neg hdims, if_neg hblock, if_neg hfar, if_pos hshare] at hpre
    exact failedWith_of_preError hrace hpre

/-! ## Backed addresses -/

theorem backed_eq_false_iff (s : State) (a : Nat) :
    s.backed a = false ↔ ∃ u ∈ s.platform.unbacked, u.holds a = true := by
  simp [State.backed]

/-- R371: no access meets a bus error exactly when every byte accessed is backed. -/
theorem faults_eq_false_iff (s : State) (xs : List Span) :
    s.platform.faults xs = false ↔ ∀ x ∈ xs, s.backedSpan x := by
  have hfaults : s.platform.faults xs = true ↔ ∃ x ∈ xs, ¬s.backedSpan x := by
    simp only [Platform.faults, List.any_eq_true, meets_iff, State.backedSpan, Classical.not_forall, Bool.not_eq_true,
      backed_eq_false_iff]
    refine exists_congr fun x => and_congr_right fun _ => ?_
    constructor
    · rintro ⟨u, hu, a, hxa, hua⟩
      exact ⟨a, hxa, u, hu, hua⟩
    · rintro ⟨a, hxa, u, hu, hua⟩
      exact ⟨u, hu, a, hxa, hua⟩
  rw [← Bool.not_eq_true, hfaults]
  push Not
  exact Iff.rfl

/-- R371: a byte that is accessed and not backed is a bus error. -/
theorem faults_of_unbacked {s : State} {xs : List Span} {x : Span} {a : Nat} (hx : x ∈ xs) (hxa : x.holds a = true)
    (ha : s.backed a = false) : s.platform.faults xs = true := by
  by_contra hnone
  have hbacked := (faults_eq_false_iff s xs).1 (by simpa using hnone) x hx a hxa
  rw [ha] at hbacked
  cases hbacked

/-- A platform that leaves no address unbacked backs every range. -/
theorem backedSpan_of_unbacked_nil {s : State} (h : s.platform.unbacked = []) (x : Span) : s.backedSpan x :=
  fun a _ => by simp [State.backed, h]

end Sys2Proof.Machine
end

section
/-! What every command does, however it ends (20_memory R73, R86, 60_exceptions R370, R371), and the host's accesses and
resets while one runs. -/

namespace Sys2Proof.Machine

open Sys2Proof

/-! ## The three ends of a command that has passed its checks -/

/-- R371: a bus error leaves the whole destination range free. -/
theorem finish_of_faults {s : State} {j : Job} (h : s.platform.faults j.touched = true) :
    s.finish j = (s.anyBytes j.dst.addrs).raiseError .busError := by
  rw [State.finish, if_pos h]

/-- R86: a race on the source leaves the destination range and the result registers free. -/
theorem finish_of_raced {s : State} {j : Job} (h : s.platform.faults j.touched = false) (hrace : s.race.src = true) :
    s.finish j = ({ s.anyBytes j.dst.addrs with free := (s.anyBytes j.dst.addrs).free + j.results.length } : State).complete
      (anyResults j.results (s.anyBytes j.dst.addrs).free) := by
  rw [State.finish, if_neg (by simp [h]), if_pos hrace]

/-- R45: otherwise the job's bytes are stored, and the raced ones are free. -/
theorem finish_of_unraced {s : State} {j : Job} (h : s.platform.faults j.touched = false) (hrace : s.race.src = false) :
    s.finish j = ((s.store j.cells).anyBytes s.race.dst).complete j.results := by
  rw [State.finish, if_neg (by simp [h]), if_neg (by simp [hrace])]

/-- Settles O6: how every command ends, with irq read off IRQ_EN and DONE. -/
theorem everyCommandEndsIdleAndDone : Obligations.EveryCommandEndsIdleAndDone := by
  intro i s
  obtain ⟨t, ht, -⟩ := exec_cases i s
  obtain ⟨hside, hidle, hdone, hlatch, hrace⟩ := exec_frame ht
  have hirq : t.irqEn = s.irqEn := by
    obtain ⟨-, -, hirq, -⟩ := hside
    exact hirq
  exact ⟨t, ht, hside, hidle, hdone, by simp [State.irq, hirq, hdone], hlatch, hrace⟩

/-! ## What a command writes -/

theorem holds_of_mem_jobDst {i : Instr} {s : State} {a : Nat} (h : a ∈ (jobOf i s).dst.addrs) :
    (dstSpan i s.latch.ops).holds a = true := by
  rwa [mem_addrs, jobOf_dst] at h

theorem mem_jobDst_of_holds {i : Instr} {s : State} {a : Nat} (h : (dstSpan i s.latch.ops).holds a = true) :
    a ∈ (jobOf i s).dst.addrs := by
  rwa [mem_addrs, jobOf_dst]

/-- R73: the end of a command writes its destination range only. -/
theorem unchangedOutside_finish {i : Instr} {s : State}
    (hraced : ∀ a ∈ s.race.dst, (dstSpan i s.latch.ops).holds a = true) :
    unchangedOutside (dstSpan i s.latch.ops) s (s.finish (jobOf i s)) := by
  have hfree : unchangedOutside (dstSpan i s.latch.ops) s (s.anyBytes (jobOf i s).dst.addrs) :=
    unchangedOutside_anyBytes fun a ha => holds_of_mem_jobDst ha
  obtain ⟨-, h⟩ | ⟨-, -, n, h⟩ | ⟨-, -, h⟩ := finish_cases s (jobOf i s)
  · rw [h]; exact hfree
  · rw [h]; exact hfree
  · rw [h]; exact (unchangedOutside_store (jobOf_cells i s)).trans (unchangedOutside_anyBytes hraced)

/-- Settles O24: a failed check writes the raced bytes, DDS_PARSE_HDR nothing, and a finished job its destination. -/
theorem commandsWriteOnlyTheirDestination : Obligations.CommandsWriteOnlyTheirDestination := by
  intro i s t hraced h
  obtain ⟨u, hu, hcases⟩ := exec_cases i s
  cases hu.symm.trans h
  obtain ⟨e, -, rfl⟩ | ⟨-, -, rfl⟩ | ⟨-, -, rfl⟩ := hcases
  · exact unchangedOutside_anyBytes hraced
  · exact fun a _ => readByte_congr (finishParse_mem s _) a
  · exact unchangedOutside_finish hraced

/-! ## Bus errors -/

/-- Settles O27: the unbacked byte lies in a span that the command touches. -/
theorem busErrorEndsTheCommand : Obligations.BusErrorEndsTheCommand := by
  intro i s a hpre hunbacked hmust
  obtain ⟨hi, x, hx, hxa⟩ := touched_of_mustAccess hmust
  have hend : exec i s = .next ((s.anyBytes (jobOf i s).dst.addrs).raiseError .busError) := by
    rw [exec_of_preError_none hpre, if_neg hi, finish_of_faults (faults_of_unbacked hx hxa hunbacked)]
  obtain ⟨hside, hidle, hdone, -⟩ := exec_frame hend
  exact ⟨_, hend, hside, hidle, hdone, rfl, rfl, rfl,
    unchangedOutside_anyBytes fun a ha => holds_of_mem_jobDst ha,
    fun b hb => readByte_anyBytes_of_mem s (mem_jobDst_of_holds hb)⟩

/-! ## Races -/

/-- DDS_PARSE_HDR has no destination range (R73). -/
theorem not_holds_dst_ddsParseHdr (o : Operands) (a : Nat) : (dstSpan .ddsParseHdr o).holds a = false := by
  simp [dstSpan, Span.holds]

/-- R86: the end of a command leaves free its raced destination bytes, and after a race on the source all of them. -/
theorem isFreeByte_finish {i : Instr} {s : State} {a : Nat} (ha : (dstSpan i s.latch.ops).holds a = true)
    (hraced : a ∈ s.race.dst ∨ s.race.src = true) :
    isFreeByte s (s.finish (jobOf i s)) ((s.finish (jobOf i s)).readByte a) := by
  have hall := readByte_anyBytes_of_mem s (mem_jobDst_of_holds ha)
  cases hfault : s.platform.faults (jobOf i s).touched
  · cases hsrc : s.race.src
    · rw [finish_of_unraced hfault hsrc]
      exact readByte_anyBytes_of_mem (s.store (jobOf i s).cells) (hraced.resolve_right (by simp [hsrc]))
    · rw [finish_of_raced hfault hsrc]
      exact hall.mono (Nat.le_add_right _ _)
  · rw [finish_of_faults hfault]
    exact hall

/-- R86: the bytes that a race leaves free, however the command ends. -/
theorem isFreeByte_of_raced {i : Instr} {s t : State} (h : exec i s = .next t) {a : Nat}
    (ha : (dstSpan i s.latch.ops).holds a = true)
    (hraced : a ∈ s.race.dst ∨ s.race.src = true ∧ preError i s.latch.ops = none) : isFreeByte s t (t.readByte a) := by
  obtain ⟨u, hu, hcases⟩ := exec_cases i s
  cases hu.symm.trans h
  obtain ⟨e, hpre, rfl⟩ | ⟨-, rfl, rfl⟩ | ⟨-, -, rfl⟩ := hcases
  · have hmem : a ∈ s.race.dst := hraced.resolve_right fun hsrc => by simp [hpre] at hsrc
    exact readByte_anyBytes_of_mem s hmem
  · rw [not_holds_dst_ddsParseHdr] at ha
    cases ha
  · exact isFreeByte_finish ha (hraced.imp_right And.left)

/-- R86: with free words written to the registers of `ws`, those are free and the others keep their values. -/
theorem isFreeWord_setAll_anyResults {s t u : State} {ws : ResultWrites} (hfree : s.free ≤ u.free)
    (hspent : t.free = u.free + ws.length) (hres : t.res = s.res.setAll (anyResults ws u.free)) (r : ResReg) :
    (r ∈ ws.map Prod.fst → isFreeWord s t (t.res.get r)) ∧ (r ∉ ws.map Prod.fst → t.res.get r = s.res.get r) := by
  rw [hres]
  refine ⟨fun hmem => ?_, fun hnot => results_get_setAll_of_not_mem _ r s.res (by simpa using hnot)⟩
  obtain ⟨m, hlo, hhi, hword⟩ := results_get_setAll_anyResults ws s.res u.free hmem
  exact ⟨m, hfree.trans hlo, by rwa [hspent], hword⟩

/-- R86, R370: the result registers after a race on the source of a command that passed its checks. -/
theorem results_of_raced {i : Instr} {s t : State} (h : exec i s = .next t) (hsrc : s.race.src = true)
    (hpre : preError i s.latch.ops = none) (hclear : s.status.err = false) :
    (t.status.err = true → t.res = s.res) ∧
    (t.status.err = false → ∀ r : ResReg,
      (r ∈ resultRegs i → isFreeWord s t (t.res.get r)) ∧ (r ∉ resultRegs i → t.res.get r = s.res.get r)) := by
  rw [exec_of_preError_none hpre] at h
  split at h
  · next hi =>
    subst hi
    cases h
    cases hparse : s.parseHeader with
    | error e =>
      have hend : s.finishParse (.error e) = ({ s with free := s.free + 128 } : State).raiseError e := by
        simp [State.finishParse, State.spendHeader, hsrc]
      rw [hend]
      exact ⟨fun _ => rfl, fun hnone => by simp at hnone⟩
    | ok ws =>
      obtain ⟨w, hgt, rfl⟩ := parseHeader_ok hparse
      have hend : s.finishParse (.ok (parsedResults s.latch.ops w hgt)) =
          ({ s with free := s.free + 128 + (parsedResults s.latch.ops w hgt).length } : State).complete
            (anyResults (parsedResults s.latch.ops w hgt) (s.free + 128)) := by
        simp [State.finishParse, State.spendHeader, hsrc]
      rw [hend]
      refine ⟨fun herr => by simp [hclear] at herr, fun _ r => ?_⟩
      rw [← parsedResults_fst s.latch.ops w hgt]
      exact isFreeWord_setAll_anyResults (u := { s with free := s.free + 128 }) (Nat.le_add_right _ _) rfl rfl r
  · next hi =>
    cases h
    cases hfault : s.platform.faults (jobOf i s).touched
    · rw [finish_of_raced hfault hsrc, ← jobOf_results i s hi]
      exact ⟨fun herr => by simp [hclear] at herr, fun _ r =>
        isFreeWord_setAll_anyResults (u := s.anyBytes (jobOf i s).dst.addrs) (Nat.le_add_right _ _) rfl rfl r⟩
    · rw [finish_of_faults hfault]
      exact ⟨fun _ => rfl, fun hnone => by simp at hnone⟩

/-- Settles O28: the free bytes and the free result registers of R86. -/
theorem racedBytesAreFreeValues : Obligations.RacedBytesAreFreeValues :=
  fun _ _ _ h => ⟨fun _ ha hraced => isFreeByte_of_raced h ha hraced, results_of_raced h⟩

/-! ## What a command reads of the state -/

/-- R44: the job is made from the latches. -/
theorem jobOf_setOps (i : Instr) (s : State) (o : Operands) : jobOf i { s with ops := o } = jobOf i s := by
  cases i <;> rfl

theorem finish_setOps (s : State) (o : Operands) (j : Job) :
    ({ s with ops := o } : State).finish j = { s.finish j with ops := o } := by
  simp only [State.finish]
  split
  · rfl
  · split <;> rfl

theorem finishParse_setOps (s : State) (o : Operands) (r : Except ErrCode ResultWrites) :
    ({ s with ops := o } : State).finishParse r = { s.finishParse r with ops := o } := by
  cases r <;> simp only [State.finishParse, State.spendHeader] <;> split <;> rfl

/-- Settles O23: the checks, the job and the header are those of the latches, and the end keeps the operand registers. -/
theorem commandsReadOnlyTheirLatches : Obligations.CommandsReadOnlyTheirLatches := by
  intro i s t o h
  cases hpre : preError i s.latch.ops with
  | some e =>
    rw [exec_of_preError hpre] at h
    cases h
    exact exec_of_preError (s := { s with ops := o }) hpre
  | none =>
    rw [exec_of_preError_none hpre] at h
    rw [exec_of_preError_none (s := { s with ops := o }) hpre]
    cases h
    split
    · exact congrArg _ (finishParse_setOps s o s.parseHeader)
    · rw [jobOf_setOps, finish_setOps]

/-! ## NOP -/

/-- R340: NOP has no result and no byte, so a race on a source it does not have leaves nothing free. -/
theorem exec_nop {s : State} (hrace : s.race.dst = []) : exec .nop s = .next (s.complete []) := by
  have hfault : s.platform.faults (jobOf .nop s).touched = false := rfl
  rw [exec_of_preError_none (i := .nop) rfl, if_neg (by decide)]
  cases hsrc : s.race.src
  · rw [finish_of_unraced hfault hsrc, hrace]
    rfl
  · rw [finish_of_raced hfault hsrc]
    rfl

theorem succeeded_complete (s : State) (ws : ResultWrites) : succeeded s (s.complete ws) := by
  simp [succeeded, sameHostSide]

/-- Settles O30. -/
theorem nopOnlyCompletes : Obligations.NopOnlyCompletes := fun s hrace =>
  ⟨_, exec_nop hrace, succeeded_complete s [], rfl, fun _ => rfl⟩

/-! ## Reset -/

/-- R343: the bytes of a reset engine are those that the free destination range leaves. -/
theorem readByte_resetEngine (s : State) (a : Nat) :
    s.resetEngine.readByte a = (s.anyBytes s.runningDst).readByte a := rfl

/-- Settles O13: the destination range of an idle engine is empty. -/
theorem resetTouchesOnlyTheRunningDestination : Obligations.ResetTouchesOnlyTheRunningDestination := by
  intro s o ho
  have hreset : o = .next s.resetEngine := by
    obtain rfl | ⟨w, hset, rfl⟩ := ho
    · rfl
    · exact wrReg_ctrl_softReset s hset
  refine ⟨_, hreset, rfl, rfl, rfl, fun hidle => ?_, fun a hout => ?_, fun a hin => ?_⟩
  · have hnone : s.runningDst = [] := by rw [State.runningDst, if_neg (by simp [hidle])]
    rw [resetEngine_mem, hnone]
    rfl
  · rw [readByte_resetEngine]
    exact readByte_anyBytes_of_not_mem s _ a (by rw [mem_runningDst, hout]; decide)
  · rw [readByte_resetEngine]
    exact readByte_anyBytes_of_mem s ((mem_runningDst s a).2 hin)

/-! ## The host's accesses to memory -/

/-- A host access to a backed byte of a platform without devices is not stopped (log 17). -/
theorem hostMemStop_of_backed {s : State} {a : Word} (hbacked : s.backed a.toNat = true)
    (hdevices : s.platform.devices = []) : s.hostMemStop a = none := by
  have hdevice : s.platform.onDevice [⟨a.toNat, 1⟩] = false := by simp [Platform.onDevice, hdevices]
  have hfault : s.platform.faults [⟨a.toNat, 1⟩] = false := by
    refine (faults_eq_false_iff s _).2 fun x hx b hb => ?_
    obtain rfl := List.mem_singleton.1 hx
    have hba : b = a.toNat := by rw [holds_iff] at hb; omega
    rw [hba, hbacked]
  rw [State.hostMemStop, hdevice, hfault]
  rfl

/-- The byte that a host write leaves, and the others. -/
theorem readByte_store_one (s : State) (a b : Nat) (v : Byte) :
    (s.store [(a, v)]).readByte b = if b = a then v else s.readByte b := by
  rw [readByte_store]
  by_cases h : b = a
  · simp [lastCell, h]
  · simp [lastCell, h, Ne.symm h]

/-- Settles O29, by where the byte lies in the running ranges. -/
theorem hostMemoryAccesses : Obligations.HostMemoryAccesses := by
  intro s a hbacked hdevices
  have hstop := hostMemStop_of_backed hbacked hdevices
  refine ⟨fun hdst => ?_, fun hdst => ?_, fun hdst v => ?_, fun hdst hsrc v => ?_, fun hdst hsrc v => ?_⟩
  · have hread : hostStep (.memRead a) s =
        .next { s with rdata := (Config.freeByte s.free).setWidth 32, free := s.free + 1 } := by
      simp only [hostStep, State.hostMemRead, hstop, hdst, if_true]
    exact ⟨_, Config.freeByte s.free, hread, BitVec.toNat_setWidth_of_le (by omega),
      ⟨s.free, le_refl _, Nat.lt_succ_self _, rfl⟩, rfl⟩
  · have hread : hostStep (.memRead a) s = .next { s with rdata := (s.readByte a.toNat).setWidth 32 } := by
      simp only [hostStep, State.hostMemRead, hstop, hdst, Bool.false_eq_true, if_false]
    exact ⟨_, hread, BitVec.toNat_setWidth_of_le (by omega), rfl⟩
  · have hwrite : hostStep (.memWrite a v) s =
        .next { s with race := { s.race with dst := insertAddr a.toNat s.race.dst } } := by
      simp only [hostStep, State.hostMemWrite, hstop, hdst, if_true]
    exact ⟨_, hwrite, rfl, rfl, fun b => mem_insertAddr _ _ _⟩
  · have hwrite : hostStep (.memWrite a v) s =
        .next { s.store [(a.toNat, v)] with race := { s.race with src := true } } := by
      simp only [hostStep, State.hostMemWrite, hstop, hdst, hsrc, Bool.false_eq_true, if_false, if_true]
    exact ⟨_, hwrite, rfl, rfl, (readByte_store_one s _ _ v).trans (if_pos rfl),
      fun b hb => (readByte_store_one s _ b v).trans (if_neg hb)⟩
  · have hwrite : hostStep (.memWrite a v) s = .next (s.store [(a.toNat, v)]) := by
      simp only [hostStep, State.hostMemWrite, hstop, hdst, hsrc, Bool.false_eq_true, if_false]
    exact ⟨_, hwrite, rfl, (readByte_store_one s _ _ v).trans (if_pos rfl),
      fun b hb => (readByte_store_one s _ b v).trans (if_neg hb)⟩

end Sys2Proof.Machine
end

section
/-! The blends of the palette and the bound of a block's error (40_palette_math R140, R141, R146), and the scores of the
search (42_block_encoder R206, R224, R225). -/

namespace Sys2Proof.Machine

open Sys2Proof

/-! ## Palette entries -/

/-- R131: expanded fields are bytes. -/
theorem E5_le (x : BitVec 5) : E5 x.toNat ≤ 255 := by
  have := toNat_le_31 x
  rw [E5_eq this]
  omega

theorem E6_le (x : BitVec 6) : E6 x.toNat ≤ 255 := by
  have := toNat_le_63 x
  rw [E6_eq this]
  omega

/-- The channels of a colour are bytes. -/
def IsByteColour (c : RGB) : Prop := c.r ≤ 255 ∧ c.g ≤ 255 ∧ c.b ≤ 255

theorem isByteColour_iff (c : RGB) : IsByteColour c ↔ ∀ ch, chan c ch ≤ 255 := by
  refine ⟨fun ⟨hr, hg, hb⟩ ch => ?_, fun h => ⟨h .r, h .g, h .b⟩⟩
  cases ch
  · exact hr
  · exact hg
  · exact hb

theorem isByte_expand565to888 (c : C565) : IsByteColour (expand565to888 c) := ⟨E5_le _, E6_le _, E5_le _⟩

/-- R140: a channel of a blend. -/
@[simp] theorem chan_blend (a b : RGB) (ch : Chan) :
    chan (blend a b) ch = (2 * chan a ch + chan b ch + 1) / 3 := by
  cases ch <;> rfl

theorem IsByteColour.blend {a b : RGB} (ha : IsByteColour a) (hb : IsByteColour b) : IsByteColour (Machine.blend a b) := by
  refine (isByteColour_iff _).2 fun ch => ?_
  have hac := (isByteColour_iff a).1 ha ch
  have hbc := (isByteColour_iff b).1 hb ch
  rw [chan_blend]
  omega

/-- R141: every palette entry is a colour of bytes. -/
theorem isByte_entry (c0 c1 : C565) (i : Idx) : IsByteColour ((palette c0 c1).entry i) := by
  have h0 := isByte_expand565to888 c0
  have h1 := isByte_expand565to888 c1
  obtain rfl | rfl | rfl | rfl := idx_cases i
  · exact h0
  · exact h1
  · exact h0.blend h1
  · exact h1.blend h0

/-! ## The error of a block -/

theorem absDiff_sq_le {a b : Nat} (ha : a ≤ 255) (hb : b ≤ 255) : absDiff a b ^ 2 ≤ 65025 := by
  have h : absDiff a b ≤ 255 := by unfold absDiff; omega
  exact Nat.pow_le_pow_left h 2

/-- R143: the distance of two colours of bytes. -/
theorem d2_le {s t : RGB} (hs : IsByteColour s) (ht : IsByteColour t) : d2 s t ≤ 195075 := by
  obtain ⟨hsr, hsg, hsb⟩ := hs
  obtain ⟨htr, htg, htb⟩ := ht
  have hr := absDiff_sq_le hsr htr
  have hg := absDiff_sq_le hsg htg
  have hb := absDiff_sq_le hsb htb
  rw [d2]
  omega

/-- R146: 16 pixels at the greatest distance. -/
theorem SSE_le {p : List RGB} (hlen : p.length = 16) (hp : ∀ x ∈ p, IsByteColour x) (c : Candidate) :
    SSE p c ≤ 3121200 := by
  have hpixel (n : Nat) (hn : n ∈ (p.zip c.idx).map fun x => d2 x.1 (c.palette.entry x.2)) : n ≤ 195075 := by
    obtain ⟨x, hx, rfl⟩ := List.mem_map.1 hn
    exact d2_le (hp _ (List.of_mem_zip hx).1) (isByte_entry _ _ _)
  have hsum := List.sum_le_card_nsmul _ _ hpixel
  rw [List.length_map, List.length_zip, smul_eq_mul] at hsum
  calc SSE p c
    _ ≤ min p.length c.idx.length * 195075 := hsum
    _ ≤ 16 * 195075 := Nat.mul_le_mul_right _ (hlen ▸ Nat.min_le_left _ _)

/-- Settles O48: the blends of R140 as quotients, and the bounds. -/
theorem paletteBlendsAndBlockErrorBound : Obligations.PaletteBlendsAndBlockErrorBound := by
  constructor
  · intro c0 c1 ch e
    have h2 : e 2#2 = (2 * e 0#2 + e 1#2 + 1) / 3 := chan_blend _ _ ch
    have h3 : e 3#2 = (2 * e 1#2 + e 0#2 + 1) / 3 := chan_blend _ _ ch
    exact ⟨rfl, rfl, by omega, by omega, by omega, by omega⟩
  · exact fun p c hlen hp => ⟨isByte_entry c.c0 c.c1, SSE_le hlen hp c⟩

/-! ## The scores of the search -/

section

variable (P : Params) (cfg : EncCfg) (p : List RGB)

/-- R206, R224: a candidate is replaced only by one of a lower score. -/
theorem score_better_le (new best : Candidate) :
    score cfg.useMSE p (better cfg p new best) ≤ score cfg.useMSE p best := by
  rw [better]
  split
  · next h => exact Nat.le_of_lt h
  · exact le_rfl

/-- R206: the rounds never raise the score of the best candidate. -/
theorem score_refineLoop_le (n : Nat) (cur best : Candidate) :
    score cfg.useMSE p (refineLoop P cfg p n cur best) ≤ score cfg.useMSE p best := by
  induction n generalizing cur best with
  | zero => exact le_rfl
  | succ n ih =>
    have hbetter := score_better_le cfg p (lloydRound P cfg p cur) best
    rw [refineLoop]
    split
    · exact hbetter
    · exact (ih _ _).trans hbetter

theorem score_refine_le (c : Candidate) : score cfg.useMSE p (refine P cfg p c) ≤ score cfg.useMSE p c :=
  score_refineLoop_le P cfg p _ c c

/-- R224: nor do the draws. -/
theorem score_randomLoop_le (n : Nat) (x : Word) (best : Candidate) :
    score cfg.useMSE p (randomLoop P cfg p n x best) ≤ score cfg.useMSE p best := by
  induction n generalizing x best with
  | zero => exact le_rfl
  | succ n ih => exact (ih _ _).trans (score_better_le cfg p _ best)

/-- R225: Random starts from the Basic candidate. -/
theorem score_random_le (k : Nat) :
    score cfg.useMSE p (random P cfg p k) ≤ score cfg.useMSE p (basic P cfg p) := by
  have hdraws := score_randomLoop_le P cfg p cfg.iterations (blockSeed P cfg.rngSeed k) (basic P cfg p)
  rw [random]
  split
  · exact (score_refine_le P cfg p _).trans hdraws
  · exact hdraws

end

/-- Settles O53. -/
theorem searchNeverWorsensTheScore : Obligations.SearchNeverWorsensTheScore :=
  fun P cfg p c k => ⟨score_refine_le P cfg p c, score_random_le P cfg p k⟩

/-! ## The generator -/

/-- Only the word 0 is a left shift of itself: by induction on the place of a bit. -/
theorem eq_zero_of_eq_shiftLeft {x : Word} {n : Nat} (hn : 0 < n) (h : x = x <<< n) : x = 0#32 := by
  have hbit (i : Nat) : x.getLsbD i = false := by
    induction i using Nat.strongRecOn with
    | ind i ih =>
      rw [h, BitVec.getLsbD_shiftLeft]
      by_cases hi : i < n
      · simp [hi]
      · rw [ih (i - n) (by omega), Bool.and_false]
  exact BitVec.eq_of_getLsbD_eq fun i _ => by rw [hbit, BitVec.getLsbD_zero]

/-- Only the word 0 is a right shift of itself. -/
theorem eq_zero_of_eq_ushiftRight {x : Word} {n : Nat} (hn : 0 < n) (h : x = x >>> n) : x = 0#32 := by
  have hdiv : x.toNat = x.toNat / 2 ^ n := by
    conv_lhs => rw [h, BitVec.toNat_ushiftRight, Nat.shiftRight_eq_div_pow]
  refine BitVec.eq_of_toNat_eq (Nat.eq_zero_of_not_pos fun hpos => ?_)
  have := Nat.div_lt_self hpos (Nat.one_lt_two_pow (by omega : n ≠ 0))
  omega

/-- R221: each of the three exclusive-ors of the step is 0 only for 0. -/
theorem xorshift32_ne_zero {x : Word} (hx : x ≠ 0#32) : xorshift32 x ≠ 0#32 := by
  have hleft {y : Word} {n : Nat} (hn : 0 < n) (hy : y ≠ 0#32) : y ^^^ (y <<< n) ≠ 0#32 :=
    fun h => hy (eq_zero_of_eq_shiftLeft hn (BitVec.xor_eq_zero_iff.1 h))
  have hright {y : Word} {n : Nat} (hn : 0 < n) (hy : y ≠ 0#32) : y ^^^ (y >>> n) ≠ 0#32 :=
    fun h => hy (eq_zero_of_eq_ushiftRight hn (BitVec.xor_eq_zero_iff.1 h))
  exact hleft (by decide) (hright (by decide) (hleft (by decide) hx))

/-- R222: a seed of 0 is replaced by 1. -/
theorem blockSeed_ne_zero (P : Params) (seed : Word) (k : Nat) : blockSeed P seed k ≠ 0#32 := by
  rw [blockSeed]
  split
  · decide
  · assumption

/-- Settles O58. -/
theorem generatorNeverReachesZero : Obligations.GeneratorNeverReachesZero :=
  ⟨fun _ => xorshift32_ne_zero, blockSeed_ne_zero⟩

end Sys2Proof.Machine
end

section
/-! The covariance matrix and the normalised vectors of PCA (42_block_encoder R194, R195, R197). -/

namespace Sys2Proof.Machine

open Sys2Proof

/-! ## Sums over a block -/

/-- R194's form for any two numbers of a pixel: 16 times the sum of the products, less the product of the sums. -/
def cross (p : List RGB) (f g : RGB → Int) : Int :=
  16 * (p.map fun x => f x * g x).sum - (p.map f).sum * (p.map g).sum

/-- A channel as an integer. -/
def chanInt (ch : Chan) (x : RGB) : Int := chan x ch

/-- R194: the covariance matrix in integers. -/
theorem cov_eq_cross (p : List RGB) (i j : Chan) : cov p i j = cross p (chanInt i) (chanInt j) := by
  have hcast (f : RGB → Nat) : ((p.map f).sum : Int) = (p.map fun x => (f x : Int)).sum := by
    rw [Nat.cast_list_sum, List.map_map]
    rfl
  simp only [cov, cross, hcast, Nat.cast_mul]
  rfl

theorem cross_comm (p : List RGB) (f g : RGB → Int) : cross p f g = cross p g f := by
  simp only [cross, mul_comm]

theorem cross_add_left (p : List RGB) (f g h : RGB → Int) :
    cross p (fun x => f x + g x) h = cross p f h + cross p g h := by
  simp only [cross, add_mul, List.sum_map_add]
  ring

theorem cross_mul_left (p : List RGB) (c : Int) (f g : RGB → Int) :
    cross p (fun x => c * f x) g = c * cross p f g := by
  simp only [cross, mul_assoc, List.sum_map_mul_left]
  ring

/-- The square of a sum, in R194's form. -/
theorem cross_add_self (p : List RGB) (f g : RGB → Int) :
    cross p (fun x => f x + g x) (fun x => f x + g x) = cross p f f + 2 * cross p f g + cross p g g := by
  rw [cross_add_left, cross_comm p f, cross_comm p g, cross_add_left, cross_add_left, cross_comm p g f]
  ring

/-! ## Deviations from the mean -/

/-- The squares of the deviations of 16 f from a number c, summed. -/
theorem sum_sq_deviation (p : List RGB) (f : RGB → Int) (c : Int) :
    (p.map fun x => (16 * f x - c) ^ 2).sum =
      256 * (p.map fun x => f x * f x).sum - 32 * c * (p.map f).sum + p.length * c ^ 2 := by
  induction p with
  | nil => simp
  | cons x p ih =>
    simp only [List.map_cons, List.sum_cons, ih, List.length_cons]
    push_cast
    ring

section

variable {p : List RGB} (hlen : p.length = 16)

include hlen

/-- With c the sum over the 16 pixels, the deviations are those from the mean. -/
theorem sum_sq_deviation_mean (f : RGB → Int) :
    (p.map fun x => (16 * f x - (p.map f).sum) ^ 2).sum = 16 * cross p f f := by
  rw [sum_sq_deviation, hlen, cross]
  push_cast
  ring

theorem cross_self_nonneg (f : RGB → Int) : 0 ≤ cross p f f := by
  have hsum : 0 ≤ (p.map fun x => (16 * f x - (p.map f).sum) ^ 2).sum := by
    refine List.sum_nonneg fun n hn => ?_
    obtain ⟨x, -, rfl⟩ := List.mem_map.1 hn
    exact sq_nonneg _
  rw [sum_sq_deviation_mean hlen] at hsum
  omega

/-- A number of no variance is the same for all pixels. -/
theorem eq_of_cross_self_eq_zero {f : RGB → Int} (h : cross p f f = 0) {x y : RGB} (hx : x ∈ p) (hy : y ∈ p) :
    f x = f y := by
  have hmean {z : RGB} (hz : z ∈ p) : 16 * f z = (p.map f).sum := by
    have hle : (16 * f z - (p.map f).sum) ^ 2 ≤ (p.map fun x => (16 * f x - (p.map f).sum) ^ 2).sum := by
      refine List.single_le_sum (fun n hn => ?_) _ (List.mem_map_of_mem (f := fun x => (16 * f x - (p.map f).sum) ^ 2) hz)
      obtain ⟨w, -, rfl⟩ := List.mem_map.1 hn
      exact sq_nonneg _
    rw [sum_sq_deviation_mean hlen, h, mul_zero] at hle
    have hzero : 16 * f z - (p.map f).sum = 0 := pow_eq_zero_iff two_ne_zero |>.1 (le_antisymm hle (sq_nonneg _))
    omega
  have := hmean hx
  have := hmean hy
  omega

end

/-! ## The bounds of the covariance matrix -/

section

variable {p : List RGB} (hlen : p.length = 16) (hp : ∀ x ∈ p, IsByteColour x)

include hp

/-- The squares of bytes are at most 255 times the bytes. -/
theorem sum_sq_chanInt_le (ch : Chan) :
    (p.map fun x => chanInt ch x * chanInt ch x).sum ≤ 255 * (p.map (chanInt ch)).sum := by
  rw [← List.sum_map_mul_left]
  refine List.sum_le_sum fun x hx => ?_
  have hbyte : chanInt ch x ≤ 255 := Int.ofNat_le.2 ((isByteColour_iff x).1 (hp x hx) ch)
  exact mul_le_mul_of_nonneg_right hbyte (Int.natCast_nonneg _)

/-- R194: 16 * 255 * S - S² is greatest at S = 2040. -/
theorem cov_self_le (ch : Chan) : cov p ch ch ≤ 4161600 := by
  have hsum := sum_sq_chanInt_le hp ch
  rw [cov_eq_cross, cross]
  nlinarith [sq_nonneg ((p.map (chanInt ch)).sum - 2040)]

include hlen

/-- R194: by the variances of the sum and of the difference of two channels. -/
theorem natAbs_cov_le (i j : Chan) : (cov p i j).natAbs ≤ 4161600 := by
  have hi := cov_self_le hp i
  have hj := cov_self_le hp j
  have hsum := cross_self_nonneg hlen fun x => chanInt i x + chanInt j x
  have hdiff := cross_self_nonneg hlen fun x => -1 * chanInt i x + chanInt j x
  rw [cross_add_self] at hsum hdiff
  rw [cross_mul_left, cross_mul_left, cross_comm p _ fun x => -1 * chanInt i x, cross_mul_left] at hdiff
  simp only [← cov_eq_cross] at hsum hdiff
  omega

end

/-! ## Flat blocks -/

theorem cov_self_nonneg {p : List RGB} (hlen : p.length = 16) (ch : Chan) : 0 ≤ cov p ch ch := by
  rw [cov_eq_cross]
  exact cross_self_nonneg hlen _

/-- R195: with threshold 0 a flat block has no variance on any channel. -/
theorem cov_self_eq_zero_of_isFlat {p : List RGB} (hlen : p.length = 16) (h : isFlat {} p = true) (ch : Chan) :
    cov p ch ch = 0 := by
  have hsum : cov p .r .r + cov p .g .g + cov p .b .b ≤ 0 := of_decide_eq_true h
  have hr := cov_self_nonneg hlen .r
  have hg := cov_self_nonneg hlen .g
  have hb := cov_self_nonneg hlen .b
  cases ch <;> omega

/-- R195: the flat blocks are those of one colour. -/
theorem isFlat_iff {p : List RGB} (hlen : p.length = 16) :
    isFlat {} p = true ↔ ∀ x ∈ p, ∀ y ∈ p, x = y := by
  constructor
  · intro hflat x hx y hy
    have hchan (ch : Chan) : chan x ch = chan y ch := by
      have hzero := cov_self_eq_zero_of_isFlat hlen hflat ch
      rw [cov_eq_cross] at hzero
      exact Int.ofNat_inj.1 (eq_of_cross_self_eq_zero hlen hzero hx hy)
    cases x
    cases y
    exact RGB.mk.injEq .. ▸ ⟨hchan .r, hchan .g, hchan .b⟩
  · intro hone
    obtain ⟨C, hC⟩ : ∃ C, C ∈ p := List.exists_mem_of_length_pos (by omega)
    have huniform : p = uniformBlock C := List.eq_replicate_iff.2 ⟨hlen, fun x hx => hone x hx C hC⟩
    rw [huniform]
    exact isFlat_uniformBlock

/-- Settles O56. -/
theorem covarianceBoundsAndFlatness : Obligations.CovarianceBoundsAndFlatness := fun p hlen hp =>
  ⟨fun i j => ⟨by rw [cov_eq_cross, cov_eq_cross, cross_comm], natAbs_cov_le hlen hp i j⟩, cov_self_nonneg hlen,
    isFlat_iff hlen⟩

/-! ## Normalised vectors -/

/-- A component is at most the largest one. -/
theorem natAbs_comp_le (x : Vec3) (ch : Chan) : (comp x ch).natAbs ≤ maxAbs x := by
  cases ch <;> simp only [comp, maxAbs] <;> omega

/-- R11: a number of `bitlen` bits. -/
theorem lt_two_pow_bitlen (m : Nat) : m < 2 ^ bitlen m := Nat.lt_log2_self

theorem bitlen_le {m n : Nat} (hm : m ≠ 0) (h : m < 2 ^ n) : bitlen m ≤ n := (Nat.log2_lt hm).2 h

/-- R197: a vector other than zero, component by component. -/
theorem comp_normVec {x : Vec3} (h : maxAbs x ≠ 0) (ch : Chan) :
    comp (normVec x) ch = comp x ch / (2 ^ (bitlen (maxAbs x) - 15) : Int) := by
  rw [normVec, if_neg h]
  cases ch <;> rfl

theorem normVec_of_zero {x : Vec3} (h : maxAbs x = 0) : normVec x = ⟨0, 0, 0⟩ := if_pos h

/-- Two vectors with the same components. -/
theorem vec3_ext {x y : Vec3} (h : ∀ ch, comp x ch = comp y ch) : x = y := by
  cases x
  cases y
  exact Vec3.mk.injEq .. ▸ ⟨h .r, h .g, h .b⟩

/-- R197: a vector of at most 15 bits is shifted by 0. -/
theorem normVec_of_lt {x : Vec3} (h : maxAbs x < 2 ^ 15) : normVec x = x := by
  by_cases hzero : maxAbs x = 0
  · rw [normVec_of_zero hzero]
    refine vec3_ext fun ch => ?_
    have := natAbs_comp_le x ch
    cases ch <;> simp only [comp] at this ⊢ <;> omega
  · refine vec3_ext fun ch => ?_
    rw [comp_normVec hzero, Nat.sub_eq_zero_of_le (bitlen_le hzero h), pow_zero, Int.ediv_one]

/-- R197: the shift leaves 15 bits and the sign. -/
theorem comp_normVec_bounds (x : Vec3) (ch : Chan) :
    -32768 ≤ comp (normVec x) ch ∧ comp (normVec x) ch ≤ 32767 := by
  by_cases hzero : maxAbs x = 0
  · rw [normVec_of_zero hzero]
    cases ch <;> decide
  · rw [comp_normVec hzero]
    have hmax : maxAbs x < 2 ^ 15 * 2 ^ (bitlen (maxAbs x) - 15) := by
      rw [← pow_add]
      exact (lt_two_pow_bitlen _).trans_le (Nat.pow_le_pow_right two_pos (by omega))
    have hcomp := natAbs_comp_le x ch
    have hpos : (0 : Int) < 2 ^ (bitlen (maxAbs x) - 15) := by positivity
    have hbound : ((comp x ch).natAbs : Int) < 2 ^ 15 * 2 ^ (bitlen (maxAbs x) - 15) := by
      exact_mod_cast hcomp.trans_lt hmax
    constructor
    · exact (Int.le_ediv_iff_mul_le hpos).2 (by omega)
    · exact Int.lt_add_one_iff.1 ((Int.ediv_lt_iff_lt_mul hpos).2 (by omega))

/-- Settles O57. -/
theorem normalisedVectorsFitSixteenBits : Obligations.NormalisedVectorsFitSixteenBits :=
  fun x => ⟨normVec_of_zero, normVec_of_lt, comp_normVec_bounds x⟩

end Sys2Proof.Machine
end

section
/-! The block commands (41_block_decoder R170-R173, 42_block_encoder R242): how a command ends that meets neither a bus
error nor a race, and the bytes that pixels and compressed blocks leave in memory. -/

namespace Sys2Proof.Machine

open Sys2Proof

/-! ## The undisturbed end of a command -/

/-- A job done without a bus error and without a race: its bytes stored, its results written (R45). -/
def State.quietEnd (s : State) (j : Job) : State := (s.store j.cells).complete j.results

/-- R371, R86: nothing disturbs a command whose bytes are backed and which the host does not race. -/
theorem exec_quiet {i : Instr} {s : State} (hi : i ≠ .ddsParseHdr) (hpre : preError i s.latch.ops = none)
    (hbacked : ∀ x ∈ (jobOf i s).touched, s.backedSpan x) (hrace : s.race = {}) :
    exec i s = .next (s.quietEnd (jobOf i s)) := by
  rw [exec_of_preError_none hpre, if_neg hi, finish_of_unraced ((faults_eq_false_iff s _).2 hbacked) (by rw [hrace]),
    hrace, anyBytes_nil]
  rfl

section

variable (s : State) (j : Job)

theorem succeeded_quietEnd : succeeded s (s.quietEnd j) := by
  simp [succeeded, sameHostSide, State.quietEnd]

@[simp] theorem res_quietEnd : (s.quietEnd j).res = s.res.setAll j.results := rfl

theorem res_quietEnd_of_nil {j : Job} (h : j.results = []) : (s.quietEnd j).res = s.res := by
  rw [res_quietEnd, h]
  rfl

@[simp] theorem readByte_quietEnd (a : Nat) : (s.quietEnd j).readByte a = (s.store j.cells).readByte a := rfl

@[simp] theorem memRead_quietEnd (a n : Nat) : (s.quietEnd j).memRead a n = (s.store j.cells).memRead a n :=
  memRead_congr fun _ _ _ => rfl

/-- R73: the bytes of the job are in its destination range. -/
theorem unchangedOutside_quietEnd (i : Instr) :
    unchangedOutside (dstSpan i s.latch.ops) s (s.quietEnd (jobOf i s)) :=
  unchangedOutside_store (jobOf_cells i s)

end

/-! ## Pixels -/

/-- Byte c of a pixel, in the order R, G, B, A (R68). -/
def pixelByte (q : RGBA) : Nat → Nat
  | 0 => q.r
  | 1 => q.g
  | 2 => q.b
  | _ => q.a

/-- The writes leave the pixel q at a (R68). -/
def LeavesPixel (cs : List Host.Cell) (a : Nat) (q : RGBA) : Prop :=
  ∀ c < 4, LeavesField cs (a + c) 1 (pixelByte q c)

theorem avoids_cellsLE {a b m n v : Nat} (h : b + m ≤ a ∨ a + n ≤ b) : Avoids (cellsLE b m v) a n := fun c hc => by
  have := holds_of_cellsLE hc
  omega

theorem avoids_pixelCells {a b n : Nat} {q : RGBA} (h : b + 4 ≤ a ∨ a + n ≤ b) : Avoids (pixelCells b q) a n :=
  fun c hc => by
    have := holds_of_pixelCells hc
    omega

theorem Avoids.mono {cs : List Host.Cell} {a b m n : Nat} (h : Avoids cs a n) (hlo : a ≤ b) (hhi : b + m ≤ a + n) :
    Avoids cs b m := fun c hc => by
  have := h c hc
  omega

/-- R68: the four bytes of a pixel do not hide one another. -/
theorem leavesPixel_pixelCells (a : Nat) (q : RGBA) : LeavesPixel (pixelCells a q) a q := by
  intro c hc
  have hfield := leavesField_cellsLE (a + c) 1 (pixelByte q c)
  have havoid (d v : Nat) (hne : d ≠ c) : Avoids (cellsLE (a + d) 1 v) (a + c) 1 := avoids_cellsLE (by omega)
  rw [pixelCells]
  obtain rfl | rfl | rfl | rfl : c = 0 ∨ c = 1 ∨ c = 2 ∨ c = 3 := by omega
  · exact ((hfield.append_left (havoid 1 _ (by decide))).append_left (havoid 2 _ (by decide))).append_left
      (havoid 3 _ (by decide))
  · exact ((hfield.append_right _).append_left (havoid 2 _ (by decide))).append_left (havoid 3 _ (by decide))
  · exact (hfield.append_right _).append_left (havoid 3 _ (by decide))
  · exact hfield.append_right _

/-- One of several groups of writes leaves the pixel, when no other group names its bytes. -/
theorem LeavesPixel.flatMap {α : Type} {f : α → List Host.Cell} {l : List α} {x : α} {a : Nat} {q : RGBA} (hx : x ∈ l)
    (h : LeavesPixel (f x) a q) (hother : ∀ y ∈ l, y ≠ x → Avoids (f y) a 4) : LeavesPixel (l.flatMap f) a q :=
  fun c hc => (h c hc).flatMap hx fun y hy hne => (hother y hy hne).mono (by omega) (by omega)

theorem LeavesPixel.readByte_store {cs : List Host.Cell} {a : Nat} {q : RGBA} (h : LeavesPixel cs a q) (s : State)
    {c : Nat} (hc : c < 4) : (s.store cs).readByte (a + c) = BitVec.ofNat 8 (pixelByte q c) :=
  (h c hc).readByte_store_one s

/-- R69: a Block16 leaves each of its pixels at its place. -/
theorem leavesPixel_blockCells (a : Nat) (q : Block16) {k : Nat} (hk : k < 16) :
    LeavesPixel (blockCells a q) (a + 4 * k) (q.getD k default) :=
  (leavesPixel_pixelCells _ _).flatMap (f := fun k => pixelCells (a + 4 * k) (q.getD k default))
    (List.mem_range.2 hk) fun y _ hne => avoids_pixelCells (by omega)

/-- R68: a pixel that is read holds the bytes at its place. -/
theorem pixelByte_readPixel (s : State) (a : Nat) {c : Nat} (hc : c < 4) :
    BitVec.ofNat 8 (pixelByte (s.readPixel a) c) = s.readByte (a + c) := by
  obtain rfl | rfl | rfl | rfl : c = 0 ∨ c = 1 ∨ c = 2 ∨ c = 3 := by omega
  all_goals simp [State.readPixel, pixelByte]

/-- R69: pixel k of a block that is read. -/
theorem getD_readBlock (s : State) (a : Nat) {k : Nat} (hk : k < 16) :
    (s.readBlock a).getD k default = s.readPixel (a + 4 * k) := by
  rw [List.getD_eq_getElem _ _ (by simpa [State.readBlock] using hk)]
  simp [State.readBlock]

/-! ## Decoded blocks -/

/-- The palette entry that pixel k of the CompressedBlock at b selects (R70, R170). -/
def State.decodedColour (s : State) (b k : Nat) : RGB :=
  (palette (BitVec.ofNat 16 (s.memRead b 2)) (BitVec.ofNat 16 (s.memRead (b + 2) 2))).entry
    (BitVec.ofNat 2 (s.memRead (b + 4) 4 / 4 ^ k))

/-- The pixel of the colour e with alpha 255 (R173). -/
def solidPixel (e : RGB) : RGBA := ⟨e.r, e.g, e.b, 255⟩

/-- Digit k in base 4 of an index word that was read (R153). -/
theorem index_ofNat {n : Nat} (hn : n < 2 ^ 32) (k : Nat) :
    (BitVec.ofNat 32 n).extractLsb' (2 * k) 2 = BitVec.ofNat 2 (n / 4 ^ k) := by
  refine BitVec.eq_of_toNat_eq ?_
  rw [toNat_index, BitVec.toNat_ofNat, Nat.mod_eq_of_lt hn, BitVec.toNat_ofNat]

theorem getD_readDecoded (s : State) (b : Nat) {k : Nat} (hk : k < 16) :
    (s.readDecoded b).getD k default = solidPixel (s.decodedColour b k) := by
  have hindex := index_ofNat (memRead_lt s (b + 4) 4) k
  rw [State.readDecoded, decodeBlock, List.getD_eq_getElem _ _ (by simpa using hk), List.getElem_map,
    getElem_unpackIndices, hindex]
  rfl

/-- R173: what a pixel of byte channels with alpha 255 leaves in memory. -/
theorem LeavesPixel.readByte_solid {cs : List Host.Cell} {a : Nat} {e : RGB} (h : LeavesPixel cs a (solidPixel e))
    (he : IsByteColour e) (s : State) :
    ((s.store cs).readByte a).toNat = e.r ∧ ((s.store cs).readByte (a + 1)).toNat = e.g ∧
      ((s.store cs).readByte (a + 2)).toNat = e.b ∧ (s.store cs).readByte (a + 3) = 255#8 := by
  obtain ⟨hr, hg, hb⟩ := he
  have hbyte (c : Nat) (hc : c < 4) := h.readByte_store s hc
  have htoNat {v : Nat} (hv : v ≤ 255) : (BitVec.ofNat 8 v).toNat = v := by
    rw [BitVec.toNat_ofNat, Nat.mod_eq_of_lt (by omega)]
  refine ⟨?_, ?_, ?_, hbyte 3 (by decide)⟩
  · rw [← Nat.add_zero a, hbyte 0 (by decide)]
    exact htoNat hr
  · rw [hbyte 1 (by decide)]
    exact htoNat hg
  · rw [hbyte 2 (by decide)]
    exact htoNat hb

/-- No dimension of a single-block command can be bad. -/
theorem not_badDims {i : Instr} {o : Operands} (h : ¬takesDims i) : ¬badDims i o := by
  rintro (⟨hi, -⟩ | ⟨rfl, -⟩)
  · exact h hi
  · exact h (.inr (.inr (.inr rfl)))

/-- Settles O31: each pixel of the decoded block at its place. -/
theorem decBlockWritesPaletteEntries : Obligations.DecBlockWritesPaletteEntries := by
  intro s o hranges hsrc hdst hrace
  have hpre : preError .decBlock o = none :=
    preError_eq_none (by decide) (not_badDims (by simp [takesDims, isTile])) (by simp [badBlock, isTile]) hranges
  have hend : exec .decBlock s = .next (s.quietEnd (jobOf .decBlock s)) :=
    exec_quiet (by decide) hpre (List.forall_mem_cons.2 ⟨hsrc, List.forall_mem_singleton.2 hdst⟩) hrace
  refine ⟨_, hend, succeeded_quietEnd s _, res_quietEnd_of_nil s rfl, unchangedOutside_quietEnd s .decBlock,
    fun k hk => ?_⟩
  have hpixel := leavesPixel_blockCells o.dst (s.readDecoded o.src) hk
  rw [getD_readDecoded s o.src hk] at hpixel
  intro P c
  have hcells : (jobOf .decBlock s).cells = blockCells o.dst (s.readDecoded o.src) := rfl
  have hc : c = s.decodedColour o.src k := rfl
  simp only [readByte_quietEnd, hcells]
  rw [hc]
  exact hpixel.readByte_solid (isByte_entry _ _ _) s

/-! ## Encoded blocks -/

/-- R70: the three fields of a CompressedBlock. -/
structure LeavesBlock (cs : List Host.Cell) (a : Nat) (e : Encoded) : Prop where
  c0 : LeavesField cs a 2 e.c0.toNat
  c1 : LeavesField cs (a + 2) 2 e.c1.toNat
  indices : LeavesField cs (a + 4) 4 e.indices.toNat

theorem leavesBlock_compressedCells (a : Nat) (e : Encoded) : LeavesBlock (compressedCells a e) a e where
  c0 := ((leavesField_cellsLE _ _ _).append_left (avoids_cellsLE (by omega))).append_left (avoids_cellsLE (by omega))
  c1 := ((leavesField_cellsLE _ _ _).append_right _).append_left (avoids_cellsLE (by omega))
  indices := (leavesField_cellsLE _ _ _).append_right _

/-- R70: the fields read back. -/
theorem LeavesBlock.memRead_store {cs : List Host.Cell} {a : Nat} {e : Encoded} (h : LeavesBlock cs a e) (s : State) :
    (s.store cs).memRead a 2 = e.c0.toNat ∧ (s.store cs).memRead (a + 2) 2 = e.c1.toNat ∧
      (s.store cs).memRead (a + 4) 4 = e.indices.toNat :=
  ⟨h.c0.memRead_store_of_lt s e.c0.isLt, h.c1.memRead_store_of_lt s e.c1.isLt,
    h.indices.memRead_store_of_lt s e.indices.isLt⟩

/-- R146: the error of a block read from memory fits RES_SSE. -/
theorem err_encodeBlock_lt {p : Block16} (hlen : p.length = 16) (hp : ∀ x ∈ p, IsByteColour (rgb x)) (P : Params)
    (cfg : EncCfg) (k : Nat) : (encodeBlock P cfg p k).err < 2 ^ 32 := by
  have hcolors : (colors p).length = 16 := by rw [colors, List.length_map, hlen]
  have hbytes (x : RGB) (hx : x ∈ colors p) : IsByteColour x := by
    obtain ⟨y, hy, rfl⟩ := List.mem_map.1 hx
    exact hp y hy
  have hle := SSE_le hcolors hbytes (strategy P cfg (colors p) k)
  rw [err_encodeBlock]
  omega

/-- R35: RES_COLORS holds color0 in its low half. -/
theorem toNat_append_endpoints (c0 c1 : C565) : (c1 ++ c0).toNat = c0.toNat + 65536 * c1.toNat := by
  rw [BitVec.toNat_append, ← Nat.shiftLeft_add_eq_or_of_lt c0.isLt, Nat.shiftLeft_eq]
  omega

/-- A pixel that is read has byte channels. -/
theorem isByteColour_readPixel (s : State) (a : Nat) : IsByteColour (rgb (s.readPixel a)) := by
  have hbyte (b : Nat) : s.memRead b 1 ≤ 255 := Nat.le_of_lt_succ (memRead_lt s b 1)
  exact ⟨hbyte _, hbyte _, hbyte _⟩

/-- Settles O32: the fields of the emitted block, whose error is small enough for its register. -/
theorem encBlockWritesTheEncodedBlock : Obligations.EncBlockWritesTheEncodedBlock := by
  intro m mse dither refine s o hranges hsrc hdst hrace p e
  have hp : s.readBlock o.src = p := by simp only [State.readBlock, State.readPixel, memRead_one]; rfl
  have hpre : preError (.encBlock m mse dither refine) o = none :=
    preError_eq_none (by simp) (not_badDims (by simp [takesDims, isTile])) (by simp [badBlock, isTile]) hranges
  have hend : exec (.encBlock m mse dither refine) s = .next (s.quietEnd (jobOf (.encBlock m mse dither refine) s)) :=
    exec_quiet (by simp) hpre (List.forall_mem_cons.2 ⟨hsrc, List.forall_mem_singleton.2 hdst⟩) hrace
  have hjob : jobOf (.encBlock m mse dither refine) s =
      { dst := ⟨o.dst, 8⟩, touched := [⟨o.src, 64⟩, ⟨o.dst, 8⟩], cells := compressedCells o.dst e,
        results := [(.sse, BitVec.ofNat 32 e.err), (.colors, e.c1 ++ e.c0), (.indices, e.indices)] } := by
    simp only [e, ← hp]
    rfl
  have hframe := unchangedOutside_quietEnd s (.encBlock m mse dither refine)
  have herr : e.err < 2 ^ 32 := by
    refine err_encodeBlock_lt (by simp [p]) (fun x hx => ?_) _ _ _
    rw [← hp] at hx
    obtain ⟨k, -, rfl⟩ := List.mem_map.1 hx
    exact isByteColour_readPixel s _
  rw [hjob] at hend hframe
  obtain ⟨h0, h1, hi⟩ := (leavesBlock_compressedCells o.dst e).memRead_store s
  refine ⟨_, hend, succeeded_quietEnd s _, hframe, ?_, ?_, ?_, ?_, toNat_append_endpoints e.c0 e.c1, rfl, ?_⟩
  · rw [memRead_quietEnd]; exact h0
  · rw [memRead_quietEnd]; exact h1
  · rw [memRead_quietEnd]; exact hi
  · exact Nat.mod_eq_of_lt herr
  · intro r hsse hcolors hindices
    exact results_get_setAll_of_not_mem _ r s.res (by simp [hsse, hcolors, hindices])

end Sys2Proof.Machine
end

section
/-! The image tiler (43_image_tiler R260-R265, R282): where the pixels of a block stand in an image, and the two commands
that cut and place one block. -/

namespace Sys2Proof.Machine

open Sys2Proof

/-! ## The pixels of a block in an image -/

theorem mem_insidePixels {W H bx row k : Nat} :
    k ∈ insidePixels W H bx row ↔ k < 16 ∧ pixX bx k < W ∧ pixY row k < H := by
  simp [insidePixels]

/-- R68: different pixels of an image share no byte. -/
theorem pixelAddr_apart {A W x y x' y' : Nat} (hx : x < W) (hx' : x' < W) (hne : x ≠ x' ∨ y ≠ y') :
    pixelAddr A W x y + 4 ≤ pixelAddr A W x' y' ∨ pixelAddr A W x' y' + 4 ≤ pixelAddr A W x y := by
  have hrow {y y' : Nat} (h : y < y') : y * W + W ≤ y' * W := by
    rw [← Nat.succ_mul]
    exact Nat.mul_le_mul_right W h
  simp only [pixelAddr]
  obtain hlt | rfl | hgt := Nat.lt_trichotomy y y'
  · have := hrow hlt
    omega
  · omega
  · have := hrow hgt
    omega

/-- R260: different pixels of a block stand in different columns or rows. -/
theorem pix_ne {bx row k j : Nat} (hne : k ≠ j) : pixX bx k ≠ pixX bx j ∨ pixY row k ≠ pixY row j := by
  unfold pixX pixY
  omega

/-- R263: each pixel inside the image is placed at its address. -/
theorem leavesPixel_placeCells {A W H bx row : Nat} {q : Block16} {k : Nat} (hk : k ∈ insidePixels W H bx row) :
    LeavesPixel (placeCells A W H bx row q) (pixelAddr A W (pixX bx k) (pixY row k)) (q.getD k default) := by
  obtain ⟨-, hx, -⟩ := mem_insidePixels.1 hk
  refine (leavesPixel_pixelCells _ _).flatMap hk fun j hj hne => avoids_pixelCells ?_
  obtain ⟨-, hxj, -⟩ := mem_insidePixels.1 hj
  exact pixelAddr_apart hxj hx (pix_ne hne)

/-- R263: nothing else is written. -/
theorem exists_of_mem_placeCells {A W H bx row : Nat} {q : Block16} {c : Host.Cell}
    (hc : c ∈ placeCells A W H bx row q) : ∃ k ∈ insidePixels W H bx row,
      pixelAddr A W (pixX bx k) (pixY row k) ≤ c.1 ∧ c.1 < pixelAddr A W (pixX bx k) (pixY row k) + 4 := by
  obtain ⟨k, hk, hc⟩ := List.mem_flatMap.1 hc
  exact ⟨k, hk, holds_of_pixelCells hc⟩

/-- R261, R262: pixel k of an extracted block. -/
theorem getD_extract (s : State) (A W H bx row : Nat) {k : Nat} (hk : k < 16) :
    (s.extract A W H bx row).getD k default =
      if pixX bx k < W ∧ pixY row k < H then s.readPixel (pixelAddr A W (pixX bx k) (pixY row k))
      else ⟨0, 0, 0, 0⟩ := by
  rw [List.getD_eq_getElem _ _ (by simpa [State.extract] using hk)]
  simp [State.extract]

/-! ## TILE_GET and TILE_PUT -/

/-- R362, R365: a tile command with a nonempty image and a block of its grid passes its checks. -/
theorem preError_tile {i : Instr} {o : Operands} (hi : isTile i) (hW : 0 < o.W) (hH : 0 < o.H)
    (hbx : o.blockX.toNat < (o.W + 3) / 4) (hrow : o.blockY.toNat < (o.H + 3) / 4)
    (hranges : rangesOk (srcSpan i o) (dstSpan i o)) : preError i o = none := by
  have hother : i ≠ .ddsParseHdr ∧ i ≠ .ddsWriteHdr := by
    obtain rfl | rfl := hi <;> simp
  refine preError_eq_none hother.1 ?_ ?_ hranges
  · rintro (⟨-, hzero⟩ | ⟨hdds, -⟩)
    · omega
    · exact hother.2 hdds
  · rintro ⟨-, hout⟩
    omega

/-- The image bytes of a block are backed when those of each of its pixels are. -/
theorem backedSpan_insideSpans {s : State} {A W H bx row : Nat}
    (h : ∀ k ∈ insidePixels W H bx row, s.backedSpan ⟨pixelAddr A W (pixX bx k) (pixY row k), 4⟩) :
    ∀ x ∈ insideSpans A W H bx row, s.backedSpan x := by
  intro x hx
  obtain ⟨k, hk, rfl⟩ := List.mem_map.1 hx
  exact h k hk

/-- Settles O33: the extracted block, pixel by pixel. -/
theorem tileGetCopiesThePaddedBlock : Obligations.TileGetCopiesThePaddedBlock := by
  intro s o bx row hW hH hbx hrow hranges hdst hpixels hrace
  have hpre : preError .tileGet o = none := preError_tile (.inl rfl) hW hH hbx hrow hranges
  have hbacked : ∀ x ∈ (jobOf .tileGet s).touched, s.backedSpan x := by
    refine List.forall_mem_append.2 ⟨backedSpan_insideSpans fun k hk => ?_, List.forall_mem_singleton.2 hdst⟩
    obtain ⟨hk, hx, hy⟩ := mem_insidePixels.1 hk
    exact hpixels k hk hx hy
  have hend : exec .tileGet s = .next (s.quietEnd (jobOf .tileGet s)) := exec_quiet (by decide) hpre hbacked hrace
  refine ⟨_, hend, succeeded_quietEnd s _, res_quietEnd_of_nil s rfl, unchangedOutside_quietEnd s .tileGet,
    fun k hk c hc => ?_⟩
  have hcells : (jobOf .tileGet s).cells = blockCells o.dst (s.extract o.src o.W o.H bx row) := rfl
  rw [readByte_quietEnd, hcells, (leavesPixel_blockCells o.dst _ hk).readByte_store s hc,
    getD_extract s o.src o.W o.H bx row hk]
  by_cases hin : pixX bx k < o.W ∧ pixY row k < o.H
  · rw [if_pos hin, pixelByte_readPixel s _ hc]
    exact (if_pos hin).symm
  · have hzero : pixelByte ⟨0, 0, 0, 0⟩ c = 0 := by
      obtain rfl | rfl | rfl | rfl : c = 0 ∨ c = 1 ∨ c = 2 ∨ c = 3 := by omega
      all_goals rfl
    rw [if_neg hin, hzero]
    exact (if_neg hin).symm

/-- Settles O34: the placed pixels, and the frame of the others. -/
theorem tilePutPlacesTheCroppedBlock : Obligations.TilePutPlacesTheCroppedBlock := by
  intro s o bx row at_ inside hW hH hbx hrow hranges hsrc hpixels hrace
  have hpre : preError .tilePut o = none := preError_tile (.inr rfl) hW hH hbx hrow hranges
  have hinside {k : Nat} (hk : k ∈ insidePixels o.W o.H bx row) : inside k := mem_insidePixels.1 hk
  have hbacked : ∀ x ∈ (jobOf .tilePut s).touched, s.backedSpan x :=
    List.forall_mem_cons.2 ⟨hsrc, backedSpan_insideSpans fun k hk => hpixels k (hinside hk)⟩
  have hend : exec .tilePut s = .next (s.quietEnd (jobOf .tilePut s)) := exec_quiet (by decide) hpre hbacked hrace
  have hcells : (jobOf .tilePut s).cells = placeCells o.dst o.W o.H bx row (s.readBlock o.src) := rfl
  refine ⟨_, hend, succeeded_quietEnd s _, res_quietEnd_of_nil s rfl, fun k hk c hc => ?_, fun a ha => ?_⟩
  · have hplaced := leavesPixel_placeCells (A := o.dst) (q := s.readBlock o.src) (mem_insidePixels.2 hk)
    rw [getD_readBlock s o.src hk.1] at hplaced
    rw [readByte_quietEnd, hcells, ← pixelByte_readPixel s (o.src + 4 * k) hc]
    exact hplaced.readByte_store s hc
  · rw [readByte_quietEnd, hcells]
    refine readByte_store_of_not_mem s _ a fun hmem => ?_
    obtain ⟨c, hc, rfl⟩ := List.mem_map.1 hmem
    obtain ⟨k, hk, hbytes⟩ := exists_of_mem_placeCells hc
    exact ha k (hinside hk) hbytes

/-- The state in which the host has sent TILE_PUT of the same block from the buffer to an image at B. -/
def State.withTilePut (t : State) (o : Operands) (B : Word) : State :=
  { t with latch := { cmd := encode .tilePut, ops := { o with srcAddr := o.dstAddr, dstAddr := B } } }

/-- Settles O37: what TILE_GET leaves in the buffer is what TILE_PUT places. -/
theorem tileRoundTripCopiesTheBlock : Obligations.TileRoundTripCopiesTheBlock := by
  intro s t u B o bx row pix inside hW hH hbx hrow hget hput hall hrace hexec hexec'
  obtain ⟨t', ht, hsucc, -, -, hbuffer⟩ := tileGetCopiesThePaddedBlock s hW hH hbx hrow hget
    (backedSpan_of_unbacked_nil hall _) (fun _ _ _ _ => backedSpan_of_unbacked_nil hall _) hrace
  cases ht.symm.trans hexec
  obtain ⟨⟨-, hplatform, -⟩, -, -, herr, -, -, htrace⟩ := hsucc
  have hall' : (t.withTilePut o B).platform.unbacked = [] := (congrArg Platform.unbacked hplatform).trans hall
  obtain ⟨u', hu, ⟨-, -, -, herr', -⟩, -, hplaced, hframe⟩ := tilePutPlacesTheCroppedBlock (t.withTilePut o B) hW hH hbx
    hrow hput (backedSpan_of_unbacked_nil hall' _) (fun _ _ => backedSpan_of_unbacked_nil hall' _) htrace
  cases hu.symm.trans hexec'
  refine ⟨herr'.trans herr, fun k hk c hc => ?_, hframe⟩
  calc u.readByte (B.toNat + pix k + c)
    _ = t.readByte (o.dst + 4 * k + c) := hplaced k hk c hc
    _ = s.readByte (o.src + pix k + c) := (hbuffer k hk.1 c hc).trans (if_pos hk.2)

end Sys2Proof.Machine
end

section
/-! The whole-image commands (43_image_tiler R270, R271): every block of the payload, and every pixel of the image, has
its own bytes. -/

namespace Sys2Proof.Machine

open Sys2Proof

/-! ## The grid -/

theorem blocksOf_lt {n : Nat} (h : n < 2 ^ 32) : blocksOf n < 2 ^ 32 := by
  unfold blocksOf
  omega

/-- R260: a pixel of the image lies in a block of the grid. -/
theorem div_four_lt_blocksOf {n x : Nat} (h : x < n) : x / 4 < blocksOf n := by
  unfold blocksOf
  omega

/-- R260: the linear index of a block gives back its row and its column. -/
theorem blockRow_index {o : Operands} {col : Nat} (row : Nat) (hcol : col < o.BW) :
    blockRow o (row * o.BW + col) = row := by
  rw [blockRow, Nat.mul_comm, Nat.mul_add_div (by omega), Nat.div_eq_of_lt hcol, Nat.add_zero]

theorem blockCol_index {o : Operands} {col : Nat} (row : Nat) (hcol : col < o.BW) :
    blockCol o (row * o.BW + col) = col := by
  rw [blockCol, Nat.mul_comm, Nat.mul_add_mod, Nat.mod_eq_of_lt hcol]

/-- R260: a row and a column of the grid have a linear index. -/
theorem index_mem_blockIndices {o : Operands} {col row : Nat} (hcol : col < o.BW) (hrow : row < o.BH) :
    row * o.BW + col ∈ blockIndices o := by
  have hle : (row + 1) * o.BW ≤ o.BH * o.BW := Nat.mul_le_mul_right _ hrow
  rw [Nat.succ_mul] at hle
  rw [blockIndices, List.mem_range, Nat.mul_comm o.BW]
  omega

/-- R260: no other block has the same row and column. -/
theorem eq_index {o : Operands} (k : Nat) : k = blockRow o k * o.BW + blockCol o k := (Nat.div_add_mod' k o.BW).symm

/-- R39-R41: the three registers that the grid goes to. -/
theorem results_setAll_gridResults (r : Results) (o : Operands) :
    (r.setAll (gridResults o)).bw = BitVec.ofNat 32 o.BW ∧ (r.setAll (gridResults o)).bh = BitVec.ofNat 32 o.BH ∧
      (r.setAll (gridResults o)).payloadSize = BitVec.ofNat 32 o.payloadSize := ⟨rfl, rfl, rfl⟩

/-- R39-R41: the registers hold the grid, when its payload size fits. -/
theorem toNat_gridResults (r : Results) {o : Operands} (hsize : o.payloadSize < 2 ^ 32) :
    (r.setAll (gridResults o)).bw.toNat = o.BW ∧ (r.setAll (gridResults o)).bh.toNat = o.BH ∧
      (r.setAll (gridResults o)).payloadSize.toNat = o.payloadSize := by
  obtain ⟨hbw, hbh, hpayload⟩ := results_setAll_gridResults r o
  rw [hbw, hbh, hpayload]
  exact ⟨Nat.mod_eq_of_lt (blocksOf_lt o.width.isLt), Nat.mod_eq_of_lt (blocksOf_lt o.height.isLt),
    Nat.mod_eq_of_lt hsize⟩

/-- A range apart from a nonempty one does not fill the address space. -/
theorem len_lt_of_rangesOk {x y : Span} (h : rangesOk x y) (hx : 0 < x.len) : y.len < 2 ^ 32 := by
  obtain ⟨hxend, hyend, hapart⟩ := h
  omega

theorem rangesOk.symm {x y : Span} (h : rangesOk x y) : rangesOk y x := by
  obtain ⟨hxend, hyend, hapart⟩ := h
  exact ⟨hyend, hxend, hapart.symm⟩

/-- R362: an image command with a nonempty image and legal ranges passes its checks. -/
theorem preError_image {i : Instr} {o : Operands} (hi : (∃ m e d r, i = .encImage m e d r) ∨ i = .decImage)
    (hW : 0 < o.W) (hH : 0 < o.H) (hranges : rangesOk (srcSpan i o) (dstSpan i o)) : preError i o = none := by
  have hother : i ≠ .ddsParseHdr ∧ i ≠ .ddsWriteHdr ∧ ¬isTile i := by
    obtain ⟨m, e, d, r, rfl⟩ | rfl := hi <;> simp [isTile]
  obtain ⟨hparse, hwrite, htile⟩ := hother
  refine preError_eq_none hparse ?_ (fun hblock => htile hblock.1) hranges
  rintro (⟨-, hzero⟩ | ⟨hdds, -⟩)
  · omega
  · exact hwrite hdds

/-! ## ENC_IMAGE -/

theorem avoids_compressedCells {a b n : Nat} {e : Encoded} (h : b + 8 ≤ a ∨ a + n ≤ b) :
    Avoids (compressedCells b e) a n := fun c hc => by
  have := holds_of_compressedCells hc
  omega

/-- One of several groups of writes leaves the block, when no other group names its bytes. -/
theorem LeavesBlock.flatMap {α : Type} {f : α → List Host.Cell} {l : List α} {x : α} {a : Nat} {e : Encoded}
    (hx : x ∈ l) (h : LeavesBlock (f x) a e) (hother : ∀ y ∈ l, y ≠ x → Avoids (f y) a 8) :
    LeavesBlock (l.flatMap f) a e where
  c0 := h.c0.flatMap hx fun y hy hne => (hother y hy hne).mono (by omega) (by omega)
  c1 := h.c1.flatMap hx fun y hy hne => (hother y hy hne).mono (by omega) (by omega)
  indices := h.indices.flatMap hx fun y hy hne => (hother y hy hne).mono (by omega) (by omega)

/-- R71: block k of a payload stands at its place. -/
theorem leavesBlock_payloadCells (A : Nat) {es : List Encoded} {k : Nat} {e : Encoded} (hk : es[k]? = some e) :
    LeavesBlock (payloadCells A es) (A + 8 * k) e := by
  refine (leavesBlock_compressedCells _ e).flatMap (x := (e, k)) (List.mem_zipIdx_iff_getElem?.2 hk)
    fun y hy hne => avoids_compressedCells ?_
  have hidx : y.2 ≠ k := by
    intro heq
    have hy' := List.mem_zipIdx_iff_getElem?.1 hy
    rw [heq, hk] at hy'
    exact hne (Prod.ext (Option.some.inj hy').symm heq)
  omega

/-- R270: the encoded blocks of the image at SRC, in row-major order. -/
def State.encodedBlocks (s : State) (cfg : EncCfg) : List Encoded :=
  (blockIndices s.latch.ops).map (s.encodeImageBlock cfg)

theorem getElem?_encodedBlocks (s : State) (cfg : EncCfg) {k : Nat} (hk : k < s.latch.ops.BW * s.latch.ops.BH) :
    (s.encodedBlocks cfg)[k]? = some (s.encodeImageBlock cfg k) := by
  simp [State.encodedBlocks, blockIndices, hk]

/-- R270: the sum of the errors of the blocks, saturated. -/
theorem totalErr_encodedBlocks (s : State) (cfg : EncCfg) : totalErr (s.encodedBlocks cfg) =
    min (((List.range (s.latch.ops.BW * s.latch.ops.BH)).map fun k => (s.encodeImageBlock cfg k).err).sum)
      0xFFFFFFFF := by
  rw [totalErr, State.encodedBlocks, List.map_map]
  rfl

/-- R34: the saturated sum fits RES_SSE. -/
theorem totalErr_lt (es : List Encoded) : totalErr es < 2 ^ 32 := by
  have hle : totalErr es ≤ 0xFFFFFFFF := Nat.min_le_right _ _
  omega

/-- Settles O35: the blocks at their places, and the saturated sum, which fits its register. -/
theorem encImageWritesEveryBlock : Obligations.EncImageWritesEveryBlock := by
  intro m mse dither refine s o BW BH hW hH hranges hsrc hdst hrace e
  have hpre : preError (.encImage m mse dither refine) o = none :=
    preError_image (.inl ⟨m, mse, dither, refine, rfl⟩) hW hH hranges
  have hend : exec (.encImage m mse dither refine) s = .next (s.quietEnd (jobOf (.encImage m mse dither refine) s)) :=
    exec_quiet (by simp) hpre (List.forall_mem_cons.2 ⟨hsrc, List.forall_mem_singleton.2 hdst⟩) hrace
  have hcells : (jobOf (.encImage m mse dither refine) s).cells =
      payloadCells o.dst (s.encodedBlocks (encCfg m mse dither refine o)) := rfl
  have hresults : (jobOf (.encImage m mse dither refine) s).results =
      (.sse, BitVec.ofNat 32 (totalErr (s.encodedBlocks (encCfg m mse dither refine o)))) :: gridResults o := rfl
  have hsize : o.payloadSize < 2 ^ 32 :=
    len_lt_of_rangesOk hranges (Nat.mul_pos (Nat.mul_pos hW hH) (by decide))
  obtain ⟨hbw, hbh, hpayload⟩ := toNat_gridResults
    (s.res.set (BitVec.ofNat 32 (totalErr (s.encodedBlocks (encCfg m mse dither refine o)))) .sse) hsize
  refine ⟨_, hend, succeeded_quietEnd s _, unchangedOutside_quietEnd s (.encImage m mse dither refine),
    fun k hk => ?_, ?_⟩
  · simp only [memRead_quietEnd, hcells]
    exact (leavesBlock_payloadCells o.dst (getElem?_encodedBlocks s _ hk)).memRead_store s
  · rw [res_quietEnd, hresults]
    refine ⟨?_, hbw, hbh, hpayload, fun r hsse hbw hbh hpayload => ?_⟩
    · exact (Nat.mod_eq_of_lt (totalErr_lt _)).trans (totalErr_encodedBlocks s _)
    · exact results_get_setAll_of_not_mem _ r s.res (by simp [gridResults, hsse, hbw, hbh, hpayload])

/-! ## DEC_IMAGE -/

/-- The pixels of a block that are not the pixel (x, y) of the image do not name its bytes. -/
theorem avoids_placeCells {A W H bx row x y : Nat} {q : Block16} (hx : x < W)
    (hne : ∀ k ∈ insidePixels W H bx row, pixX bx k ≠ x ∨ pixY row k ≠ y) :
    Avoids (placeCells A W H bx row q) (pixelAddr A W x y) 4 := by
  intro c hc
  obtain ⟨k, hk, hbytes⟩ := exists_of_mem_placeCells hc
  obtain ⟨-, hxk, -⟩ := mem_insidePixels.1 hk
  have := pixelAddr_apart (A := A) hxk hx (hne k hk)
  omega

/-- R271: each pixel of the image is written from its pixel of its block, and by no other block. -/
theorem leavesPixel_decodedBlocks (s : State) {x y : Nat} (hx : x < s.latch.ops.W) (hy : y < s.latch.ops.H) :
    LeavesPixel ((blockIndices s.latch.ops).flatMap s.decodedBlockCells)
      (pixelAddr s.latch.ops.dst s.latch.ops.W x y)
      (solidPixel (s.decodedColour (s.latch.ops.src + 8 * (y / 4 * s.latch.ops.BW + x / 4)) (4 * (y % 4) + x % 4))) := by
  have hcol : x / 4 < s.latch.ops.BW := div_four_lt_blocksOf hx
  have hrow : y / 4 < s.latch.ops.BH := div_four_lt_blocksOf hy
  have hk : 4 * (y % 4) + x % 4 < 16 := by omega
  have hpixX : pixX (x / 4) (4 * (y % 4) + x % 4) = x := by unfold pixX; omega
  have hpixY : pixY (y / 4) (4 * (y % 4) + x % 4) = y := by unfold pixY; omega
  refine LeavesPixel.flatMap (index_mem_blockIndices hcol hrow) ?_ fun k _ hne => ?_
  · have hinside : 4 * (y % 4) + x % 4 ∈ insidePixels s.latch.ops.W s.latch.ops.H (x / 4) (y / 4) :=
      mem_insidePixels.2 ⟨hk, by rwa [hpixX], by rwa [hpixY]⟩
    have hplaced := leavesPixel_placeCells (A := s.latch.ops.dst)
      (q := s.readDecoded (s.latch.ops.src + 8 * (y / 4 * s.latch.ops.BW + x / 4))) hinside
    rw [hpixX, hpixY, getD_readDecoded s _ hk] at hplaced
    rw [State.decodedBlockCells, blockCol_index _ hcol, blockRow_index _ hcol]
    exact hplaced
  · refine avoids_placeCells hx fun j hj => ?_
    obtain ⟨hj16, -⟩ := mem_insidePixels.1 hj
    by_contra hsame
    obtain ⟨hsameX, hsameY⟩ := not_or.1 hsame
    have hcolk : blockCol s.latch.ops k = x / 4 := by unfold pixX at hsameX; omega
    have hrowk : blockRow s.latch.ops k = y / 4 := by unfold pixY at hsameY; omega
    rw [eq_index (o := s.latch.ops) k, hcolk, hrowk] at hne
    exact hne rfl

/-- Settles O36: the pixels at their places, with alpha 255. -/
theorem decImageWritesEveryPixel : Obligations.DecImageWritesEveryPixel := by
  intro s o BW BH hW hH hranges hsrc hdst hrace
  have hpre : preError .decImage o = none := preError_image (.inr rfl) hW hH hranges
  have hend : exec .decImage s = .next (s.quietEnd (jobOf .decImage s)) :=
    exec_quiet (by decide) hpre (List.forall_mem_cons.2 ⟨hsrc, List.forall_mem_singleton.2 hdst⟩) hrace
  have hsize : o.payloadSize < 2 ^ 32 :=
    len_lt_of_rangesOk hranges.symm (Nat.mul_pos (Nat.mul_pos hW hH) (by decide))
  obtain ⟨hbw, hbh, hpayload⟩ := toNat_gridResults s.res hsize
  refine ⟨_, hend, succeeded_quietEnd s _, unchangedOutside_quietEnd s .decImage, fun x hx y hy => ?_, hbw, hbh,
    hpayload, ?_⟩
  · intro b P c a
    have hcells : (jobOf .decImage s).cells = (blockIndices o).flatMap s.decodedBlockCells := rfl
    have hc : c = s.decodedColour b (4 * (y % 4) + x % 4) := rfl
    simp only [readByte_quietEnd, hcells]
    rw [hc]
    exact (leavesPixel_decodedBlocks s hx hy).readByte_solid (isByte_entry _ _ _) s
  · intro r hbw hbh hpayload
    exact results_get_setAll_of_not_mem (gridResults o) r s.res (by simp [gridResults, hbw, hbh, hpayload])

end Sys2Proof.Machine
end

section
/-! The DDS header (44_dds_container R300-R313): the words that DDS_WRITE_HDR writes, and the checks of DDS_PARSE_HDR, one
word at a time. -/

namespace Sys2Proof.Machine

open Sys2Proof

/-! ## DDS_WRITE_HDR -/

/-- Word i of the header (R300), by its place. -/
def headerField (o : Operands) (i : Nat) : Nat :=
  if i = 0 then 0x20534444 else if i = 1 then 124 else if i = 2 then 0x00081007 else if i = 3 then o.H
  else if i = 4 then o.W else if i = 5 then o.payloadSize else if i = 19 then 32 else if i = 20 then 4
  else if i = 21 then 0x31545844 else if i = 27 then 0x1000 else 0

theorem headerWords_getElem? (o : Operands) {i : Nat} (hi : i < 32) : (headerWords o)[i]? = some (headerField o i) := by
  interval_cases i <;> rfl

/-- A choice between two numbers below a bound. -/
theorem ite_lt_of_lt {p : Prop} [Decidable p] {a b n : Nat} (ha : a < n) (hb : b < n) : (if p then a else b) < n := by
  split
  · exact ha
  · exact hb

/-- R303: a word takes 32 bits when the payload size does. -/
theorem headerField_lt {o : Operands} (hsize : o.payloadSize < 2 ^ 32) (i : Nat) : headerField o i < 2 ^ 32 := by
  have hconstants : ((if i = 19 then 32 else if i = 20 then 4 else if i = 21 then 0x31545844
      else if i = 27 then 0x1000 else 0 : Nat)) < 2 ^ 32 :=
    ite_lt_of_lt (by decide) (ite_lt_of_lt (by decide) (ite_lt_of_lt (by decide) (ite_lt_of_lt (by decide) (by decide))))
  exact ite_lt_of_lt (by decide) (ite_lt_of_lt (by decide) (ite_lt_of_lt (by decide)
    (ite_lt_of_lt o.height.isLt (ite_lt_of_lt o.width.isLt (ite_lt_of_lt hsize hconstants)))))

/-- R303: word i of the header stands at its place. -/
theorem leavesField_headerCells (A : Nat) (o : Operands) {i : Nat} (hi : i < 32) :
    LeavesField (headerCells A o) (A + 4 * i) 4 (headerField o i) := by
  have hword := headerWords_getElem? o hi
  have hmem : (headerField o i, i) ∈ (headerWords o).zipIdx := List.mem_zipIdx_iff_getElem?.2 hword
  refine LeavesField.flatMap hmem (leavesField_cellsLE (A + 4 * i) 4 (headerField o i)) fun y hy hne =>
    avoids_cellsLE ?_
  have hidx : y.2 ≠ i := by
    intro heq
    have hy' := List.mem_zipIdx_iff_getElem?.1 hy
    rw [heq, hword] at hy'
    exact hne (Prod.ext (Option.some.inj hy').symm heq)
  omega

/-- R362, R366: DDS_WRITE_HDR has no source range, so its ranges cannot overlap. -/
theorem preError_ddsWriteHdr {o : Operands} (hW : 0 < o.W) (hH : 0 < o.H) (hsize : o.payloadSize ≤ 0xFFFFFFFF)
    (hend : o.dst + 128 ≤ 2 ^ 32) : preError .ddsWriteHdr o = none := by
  refine preError_eq_none (by decide) ?_ (by simp [badBlock, isTile]) ⟨by simp [srcSpan], hend, .inl (Nat.zero_le _)⟩
  rintro (⟨-, hzero⟩ | ⟨-, hbig⟩)
  · omega
  · exact absurd hsize (Nat.not_le.2 hbig)

/-- Settles O39: the words at their places, and the grid. -/
theorem ddsWriteHdrWritesTheHeader : Obligations.DdsWriteHdrWritesTheHeader := by
  intro s o BW BH hW hH hsize hdst hbacked hrace
  have hpre : preError .ddsWriteHdr o = none := preError_ddsWriteHdr hW hH hsize hdst
  have hend : exec .ddsWriteHdr s = .next (s.quietEnd (jobOf .ddsWriteHdr s)) :=
    exec_quiet (by decide) hpre (List.forall_mem_singleton.2 hbacked) hrace
  have hlt : o.payloadSize < 2 ^ 32 := Nat.lt_succ_of_le hsize
  have hcells : (jobOf .ddsWriteHdr s).cells = headerCells o.dst o := rfl
  obtain ⟨hbw, hbh, hpayload⟩ := toNat_gridResults s.res hlt
  have hres : (s.quietEnd (jobOf .ddsWriteHdr s)).res = s.res.setAll (gridResults o) := res_quietEnd s _
  refine ⟨_, hend, succeeded_quietEnd s _, unchangedOutside_quietEnd s .ddsWriteHdr, fun i hi => ?_, ?_⟩
  · rw [memRead_quietEnd, hcells]
    change _ = headerField o i
    exact (leavesField_headerCells o.dst o hi).memRead_store_of_lt s (headerField_lt hlt i)
  · rw [hres]
    refine ⟨hbw, hbh, hpayload, fun r hbw hbh hpayload => ?_⟩
    exact results_get_setAll_of_not_mem (gridResults o) r s.res (by simp [gridResults, hbw, hbh, hpayload])

/-! ## The checks of DDS_PARSE_HDR -/

/-- R310: the length and the header's range come before the first read. -/
theorem preError_ddsParseHdr (o : Operands) : preError .ddsParseHdr o =
    if o.srcLen.toNat < 128 then some .formatTruncated else if o.src + 128 > 2 ^ 32 then some .addrOverflow else none := by
  simp [preError, checks, firstFailure, checkHeaderLength, checkRange, srcSpan]

theorem preError_ddsParseHdr_eq_none {o : Operands} (hlen : 128 ≤ o.srcLen.toNat) (hend : o.src + 128 ≤ 2 ^ 32) :
    preError .ddsParseHdr o = none := by
  rw [preError_ddsParseHdr, if_neg (by omega), if_neg (by omega)]

/-- R310, R311: the checks on the declared dimensions. -/
theorem firstFailure_dimensionChecks (o : Operands) (w h : Nat) : firstFailure (dimensionChecks o w h) =
    if w = 0 ∨ h = 0 then some .invalidDimensions
    else if 128 + blocksOf w * blocksOf h * 8 > o.srcLen.toNat then some .formatTruncated
    else if o.src + (128 + blocksOf w * blocksOf h * 8) > 2 ^ 32 then some .addrOverflow else none := by
  simp only [dimensionChecks, firstFailure, checkRange, decide_eq_true_eq]

/-- A word of the header whose bytes are backed is read (log 7). -/
theorem headerWord_of_backed {s : State} {off : Nat} (hrace : s.race = {})
    (h : s.backedSpan ⟨s.latch.ops.src + off, 4⟩) : s.headerWord off = .ok (s.memRead (s.latch.ops.src + off) 4) := by
  have hfault := (faults_eq_false_iff s [⟨s.latch.ops.src + off, 4⟩]).2 (List.forall_mem_singleton.2 h)
  simp [State.headerWord, hfault, hrace]

/-- R371: a word that is not backed is a bus error. -/
theorem headerWord_of_unbacked {s : State} {off : Nat} (h : ¬s.backedSpan ⟨s.latch.ops.src + off, 4⟩) :
    s.headerWord off = .error .busError := by
  have hfault : s.platform.faults [⟨s.latch.ops.src + off, 4⟩] = true := by
    by_contra hnone
    exact h ((faults_eq_false_iff s _).1 (by simpa using hnone) _ (List.mem_singleton_self _))
  simp [State.headerWord, hfault]

/-- Without a race, a header that parses completes the command (R310). -/
theorem exec_ddsParseHdr_ok {s : State} {ws : ResultWrites} (hrace : s.race = {})
    (hpre : preError .ddsParseHdr s.latch.ops = none) (hparse : s.parseHeader = .ok ws) :
    exec .ddsParseHdr s = .next (s.complete ws) := by
  rw [exec_of_preError_none hpre, if_pos rfl, hparse]
  simp [State.finishParse, hrace]

/-- Without a race, a header that does not parse ends the command with its error (R310, R370). -/
theorem failedWith_ddsParseHdr {s : State} {e : ErrCode} (hrace : s.race = {})
    (hpre : preError .ddsParseHdr s.latch.ops = none) (hparse : s.parseHeader = .error e) :
    failedWith (exec .ddsParseHdr s) s e.code := by
  have hend : s.finishParse (.error e) = s.raiseError e := by simp [State.finishParse, State.spendHeader, hrace]
  rw [exec_of_preError_none hpre, if_pos rfl, hparse, hend]
  exact failedWith_raiseError s e

section

variable {s : State} {n : Nat}

/-! Each check is reached when those before it pass (R311). -/

theorem parseHeader_unreadMagic (h : s.headerWord 0 = .error .busError) : s.parseHeader = .error .busError := by
  simp only [State.parseHeader, h]

theorem parseHeader_badMagic (h : s.headerWord 0 = .ok n) (hbad : n ≠ ddsMagic) :
    s.parseHeader = .error .formatMagic := by
  simp only [State.parseHeader, h, if_pos hbad]

variable (hmagic : s.headerWord 0 = .ok ddsMagic)

include hmagic

theorem parseHeader_unreadFourcc (h : s.headerWord 84 = .error .busError) : s.parseHeader = .error .busError := by
  simp only [State.parseHeader, hmagic, h, ne_eq, not_true_eq_false, if_false]

theorem parseHeader_badFourcc (h : s.headerWord 84 = .ok n) (hbad : n ≠ ddsFourcc) :
    s.parseHeader = .error .formatFourcc := by
  simp only [State.parseHeader, hmagic, h, ne_eq, not_true_eq_false, if_false, hbad, not_false_eq_true, if_true]

variable (hfourcc : s.headerWord 84 = .ok ddsFourcc)

include hfourcc

theorem parseHeader_unreadHeight (h : s.headerWord 12 = .error .busError) : s.parseHeader = .error .busError := by
  simp only [State.parseHeader, hmagic, hfourcc, h, ne_eq, not_true_eq_false, if_false]

theorem parseHeader_unreadWidth (hheight : s.headerWord 12 = .ok n) (h : s.headerWord 16 = .error .busError) :
    s.parseHeader = .error .busError := by
  simp only [State.parseHeader, hmagic, hfourcc, hheight, h, ne_eq, not_true_eq_false, if_false]

theorem parseHeader_badDimensions {w h : Nat} {e : ErrCode} (hheight : s.headerWord 12 = .ok h)
    (hwidth : s.headerWord 16 = .ok w) (hfail : firstFailure (dimensionChecks s.latch.ops w h) = some e) :
    s.parseHeader = .error e := by
  simp only [State.parseHeader, hmagic, hfourcc, hheight, hwidth, hfail, ne_eq, not_true_eq_false, if_false]

theorem parseHeader_good {w h : Nat} (hheight : s.headerWord 12 = .ok h) (hwidth : s.headerWord 16 = .ok w)
    (hpass : firstFailure (dimensionChecks s.latch.ops w h) = none) :
    s.parseHeader = .ok (parsedResults s.latch.ops w h) := by
  simp only [State.parseHeader, hmagic, hfourcc, hheight, hwidth, hpass, ne_eq, not_true_eq_false, if_false]

end

/-- Settles O41: the order of the checks, of which each is reached only past the ones before it. -/
theorem ddsParseHdrErrorsInOrder : Obligations.DdsParseHdrErrorsInOrder := by
  intro s o n word size ok fails hrace
  have hpreError := preError_ddsParseHdr o
  have hnoRace : s.race.dst = [] := by rw [hrace]
  have hread {off : Nat} (h : ok off) : s.headerWord off = .ok (word off) := headerWord_of_backed hrace h
  have hunread {off : Nat} (h : ¬ok off) : s.headerWord off = .error .busError := headerWord_of_unbacked h
  refine ⟨fun hshort => ?_, fun hlen hfar => ?_, fun hlen hnear => ?_⟩
  · exact failedWith_of_preError hnoRace (hpreError.trans (if_pos hshort))
  · exact failedWith_of_preError hnoRace (hpreError.trans ((if_neg (by omega)).trans (if_pos hfar)))
  have hend {e : ErrCode} (hparse : s.parseHeader = .error e) : fails e.code :=
    failedWith_ddsParseHdr hrace (preError_ddsParseHdr_eq_none hlen hnear) hparse
  refine ⟨fun h0 => hend (parseHeader_unreadMagic (hunread h0)),
    fun h0 hbad => hend (parseHeader_badMagic (hread h0) hbad), fun h0 hmagic => ?_⟩
  have hmagic : s.headerWord 0 = .ok ddsMagic := by rw [hread h0, hmagic]; rfl
  refine ⟨fun h84 => hend (parseHeader_unreadFourcc hmagic (hunread h84)),
    fun h84 hbad => hend (parseHeader_badFourcc hmagic (hread h84) hbad), fun h84 hfourcc => ?_⟩
  have hfourcc : s.headerWord 84 = .ok ddsFourcc := by rw [hread h84, hfourcc]; rfl
  refine ⟨fun hunbacked => ?_, fun h12 h16 => ?_⟩
  · by_cases h12 : ok 12
    · exact hend (parseHeader_unreadWidth hmagic hfourcc (hread h12)
        (hunread (hunbacked.resolve_left (not_not_intro h12))))
    · exact hend (parseHeader_unreadHeight hmagic hfourcc (hunread h12))
  have hdims := firstFailure_dimensionChecks o (word 16) (word 12)
  have hfail {e : ErrCode} (h : firstFailure (dimensionChecks o (word 16) (word 12)) = some e) : fails e.code :=
    hend (parseHeader_badDimensions hmagic hfourcc (hread h12) (hread h16) h)
  refine ⟨fun hzero => ?_, fun hw hh hlong => ?_, fun hw hh hfits hfar => ?_⟩
  · exact hfail (hdims.trans (if_pos hzero))
  · exact hfail (hdims.trans ((if_neg (by omega)).trans (if_pos hlong)))
  · exact hfail (hdims.trans ((if_neg (by omega)).trans ((if_neg (Nat.not_lt.2 hfits)).trans (if_pos hfar))))

/-! ## A header that parses -/

/-- R34-R36: the three registers that a parsed header leaves. -/
theorem results_kept_parsedResults (r : Results) (o : Operands) (w h : Nat) :
    (r.setAll (parsedResults o w h)).sse = r.sse ∧ (r.setAll (parsedResults o w h)).colors = r.colors ∧
      (r.setAll (parsedResults o w h)).indices = r.indices := ⟨rfl, rfl, rfl⟩

/-- R37-R42: the six registers that a parsed header goes to. -/
theorem results_setAll_parsedResults (r : Results) (o : Operands) (w h : Nat) :
    r.setAll (parsedResults o w h) =
      { r with width := BitVec.ofNat 32 w, height := BitVec.ofNat 32 h, bw := BitVec.ofNat 32 (blocksOf w),
               bh := BitVec.ofNat 32 (blocksOf h), payloadSize := BitVec.ofNat 32 (blocksOf w * blocksOf h * 8),
               payloadAddr := BitVec.ofNat 32 (o.src + 128) } := rfl

/-- R310: the payload of a nonempty texture is not empty. -/
theorem payload_pos {w h : Nat} (hw : 0 < w) (hh : 0 < h) : 0 < blocksOf w * blocksOf h * 8 := by
  have hcols : 0 < blocksOf w := by unfold blocksOf; omega
  have hrows : 0 < blocksOf h := by unfold blocksOf; omega
  exact Nat.mul_pos (Nat.mul_pos hcols hrows) (by decide)

section

variable {w h : Nat}

/-- R37-R42: the six registers hold the numbers of a texture whose file lies inside the address space. -/
theorem toNat_parsedResults (r : Results) {o : Operands} (hw : w < 2 ^ 32) (hh : h < 2 ^ 32) (hwpos : 0 < w)
    (hhpos : 0 < h) (hsize : 128 + blocksOf w * blocksOf h * 8 < 2 ^ 32)
    (hfile : o.src + (128 + blocksOf w * blocksOf h * 8) ≤ 2 ^ 32) :
    (r.setAll (parsedResults o w h)).width.toNat = w ∧ (r.setAll (parsedResults o w h)).height.toNat = h ∧
      (r.setAll (parsedResults o w h)).bw.toNat = blocksOf w ∧ (r.setAll (parsedResults o w h)).bh.toNat = blocksOf h ∧
      (r.setAll (parsedResults o w h)).payloadSize.toNat = blocksOf w * blocksOf h * 8 ∧
      (r.setAll (parsedResults o w h)).payloadAddr.toNat = o.src + 128 := by
  have hpos := payload_pos hwpos hhpos
  rw [results_setAll_parsedResults]
  exact ⟨Nat.mod_eq_of_lt hw, Nat.mod_eq_of_lt hh, Nat.mod_eq_of_lt (blocksOf_lt hw), Nat.mod_eq_of_lt (blocksOf_lt hh),
    Nat.mod_eq_of_lt (by omega), Nat.mod_eq_of_lt (by omega)⟩

/-- R310, R312: the four words decide, and no other field of the header does. -/
theorem exec_ddsParseHdr_of_words {s : State} (hmagic : s.memRead (s.latch.ops.src + 0) 4 = ddsMagic)
    (hfourcc : s.memRead (s.latch.ops.src + 84) 4 = ddsFourcc) (hheight : s.memRead (s.latch.ops.src + 12) 4 = h)
    (hwidth : s.memRead (s.latch.ops.src + 16) 4 = w) (hwpos : 0 < w) (hhpos : 0 < h)
    (hlen : 128 + blocksOf w * blocksOf h * 8 ≤ s.latch.ops.srcLen.toNat)
    (hfile : s.latch.ops.src + (128 + blocksOf w * blocksOf h * 8) ≤ 2 ^ 32)
    (hbacked : ∀ off, off = 0 ∨ off = 12 ∨ off = 16 ∨ off = 84 → s.backedSpan ⟨s.latch.ops.src + off, 4⟩)
    (hrace : s.race = {}) : exec .ddsParseHdr s = .next (s.complete (parsedResults s.latch.ops w h)) := by
  have hread {off n : Nat} (hoff : off = 0 ∨ off = 12 ∨ off = 16 ∨ off = 84)
      (hn : s.memRead (s.latch.ops.src + off) 4 = n) : s.headerWord off = .ok n :=
    hn ▸ headerWord_of_backed hrace (hbacked off hoff)
  have hpass : firstFailure (dimensionChecks s.latch.ops w h) = none := by
    rw [firstFailure_dimensionChecks, if_neg (by omega), if_neg (Nat.not_lt.2 hlen), if_neg (Nat.not_lt.2 hfile)]
  exact exec_ddsParseHdr_ok hrace (preError_ddsParseHdr_eq_none (by omega) (by omega))
    (parseHeader_good (hread (by decide) hmagic) (hread (by decide) hfourcc) (hread (by decide) hheight)
      (hread (by decide) hwidth) hpass)

end

/-- Settles O40: the checks pass, and each reported number fits its register. -/
theorem ddsParseHdrReportsTheHeader : Obligations.DdsParseHdrReportsTheHeader := by
  intro s o word w h size hmagic hfourcc hw hh hlen hfile hbacked hrace
  have hend : exec .ddsParseHdr s = .next (s.complete (parsedResults o w h)) :=
    exec_ddsParseHdr_of_words hmagic hfourcc rfl rfl hw hh hlen hfile hbacked hrace
  obtain ⟨hwidth, hheight, hbw, hbh, hpayload, haddr⟩ := toNat_parsedResults s.res (memRead_lt s (o.src + 16) 4)
    (memRead_lt s (o.src + 12) 4) hw hh (hlen.trans_lt o.srcLen.isLt) hfile
  refine ⟨_, hend, succeeded_complete s _, rfl, ?_⟩
  rw [complete_res]
  exact ⟨hwidth, hheight, hbw, hbh, hpayload, haddr, results_kept_parsedResults s.res o w h⟩

/-! ## The round trip -/

/-- The state in which the host has sent DDS_PARSE_HDR of the n bytes at the destination of the header. -/
def State.withDdsParseHdr (t : State) (o : Operands) (n : Nat) : State :=
  { t with
    latch := { cmd := encode .ddsParseHdr, ops := { o with srcAddr := o.dstAddr, srcLen := BitVec.ofNat 32 n } } }

/-- Settles O42: the four words that the parser reads are those that were written. -/
theorem ddsHeaderRoundTrip : Obligations.DdsHeaderRoundTrip := by
  intro s t o size hW hH hsize hfile hall hrace hexec
  obtain ⟨t', ht, hsucc, hframe, hwords, -⟩ := ddsWriteHdrWritesTheHeader s hW hH (hsize.trans (by decide))
    ((Nat.le_add_right _ _).trans hfile) (backedSpan_of_unbacked_nil hall _) hrace
  cases ht.symm.trans hexec
  obtain ⟨⟨-, hplatform, -⟩, -, -, herr, -, -, htrace⟩ := hsucc
  have hall' : (t.withDdsParseHdr o (128 + size)).platform.unbacked = [] :=
    (congrArg Platform.unbacked hplatform).trans hall
  have hword {i : Nat} (hi : i < 32) :
      (t.withDdsParseHdr o (128 + size)).memRead (o.dst + 4 * i) 4 = headerField o i :=
    (memRead_congr fun _ _ _ => rfl).trans (hwords i hi)
  have hsrcLen : (BitVec.ofNat 32 (128 + size)).toNat = 128 + size := Nat.mod_eq_of_lt (by omega)
  have hend := exec_ddsParseHdr_of_words (s := t.withDdsParseHdr o (128 + size)) (w := o.W) (h := o.H)
    (hword (i := 0) (by decide)) (hword (i := 21) (by decide)) (hword (i := 3) (by decide)) (hword (i := 4) (by decide))
    hW hH (Nat.le_of_eq hsrcLen.symm) ((Nat.add_assoc _ _ _).symm.trans_le hfile)
    (fun _ _ => backedSpan_of_unbacked_nil hall' _) htrace
  obtain ⟨hwidth, hheight, hbw, hbh, hpayload, haddr⟩ := toNat_parsedResults t.res
    (o := (t.withDdsParseHdr o (128 + size)).latch.ops) o.width.isLt o.height.isLt hW hH
    (show 128 + size < 2 ^ 32 by omega) ((Nat.add_assoc _ _ _).symm.trans_le hfile)
  refine ⟨_, hend, herr, rfl, ?_⟩
  rw [complete_res]
  refine ⟨BitVec.eq_of_toNat_eq hwidth, BitVec.eq_of_toNat_eq hheight, hbw, hbh, hpayload, haddr, fun a hlo _ => ?_⟩
  exact hframe a (Bool.eq_false_iff.2 fun hin => by rw [holds_iff] at hin; exact absurd hin.2 (Nat.not_lt.2 hlo))

end Sys2Proof.Machine
end

section
/-! What a command reads (20_memory R73): two memories that agree on the source range give the same job, so the same
results, and bytes that are written alike or left alone. -/

namespace Sys2Proof.Machine

open Sys2Proof

/-! ## Reading from memories that agree -/

/-- The two states read the same bytes in the n at a. -/
def AgreeOn (s t : State) (a n : Nat) : Prop := ∀ b, a ≤ b → b < a + n → t.readByte b = s.readByte b

section

variable {s t : State} {a b m n : Nat}

theorem AgreeOn.mono (h : AgreeOn s t a n) (hlo : a ≤ b) (hhi : b + m ≤ a + n) : AgreeOn s t b m :=
  fun c hc hc' => h c (by omega) (by omega)

theorem agreeOn_of_holds (h : ∀ b, Span.holds ⟨a, n⟩ b = true → t.readByte b = s.readByte b) : AgreeOn s t a n :=
  fun b hlo hhi => h b ((holds_iff a n b).2 ⟨hlo, hhi⟩)

theorem AgreeOn.memRead (h : AgreeOn s t a n) : t.memRead a n = s.memRead a n := memRead_congr h

theorem AgreeOn.readPixel (h : AgreeOn s t a 4) : t.readPixel a = s.readPixel a := by
  have hbyte (c : Nat) (hc : c < 4) : t.memRead (a + c) 1 = s.memRead (a + c) 1 :=
    (h.mono (by omega) (by omega)).memRead
  rw [State.readPixel, State.readPixel, ← Nat.add_zero a, hbyte 0 (by decide), Nat.add_zero, hbyte 1 (by decide),
    hbyte 2 (by decide), hbyte 3 (by decide)]

theorem AgreeOn.readBlock (h : AgreeOn s t a 64) : t.readBlock a = s.readBlock a :=
  List.map_congr_left fun k hk => by
    have hk := List.mem_range.1 hk
    exact (h.mono (by omega) (by omega)).readPixel

theorem AgreeOn.readDecoded (h : AgreeOn s t a 8) : t.readDecoded a = s.readDecoded a := by
  have hfield (c k : Nat) (hck : c + k ≤ 8) : t.memRead (a + c) k = s.memRead (a + c) k :=
    (h.mono (by omega) (by omega)).memRead
  rw [State.readDecoded, State.readDecoded, ← Nat.add_zero a, hfield 0 2 (by decide), Nat.add_zero,
    hfield 2 2 (by decide), hfield 4 4 (by decide)]

/-- R262: an extracted block reads only pixels of the image. -/
theorem AgreeOn.extract {W H : Nat} (h : AgreeOn s t a (W * H * 4)) (bx row : Nat) :
    t.extract a W H bx row = s.extract a W H bx row := by
  refine List.map_congr_left fun k _ => ?_
  split
  · next hin =>
    obtain ⟨hlo, hhi⟩ := pixelAddr_bounds (A := a) hin.1 hin.2
    exact (h.mono hlo hhi).readPixel
  · rfl

end

/-! ## The job of a command -/

/-- The state with another memory. -/
def State.withMem (s : State) (m : Memory) : State := { s with mem := m }

section

variable {s : State} {m : Memory}

/-- R73: the job depends on memory only through the source range. -/
theorem jobOf_withMem {i : Instr}
    (h : ∀ a, (srcSpan i s.latch.ops).holds a = true → (s.withMem m).readByte a = s.readByte a) :
    jobOf i (s.withMem m) = jobOf i s := by
  have hagree : AgreeOn s (s.withMem m) (srcSpan i s.latch.ops).base (srcSpan i s.latch.ops).len := agreeOn_of_holds h
  cases i with
  | nop => rfl
  | ddsParseHdr => rfl
  | ddsWriteHdr => rfl
  | decBlock =>
    have hread : (s.withMem m).readDecoded s.latch.ops.src = s.readDecoded s.latch.ops.src := hagree.readDecoded
    simp only [jobOf, jobDecBlock, State.withMem] at hread ⊢
    rw [hread]
  | encBlock method mse dither refine =>
    have hread : (s.withMem m).readBlock s.latch.ops.src = s.readBlock s.latch.ops.src := hagree.readBlock
    simp only [jobOf, jobEncBlock, State.withMem] at hread ⊢
    rw [hread]
  | tileGet =>
    have hread := hagree.extract s.latch.ops.blockX.toNat s.latch.ops.blockY.toNat
    simp only [jobOf, jobTileGet, State.withMem, srcSpan] at hread ⊢
    rw [hread]
  | tilePut =>
    have hread : (s.withMem m).readBlock s.latch.ops.src = s.readBlock s.latch.ops.src := hagree.readBlock
    simp only [jobOf, jobTilePut, State.withMem] at hread ⊢
    rw [hread]
  | encImage method mse dither refine =>
    have hread (cfg : EncCfg) : (s.withMem m).encodeImageBlock cfg = s.encodeImageBlock cfg := by
      funext k
      exact congrArg (fun p => encodeBlock s.params cfg p k) (hagree.extract _ _)
    simp only [jobOf, jobEncImage, hread]
    rfl
  | decImage =>
    have hread : (blockIndices s.latch.ops).flatMap (s.withMem m).decodedBlockCells =
        (blockIndices s.latch.ops).flatMap s.decodedBlockCells := by
      refine List.flatMap_congr fun k hk => ?_
      have hk : k < s.latch.ops.BW * s.latch.ops.BH := List.mem_range.1 hk
      have hsize : s.latch.ops.payloadSize = s.latch.ops.BW * s.latch.ops.BH * 8 := rfl
      have hblock : AgreeOn s (s.withMem m) (s.latch.ops.src + 8 * k) 8 := hagree.mono (Nat.le_add_right _ _) (by
        simp only [srcSpan]
        omega)
      exact congrArg (placeCells _ _ _ _ _) hblock.readDecoded
    simp only [jobOf, jobDecImage]
    exact congrArg (fun cells => Job.mk _ _ cells _) hread

/-- R310: the parser reads only the header. -/
theorem parseHeader_withMem
    (h : ∀ a, (srcSpan .ddsParseHdr s.latch.ops).holds a = true → (s.withMem m).readByte a = s.readByte a) :
    (s.withMem m).parseHeader = s.parseHeader := by
  have hagree : AgreeOn s (s.withMem m) s.latch.ops.src 128 := agreeOn_of_holds h
  have hword (off : Nat) (hoff : off + 4 ≤ 128) : (s.withMem m).headerWord off = s.headerWord off := by
    have hread : (s.withMem m).memRead (s.latch.ops.src + off) 4 = s.memRead (s.latch.ops.src + off) 4 :=
      (hagree.mono (by omega) (by omega)).memRead
    simp only [State.headerWord, State.withMem] at hread ⊢
    rw [hread]
    rfl
  simp only [State.parseHeader, hword 0 (by decide), hword 84 (by decide), hword 12 (by decide), hword 16 (by decide)]
  rfl

/-! ## The end of a command -/

/-- From two memories the same STATUS and results, and every byte the same in both or untouched in both. -/
def SameOutcome (s : State) (m : Memory) (t u : State) : Prop :=
  u.res = t.res ∧ u.status = t.status ∧ ∀ a, u.readByte a = t.readByte a ∨
    (t.readByte a = s.readByte a ∧ u.readByte a = (s.withMem m).readByte a)

/-- The same writes leave a byte they name alike, and any other alone. -/
theorem readByte_store_withMem (cs : List Host.Cell) (a : Nat) :
    ((s.withMem m).store cs).readByte a = (s.store cs).readByte a ∨
    ((s.store cs).readByte a = s.readByte a ∧ ((s.withMem m).store cs).readByte a = (s.withMem m).readByte a) := by
  rw [readByte_store, readByte_store]
  cases lastCell cs a with
  | none => exact .inr ⟨rfl, rfl⟩
  | some v => exact .inl rfl

theorem sameOutcome_raiseError (e : ErrCode) : SameOutcome s m (s.raiseError e) ((s.withMem m).raiseError e) :=
  ⟨rfl, rfl, fun _ => .inr ⟨rfl, rfl⟩⟩

/-- The same job ends alike from both memories. -/
theorem sameOutcome_finish (hrace : s.race = {}) (j : Job) :
    SameOutcome s m (s.finish j) ((s.withMem m).finish j) := by
  have hrace' : (s.withMem m).race = {} := hrace
  cases hfault : s.platform.faults j.touched
  · rw [finish_of_unraced hfault (by rw [hrace]), finish_of_unraced (s := s.withMem m) hfault (by rw [hrace']), hrace,
      hrace']
    exact ⟨rfl, rfl, readByte_store_withMem j.cells⟩
  · rw [finish_of_faults hfault, finish_of_faults (s := s.withMem m) hfault]
    exact ⟨rfl, rfl, readByte_store_withMem (anyCells j.dst.addrs s.free)⟩

theorem sameOutcome_finishParse (hrace : s.race = {}) (r : Except ErrCode ResultWrites) :
    SameOutcome s m (s.finishParse r) ((s.withMem m).finishParse r) := by
  cases r <;> simp only [State.finishParse, State.spendHeader, State.withMem, hrace, Bool.false_eq_true, if_false] <;>
    exact ⟨rfl, rfl, fun _ => .inr ⟨rfl, rfl⟩⟩

end

/-- Settles O25: a failed check reads nothing, and else the job or the parsed header is the same. -/
theorem commandsReadOnlyTheirSource : Obligations.CommandsReadOnlyTheirSource := by
  intro i s t m hrace hsame h
  cases hpre : preError i s.latch.ops with
  | some e =>
    rw [exec_of_preError hpre, failCheck_quiet s e (by rw [hrace])] at h
    cases h
    have hend : exec i (s.withMem m) = .next ((s.withMem m).raiseError e) := by
      rw [exec_of_preError (s := s.withMem m) hpre, failCheck_quiet (s.withMem m) e (congrArg Race.dst hrace)]
    exact ⟨_, hend, sameOutcome_raiseError e⟩
  | none =>
    have hend := exec_of_preError_none (i := i) (s := s.withMem m) hpre
    rw [exec_of_preError_none hpre] at h
    cases h
    refine ⟨_, hend, ?_⟩
    split
    · next hi =>
      subst hi
      rw [parseHeader_withMem hsame]
      exact sameOutcome_finishParse hrace _
    · rw [jobOf_withMem hsame]
      exact sameOutcome_finish hrace _

end Sys2Proof.Machine
end
